-- ==== Sys2Proof/Word.lean ====
section
/-!
DEFINITION. The word types of the block (R11, R12): every quantity is unsigned, `u<n>` is `BitVec n`,
and a byte string is a finite list of bytes.
-/

namespace Sys2Proof

/-- `u8` of R11: the only addressable unit (R41). -/
abbrev Byte := BitVec 8

/-- `u16` of R11. -/
abbrev U16 := BitVec 16

/-- `u32` of R11: one half of a cipher block (R120). -/
abbrev U32 := BitVec 32

/-- `u64` of R11: a cipher block or key (R120). -/
abbrev U64 := BitVec 64

/-- A byte string (R12): a finite list of bytes, index 0 first. -/
abbrev Bytes := List Byte

end Sys2Proof
end

