-- ==== Sys2Proof/Machine/Flags.lean ====
section
/-!
DEFINITION. The block has no flags or condition codes (R22): its only outcome indicator is STATUS. This
file holds the STATUS codes of R80.
-/

namespace Sys2Proof.Machine

/-- The outcomes of an operation, by the names of R80. -/
inductive Status where
  | ok
  | okPending
  | okResync
  | errLength
  | errTruncated
  | errShort
  | errChecksum
  | errUnterminated
  | errPrecondition
  | errNotRecognised
  | errCapacity
  | errNoReading
  | errCipherPrecond
  | errUnconfigured
  | errBadOp
deriving DecidableEq, Repr

/-- The 8-bit code of each outcome (R80). Bit 7 set means failure. -/
def Status.code : Status → Byte
  | .ok => 0x00#8
  | .okPending => 0x01#8
  | .okResync => 0x02#8
  | .errLength => 0x80#8
  | .errTruncated => 0x81#8
  | .errShort => 0x82#8
  | .errChecksum => 0x83#8
  | .errUnterminated => 0x84#8
  | .errPrecondition => 0x85#8
  | .errNotRecognised => 0x86#8
  | .errCapacity => 0x87#8
  | .errNoReading => 0x88#8
  | .errCipherPrecond => 0x89#8
  | .errUnconfigured => 0x8A#8
  | .errBadOp => 0xFF#8

/-- A STATUS byte reports a failure when its bit 7 is set (R80, R226). -/
def isFailure (status : Byte) : Bool := status.getLsbD 7

end Sys2Proof.Machine
end

