-- ==== Sys2Proof/Config.lean ====
section
/-!
DEFINITION. The constants of R8, and the configuration of an instance (R9, R29): the parameters the
source requires and does not print, and those the spec introduces. A `Config` is plain data, so that
it can stand in `State` as a read-only part; no operation writes one.

A parameter that is a function is either the shape the spec names or `free n`, a number that selects
one of an arbitrary family of functions: the opaque constants below. They have no body, so nothing can
be proved about the function a number selects (assumption log 4 to 8, 13 and 16).
-/

namespace Sys2Proof

/-! ### Constants the source fixes (R8) -/

/-- MAX_RUN (R8): the longest literal run under one code byte. -/
abbrev maxRun : Nat := 63

/-- FOLD_STEP (R8): the amount added to a code byte for each folded delimiter. -/
abbrev foldStep : Nat := 64

/-- FOLD_CAP / FOLD_STEP (R8, R104): the most delimiters folded into one code byte. -/
abbrev maxFold : Nat := 3

/-- CHUNK_SIZE (R8): the bytes of a fixed-mode fragment. -/
abbrev chunkSize : Nat := 20

/-- FRAME_SIZE (R8): the bytes of an emitted fixed-mode frame. -/
abbrev frameSize : Nat := 40

/-- FINAL_MARK (R8): the response-type byte of the final keyed fragment. -/
abbrev finalMark : Byte := 0x0A#8

/-- DIM_CYCLE_DEFAULT (R8): the cycle time in ms forced when either cycle time is zero. -/
abbrev dimCycleDefault : U16 := 220#16

/-- LEVEL_MAX (R8): the upper clamp of a query reading. -/
abbrev levelMax : Nat := 100

/-! ### Free functions: opaque, no body -/

/-- An arbitrary Checksum8 (R101: "takes `Checksum8` itself as an opaque total function"; U1). -/
opaque Config.freeChecksum : Nat → Bytes → Byte

/-- An arbitrary TEA_ROUNDS, less one (R9: a natural number ≥ 1; U2). -/
opaque Config.freeTeaRoundsLessOne : Nat → Nat

/-- An arbitrary TEA_DELTA (R9, U2). -/
opaque Config.freeTeaDelta : Nat → U32

/-- An arbitrary TEA_C, by its index 0 to 3 (R9, U2). -/
opaque Config.freeTeaConst : Nat → Fin 4 → U32

/-- An arbitrary TEA_SUBKEY (R121: it depends on the key and the index alone; U3). -/
opaque Config.freeSubkey : Nat → U64 → Fin 4 → U32

/-- An arbitrary mixing function of `v`, `acc`, `a`, `b` (R120 (vi), R125, U4). -/
opaque Config.freeMix : Nat → U32 → U32 → U32 → U32 → U32

/-- Whether BUF_CAP binds the operations without a test of their own (R47 against R225; assumption log 16). -/
opaque Config.freeCapBinds : Nat → Bool

/-- An arbitrary replacement of the detection predicate (R198, U7). -/
opaque Config.freeKdet : Nat → Bytes → Bool

/-! ### The parameters -/

/-- Checksum8 (R101): the table shape with CSUM8_SEED and CSUM8_TABLE, or any function at all. -/
inductive ChecksumRule where
  | table (seed : Byte) (entries : Vector Byte 256)
  | free (n : Nat)
deriving DecidableEq, Repr

/-- TEA_ROUNDS, TEA_DELTA and TEA_C (R9, R120). -/
structure TeaLiterals where
  rounds : Nat
  delta : U32
  c0 : U32
  c1 : U32
  c2 : U32
  c3 : U32
deriving DecidableEq, Repr

/-- The cipher's literals (R10, D12): given numbers, or numbers of which nothing is known. -/
inductive TeaRule where
  | given (lits : TeaLiterals)
  | free (n : Nat)
deriving DecidableEq, Repr

/-- TEA_SUBKEY (R121): the default, or any function of the key and the index. -/
inductive SubkeyRule where
  | additive
  | free (n : Nat)
deriving DecidableEq, Repr

/-- The mixing function F: that of R126, or any function (U4). -/
inductive MixRule where
  | classic
  | free (n : Nat)
deriving DecidableEq, Repr

/-- TEA_BYTE_ORDER (R9, R127). -/
inductive ByteOrder where
  | big
  | little
deriving DecidableEq, Repr

/-- KDET (R198): the default header test, or any predicate that meets R198's requirement. -/
inductive KdetRule where
  | header
  | free (n : Nat)
deriving DecidableEq, Repr

/-- Which operations BUF_CAP binds beyond those whose own pseudocode tests it. The spec says both, without a ruling:
every operation (R41, R47), or those R225 lists and no other (R143, R192, R204, R228). DESIGN CHOICE: left open here;
either is an instance, and by default it is not known which holds (assumption log 16). -/
inductive CapScope where
  | everyOperation
  | listedOperations
  | free (n : Nat)
deriving DecidableEq, Repr

/-- The configuration of one instance (R9), fixed for its life (R29). The parameters that only KDET
and the field extractors of R197 use keep the names of R9. -/
structure Config where
  /-- CSUM8_SEED and CSUM8_TABLE. -/
  checksum : ChecksumRule
  /-- TEA_ROUNDS, TEA_DELTA, TEA_C. -/
  tea : TeaRule
  /-- TEA_SUBKEY. -/
  subkey : SubkeyRule
  /-- F of R126. -/
  mix : MixRule
  /-- TEA_BYTE_ORDER. -/
  byteOrder : ByteOrder
  /-- TS_W. -/
  tsW : Nat
  /-- TIMEOUT_RESET; `none` is "unspecified". -/
  timeoutReset : Option Nat
  /-- KHDR_LEN. -/
  khdrLen : Nat
  /-- KTYPE_OFF. -/
  ktypeOff : Nat
  /-- KMARK_OFF. -/
  kmarkOff : Nat
  /-- KQID_OFF. -/
  kqidOff : Nat
  /-- KMARK. -/
  kmark : Byte
  /-- KQID_LO. -/
  kqidLo : Byte
  /-- KQID_HI. -/
  kqidHi : Byte
  /-- KDET. -/
  kdet : KdetRule
  /-- BUF_CAP; `none` is "unset". -/
  bufCap : Option Nat
  /-- Which operations BUF_CAP binds (R47 against R225; assumption log 16). -/
  capScope : CapScope
  /-- KSLOTS; `none` is "unset". -/
  kslots : Option Nat
  /-- KFRAGS; `none` is "unset". -/
  kfrags : Option Nat
deriving DecidableEq, Repr

/-- The configuration of the machine after reset: every default of R9; where R9 has no default (the
checksum, the cipher's literals) and for `capScope` (log 16) an arbitrary value. DESIGN CHOICE (safe): assumption
log 4. -/
def Config.standard : Config where
  checksum := .free 0
  tea := .free 0
  subkey := .additive
  mix := .classic
  byteOrder := .big
  tsW := 64
  timeoutReset := none
  khdrLen := 4
  ktypeOff := 1
  kmarkOff := 2
  kqidOff := 3
  kmark := 0x02#8
  kqidLo := 0xE0#8
  kqidHi := 0xE9#8
  kdet := .header
  bufCap := none
  capScope := .free 0
  kslots := none
  kfrags := none

/-! ### The candidate instantiations the spec names

They stand here for the spec's own vectors (95_test_vectors.md) and for the witnesses of statements;
no definition of the machine uses them (R102: "A model must not build REF in"). -/

/-- The table R102 prints, row by row. -/
def Config.refRows : List Bytes :=
  [[0x00, 0x5E, 0xBC, 0xE2, 0x61, 0x3F, 0xDD, 0x83, 0xC2, 0x9C, 0x7E, 0x20, 0xA3, 0xFD, 0x1F, 0x41],
   [0x9D, 0xC3, 0x21, 0x7F, 0xFC, 0xA2, 0x40, 0x1E, 0x5F, 0x01, 0xE3, 0xBD, 0x3E, 0x60, 0x82, 0xDC],
   [0x23, 0x7D, 0x9F, 0xC1, 0x42, 0x1C, 0xFE, 0xA0, 0xE1, 0xBF, 0x5D, 0x03, 0x80, 0xDE, 0x3C, 0x62],
   [0xBE, 0xE0, 0x02, 0x5C, 0xDF, 0x81, 0x63, 0x3D, 0x7C, 0x22, 0xC0, 0x9E, 0x1D, 0x43, 0xA1, 0xFF]] ++
  [[0x46, 0x18, 0xFA, 0xA4, 0x27, 0x79, 0x9B, 0xC5, 0x84, 0xDA, 0x38, 0x66, 0xE5, 0xBB, 0x59, 0x07],
   [0xDB, 0x85, 0x67, 0x39, 0xBA, 0xE4, 0x06, 0x58, 0x19, 0x47, 0xA5, 0xFB, 0x78, 0x26, 0xC4, 0x9A],
   [0x65, 0x3B, 0xD9, 0x87, 0x04, 0x5A, 0xB8, 0xE6, 0xA7, 0xF9, 0x1B, 0x45, 0xC6, 0x98, 0x7A, 0x24],
   [0xF8, 0xA6, 0x44, 0x1A, 0x99, 0xC7, 0x25, 0x7B, 0x3A, 0x64, 0x86, 0xD8, 0x5B, 0x05, 0xE7, 0xB9]] ++
  [[0x8C, 0xD2, 0x30, 0x6E, 0xED, 0xB3, 0x51, 0x0F, 0x4E, 0x10, 0xF2, 0xAC, 0x2F, 0x71, 0x93, 0xCD],
   [0x11, 0x4F, 0xAD, 0xF3, 0x70, 0x2E, 0xCC, 0x92, 0xD3, 0x8D, 0x6F, 0x31, 0xB2, 0xEC, 0x0E, 0x50],
   [0xAF, 0xF1, 0x13, 0x4D, 0xCE, 0x90, 0x72, 0x2C, 0x6D, 0x33, 0xD1, 0x8F, 0x0C, 0x52, 0xB0, 0xEE],
   [0x32, 0x6C, 0x8E, 0xD0, 0x53, 0x0D, 0xEF, 0xB1, 0xF0, 0xAE, 0x4C, 0x12, 0x91, 0xCF, 0x2D, 0x73]] ++
  [[0xCA, 0x94, 0x76, 0x28, 0xAB, 0xF5, 0x17, 0x49, 0x08, 0x56, 0xB4, 0xEA, 0x69, 0x37, 0xD5, 0x8B],
   [0x57, 0x09, 0xEB, 0xB5, 0x36, 0x68, 0x8A, 0xD4, 0x95, 0xCB, 0x29, 0x77, 0xF4, 0xAA, 0x48, 0x16],
   [0xE9, 0xB7, 0x55, 0x0B, 0x88, 0xD6, 0x34, 0x6A, 0x2B, 0x75, 0x97, 0xC9, 0x4A, 0x14, 0xF6, 0xA8],
   [0x74, 0x2A, 0xC8, 0x96, 0x15, 0x4B, 0xA9, 0xF7, 0xB6, 0xE8, 0x0A, 0x54, 0xD7, 0x89, 0x6B, 0x35]]

/-- One step of R102's construction of the table: shift right, and XOR 0x8C if bit 0 was set. -/
def Config.refStep (c : Byte) : Byte :=
  if c.getLsbD 0 then (c >>> 1) ^^^ 0x8C#8 else c >>> 1

/-- CSUM8_TABLE of the candidate REF (R102): entry `i` is reached from `i` by eight steps. -/
def Config.refTable : Vector Byte 256 :=
  Vector.ofFn fun i => Nat.repeat Config.refStep 8 (BitVec.ofNat 8 i.val)

/-- The candidate REF of the checksum (R102): general knowledge of the spec's writer, not the source's. -/
def Config.refChecksum : ChecksumRule := .table 0x55#8 Config.refTable

/-- The candidate T0 of the cipher's literals (41_block_cipher.md, preamble): not a claim about the real ones. -/
def Config.t0 : TeaRule :=
  .given { rounds := 32, delta := 0x9E3779B9#32, c0 := 0#32, c1 := 0#32, c2 := 0#32, c3 := 0#32 }

/-- The configuration of the spec's vectors marked REF and T0. -/
def Config.vectors : Config :=
  { Config.standard with checksum := Config.refChecksum, tea := Config.t0 }

end Sys2Proof
end

