-- ==== Sys2Proof/Syntax.lean ====
section
/-!
DEFINITION. The operations (R62) as syntax, one constructor for each row of spec/opcode_table.json, and
the operation request as the host issues it (R60).
-/

namespace Sys2Proof

/-- One operation with its operands, typed as R62 types them, and its IN. A `TS_W`-bit operand is a
natural number, since TS_W is a parameter (R9): `Instr.wf` says it fits, and the meaning reads its low
TS_W bits (assumption log 12). -/
inductive Instr where
  /-- CMD.GETDEV (R141). -/
  | cmdGetDev (cmdId : U16) (tableId startId maxCount : Byte)
  /-- CMD.GETMETA (R142). -/
  | cmdGetMeta (cmdId : U16) (tableId startId maxCount : Byte)
  /-- CMD.SWITCH (R143); IN is the device ids. -/
  | cmdSwitch (cmdId : U16) (tableId : Byte) (on : Bool) (ids : Bytes)
  /-- CMD.MOVE (R144). -/
  | cmdMove (cmdId : U16) (tableId deviceId command : Byte)
  /-- CMD.GENIE (R145). -/
  | cmdGenie (cmdId : U16) (tableId deviceId : Byte) (on : Bool)
  /-- CMD.DIM (R146). -/
  | cmdDim (cmdId : U16) (tableId deviceId mode brightness duration : Byte) (cycle1 cycle2 : U16)
  /-- CMD.RGB (R147). -/
  | cmdRgb (cmdId : U16) (tableId deviceId mode r g b autoOff onInt offInt : Byte) (interval : U16)
  /-- CMD.HVAC (R148). -/
  | cmdHvac (cmdId : U16) (tableId deviceId command lowTrip highTrip : Byte)
  /-- CSUM8 (R100). -/
  | csum8 (input : Bytes)
  /-- COBS.ENC (R103); IN is the payload. -/
  | cobsEnc (pre cs : Bool) (payload : Bytes)
  /-- COBS.DEC (R106); IN is the stuffed bytes. -/
  | cobsDec (cs : Bool) (stuffed : Bytes)
  /-- TEA.ENC (R122). -/
  | teaEnc (key block : U64)
  /-- TEA.DEC (R123). -/
  | teaDec (key block : U64)
  /-- TEA.DECBUF (R124); the key is a byte string, IN is the data. -/
  | teaDecBuf (key data : Bytes)
  /-- STS.RELAY (R172); IN is the event buffer. -/
  | stsRelay (event : Bytes)
  /-- STS.DIM (R173); IN is the event buffer. -/
  | stsDim (event : Bytes)
  /-- STS.RGB (R174); IN is the event buffer. -/
  | stsRgb (event : Bytes)
  /-- CHK.PUSH2 (R192); IN is one fragment. -/
  | chkPush2 (now : Nat) (fragment : Bytes)
  /-- CHK.EVICT2 (R196). -/
  | chkEvict2
  /-- CHK.PUSHK (R199); IN is one fragment. -/
  | chkPushK (now : Nat) (fragment : Bytes)
  /-- CHK.EVICTK (R201). -/
  | chkEvictK (key : Byte)
  /-- CHK.SETTMO (R191). -/
  | chkSetTmo (timeout : Nat)
  /-- QRD.DECODE (R204); IN is a list of whole keyed fragments. -/
  | qrdDecode (cs decrypt : Bool) (key : Bytes) (fragments : List Bytes)
  /-- CHK.RESET (R203). -/
  | chkReset
  /-- CHK.PEEK (R202). -/
  | chkPeek (keyed : Bool) (key : Byte)
deriving DecidableEq, Repr

/-- The operand fields of a request, each under its name of R62, with every field of every operation;
the selected operation reads its own and no other. The byte and 16-bit fields of the command family are
whatever integers the host supplies: the decoder clamps them (R81; assumption log 15). Where two
operations give one name two types (`key`), the fields are told apart by their type. -/
structure Fields where
  cmdId : Int := 0
  tableId : Int := 0
  startId : Int := 0
  maxCount : Int := 0
  deviceId : Int := 0
  command : Int := 0
  mode : Int := 0
  brightness : Int := 0
  duration : Int := 0
  cycle1 : Int := 0
  cycle2 : Int := 0
  r : Int := 0
  g : Int := 0
  b : Int := 0
  autoOff : Int := 0
  onInt : Int := 0
  offInt : Int := 0
  interval : Int := 0
  lowTrip : Int := 0
  highTrip : Int := 0
  on : Bool := false
  /-- `pre`, optional: absent is 1 (R62). -/
  pre : Option Bool := none
  /-- `cs`, optional: absent is 1 (R62). -/
  cs : Option Bool := none
  decrypt : Bool := false
  keyed : Bool := false
  /-- `key` of TEA.ENC and TEA.DEC. -/
  key64 : U64 := 0#64
  block : U64 := 0#64
  /-- `key` of TEA.DECBUF and QRD.DECODE. -/
  keyBytes : Bytes := []
  /-- `key` of CHK.EVICTK and CHK.PEEK. -/
  key8 : Byte := 0#8
  now : Nat := 0
  timeout : Nat := 0
deriving DecidableEq, Repr

/-- One operation request `(OPSEL, fields, IN)` (R60). IN is a byte string, and for QRD.DECODE a list of
byte strings. How a request is laid out physically is REQ_LAYOUT, which no rule depends on and which the
model does not represent (assumption log 1). -/
structure Request where
  /-- OPSEL, the 8-bit operation selector. -/
  opsel : Byte
  fields : Fields := {}
  /-- IN, for the operations that take a byte string. -/
  input : Bytes := []
  /-- IN of QRD.DECODE. -/
  inputList : List Bytes := []
deriving DecidableEq, Repr

/-- What the host may do to the block between operations (R261): issue a request, or reset the instance
(R250). Reading STATUS and OUT changes nothing and needs no action. -/
inductive HostAction where
  | issue (r : Request)
  | hardReset
deriving DecidableEq, Repr

end Sys2Proof
end

