-- ==== Sys2Proof/Machine/Operands.lean ====
section
/-!
DEFINITION. Operand assembly (R81), byte order (R43, R127) and the reading of request fields: how an
operand becomes bytes and how bytes become a number. Every operand form of every operation is here.
-/

namespace Sys2Proof.Machine

/-! ### The clamp (R81, C6) -/

/-- `clamp(v, lo, hi)` of R11. -/
def clamp (v lo hi : Int) : Int := min (max v lo) hi

/-- A byte field carried as an integer: `clamp(v, 0, 255)` (R81). -/
def clampByte (v : Int) : Byte := BitVec.ofInt 8 (clamp v 0 255)

/-- A 16-bit field carried as an integer: `clamp(v, 0, 65535)` (R81). -/
def clampU16 (v : Int) : U16 := BitVec.ofInt 16 (clamp v 0 65535)

/-- An absent optional field is 1: `prependDelimiter=true`, `useChecksum=true` (R62). -/
def defaultTrue (o : Option Bool) : Bool := o.getD true

/-! ### Emitted fields (R12, R81) -/

/-- `le16(v) = [v[7:0], v[15:8]]` (R12): the order of the client command id (R43, R67). -/
def le16 (v : U16) : Bytes := [v.extractLsb' 0 8, v.extractLsb' 8 8]

/-- `be16(v) = [v[15:8], v[7:0]]` (R12): the order of cycle times and intervals (R43). -/
def be16 (v : U16) : Bytes := [v.extractLsb' 8 8, v.extractLsb' 0 8]

/-- A `bool` operand is emitted as 0x01 when 1 and 0x00 when 0 (R81). -/
def boolByte (b : Bool) : Byte := if b then 0x01#8 else 0x00#8

/-- The 16-bit number of a high and a low byte: `be16dec` of R12. -/
def be16dec (hi lo : Byte) : U16 := hi ++ lo

/-! ### Cipher blocks and keys as bytes (R12, R127) -/

/-- `be64dec` of R12: byte 0 is bits 63:56. -/
def be64dec (s : Bytes) : U64 :=
  s.foldl (fun acc b => (acc <<< 8) ||| b.setWidth 64) 0#64

/-- `be64enc` of R12: byte 0 is bits 63:56. -/
def be64enc (v : U64) : Bytes :=
  [v.extractLsb' 56 8, v.extractLsb' 48 8, v.extractLsb' 40 8, v.extractLsb' 32 8,
   v.extractLsb' 24 8, v.extractLsb' 16 8, v.extractLsb' 8 8, v.extractLsb' 0 8]

/-- `bytes_to_u64` of R127: with TEA_BYTE_ORDER = little, byte 0 is bits 7:0. -/
def bytesToU64 (order : ByteOrder) (s : Bytes) : U64 :=
  match order with
  | .big => be64dec s
  | .little => be64dec s.reverse

/-- `u64_to_bytes` of R127. -/
def u64ToBytes (order : ByteOrder) (v : U64) : Bytes :=
  match order with
  | .big => be64enc v
  | .little => (be64enc v).reverse

/-! ### Time (R190) -/

/-- A `TS_W`-bit operand: the low TS_W bits of the number supplied. On a well-formed operand this is the
number itself (assumption log 12). -/
def timeOperand (c : Config) (v : Nat) : Nat := v % 2 ^ c.tsW

/-- `age(now, ts) = (now -_TS_W ts)`: subtraction modulo 2^TS_W (R190). -/
def age (c : Config) (now ts : Nat) : Nat :=
  (BitVec.ofNat c.tsW now - BitVec.ofNat c.tsW ts).toNat

/-! ### Fields of a keyed fragment (R197) -/

/-- `type(f) = f[KTYPE_OFF]` (R197). KDET ensures that the byte is there (R198). -/
def fragType (c : Config) (f : Bytes) : Byte := f.getD c.ktypeOff 0x00#8

/-- `qid(f) = f[KQID_OFF]` (R197). KDET ensures that the byte is there (R198). -/
def fragQid (c : Config) (f : Bytes) : Byte := f.getD c.kqidOff 0x00#8

/-- `payload(f) = f[KHDR_LEN .. len(f))` (R197). -/
def fragPayload (c : Config) (f : Bytes) : Bytes := f.drop c.khdrLen

/-- The requirement of R198 on any detection predicate: the header is there, and so are the bytes that
R197 reads. -/
def fragLongEnough (c : Config) (f : Bytes) : Bool :=
  decide (c.khdrLen ≤ f.length) && decide (max c.ktypeOff c.kqidOff < f.length)

/-- KDET (R198): the default structural test, or any predicate; either way with R198's requirement. A
byte beyond the fragment's end matches nothing. -/
def kdet (c : Config) (f : Bytes) : Bool :=
  fragLongEnough c f &&
    match c.kdet with
    | .header =>
      decide (f[0]? = some 0x00#8) && decide (f[c.kmarkOff]? = some c.kmark) &&
        decide (c.kqidLo ≤ fragQid c f) && decide (fragQid c f ≤ c.kqidHi)
    | .free n => Config.freeKdet n f

end Sys2Proof.Machine
end

