-- ==== Sys2Proof/WellFormed.lean ====
section
/-!
DEFINITION. What makes a request well formed beyond its types, and a configuration legal. R62 types every
operand, so the only check left for an operation is that a `TS_W`-bit operand has TS_W bits.
-/

namespace Sys2Proof

/-- The operand checks of R62 that the Lean types leave open, for a timestamp width `tsW`. -/
def Instr.wf (tsW : Nat) : Instr → Bool
  | .cmdGetDev _ _ _ _ => true
  | .cmdGetMeta _ _ _ _ => true
  | .cmdSwitch _ _ _ _ => true
  | .cmdMove _ _ _ _ => true
  | .cmdGenie _ _ _ _ => true
  | .cmdDim _ _ _ _ _ _ _ _ => true
  | .cmdRgb _ _ _ _ _ _ _ _ _ _ _ => true
  | .cmdHvac _ _ _ _ _ _ => true
  | .csum8 _ => true
  | .cobsEnc _ _ _ => true
  | .cobsDec _ _ => true
  | .teaEnc _ _ => true
  | .teaDec _ _ => true
  | .teaDecBuf _ _ => true
  | .stsRelay _ => true
  | .stsDim _ => true
  | .stsRgb _ => true
  | .chkPush2 now _ => now < 2 ^ tsW
  | .chkEvict2 => true
  | .chkPushK now _ => now < 2 ^ tsW
  | .chkEvictK _ => true
  | .chkSetTmo timeout => timeout < 2 ^ tsW
  | .qrdDecode _ _ _ _ => true
  | .chkReset => true
  | .chkPeek _ _ => true

/-- What R9 asks of the parameters: TEA_ROUNDS is at least 1, and TIMEOUT_RESET, if specified, has TS_W
bits. -/
def Config.wf (c : Config) : Bool :=
  (match c.tea with
   | .given l => decide (1 ≤ l.rounds)
   | .free _ => true) &&
  (match c.timeoutReset with
   | some t => decide (t < 2 ^ c.tsW)
   | none => true)

end Sys2Proof
end

