-- ==== Sys2Proof/Decode.lean ====
section
/-!
DEFINITION. The decoder: from an operation request (R60) to the operation it selects (R62), total, with
every unassigned selector rejected by name (R63); and the encoder, from an operation to the request that
issues it. OPSEL is the only part of a request the spec gives as bits; the operand fields and IN are
named and typed (R60, assumption log 1).
-/

namespace Sys2Proof

open Sys2Proof.Machine

/-- Why a request selects no operation. -/
inductive DecodeError where
  /-- OPSEL is not in the table of R62 (R63). -/
  | badOp (opsel : Byte)
deriving DecidableEq, Repr

/-- The operation a request selects (R62), its command fields clamped (R81) and its absent optional
fields at their defaults (R62); every other selector is invalid (R63). -/
def decode (q : Request) : Except DecodeError Instr :=
  let f := q.fields
  match q.opsel.toNat with
  | 0x01 => .ok (.cmdGetDev (clampU16 f.cmdId) (clampByte f.tableId) (clampByte f.startId) (clampByte f.maxCount))
  | 0x02 => .ok (.cmdGetMeta (clampU16 f.cmdId) (clampByte f.tableId) (clampByte f.startId) (clampByte f.maxCount))
  | 0x40 => .ok (.cmdSwitch (clampU16 f.cmdId) (clampByte f.tableId) f.on q.input)
  | 0x41 => .ok (.cmdMove (clampU16 f.cmdId) (clampByte f.tableId) (clampByte f.deviceId) (clampByte f.command))
  | 0x42 => .ok (.cmdGenie (clampU16 f.cmdId) (clampByte f.tableId) (clampByte f.deviceId) f.on)
  | 0x43 => .ok (.cmdDim (clampU16 f.cmdId) (clampByte f.tableId) (clampByte f.deviceId) (clampByte f.mode)
      (clampByte f.brightness) (clampByte f.duration) (clampU16 f.cycle1) (clampU16 f.cycle2))
  | 0x44 => .ok (.cmdRgb (clampU16 f.cmdId) (clampByte f.tableId) (clampByte f.deviceId) (clampByte f.mode)
      (clampByte f.r) (clampByte f.g) (clampByte f.b) (clampByte f.autoOff) (clampByte f.onInt) (clampByte f.offInt)
      (clampU16 f.interval))
  | 0x45 => .ok (.cmdHvac (clampU16 f.cmdId) (clampByte f.tableId) (clampByte f.deviceId) (clampByte f.command)
      (clampByte f.lowTrip) (clampByte f.highTrip))
  | 0x80 => .ok (.csum8 q.input)
  | 0x81 => .ok (.cobsEnc (defaultTrue f.pre) (defaultTrue f.cs) q.input)
  | 0x82 => .ok (.cobsDec (defaultTrue f.cs) q.input)
  | 0x90 => .ok (.teaEnc f.key64 f.block)
  | 0x91 => .ok (.teaDec f.key64 f.block)
  | 0x92 => .ok (.teaDecBuf f.keyBytes q.input)
  | 0xA0 => .ok (.stsRelay q.input)
  | 0xA1 => .ok (.stsDim q.input)
  | 0xA2 => .ok (.stsRgb q.input)
  | 0xB0 => .ok (.chkPush2 f.now q.input)
  | 0xB1 => .ok .chkEvict2
  | 0xB2 => .ok (.chkPushK f.now q.input)
  | 0xB3 => .ok (.chkEvictK f.key8)
  | 0xB4 => .ok (.chkSetTmo f.timeout)
  | 0xB5 => .ok (.qrdDecode (defaultTrue f.cs) f.decrypt f.keyBytes q.inputList)
  | 0xB6 => .ok .chkReset
  | 0xB7 => .ok (.chkPeek f.keyed f.key8)
  | _ => .error (.badOp q.opsel)

/-- The request that issues an operation: its OPSEL of R62, its fields by name, its IN. -/
def encode : Instr → Request
  | .cmdGetDev cmdId tableId startId maxCount =>
    { opsel := 0x01#8, fields := { cmdId := cmdId.toNat, tableId := tableId.toNat, startId := startId.toNat, maxCount := maxCount.toNat } }
  | .cmdGetMeta cmdId tableId startId maxCount =>
    { opsel := 0x02#8, fields := { cmdId := cmdId.toNat, tableId := tableId.toNat, startId := startId.toNat, maxCount := maxCount.toNat } }
  | .cmdSwitch cmdId tableId on ids =>
    { opsel := 0x40#8, fields := { cmdId := cmdId.toNat, tableId := tableId.toNat, on := on }, input := ids }
  | .cmdMove cmdId tableId deviceId command =>
    { opsel := 0x41#8, fields := { cmdId := cmdId.toNat, tableId := tableId.toNat, deviceId := deviceId.toNat, command := command.toNat } }
  | .cmdGenie cmdId tableId deviceId on =>
    { opsel := 0x42#8, fields := { cmdId := cmdId.toNat, tableId := tableId.toNat, deviceId := deviceId.toNat, on := on } }
  | .cmdDim cmdId tableId deviceId mode brightness duration cycle1 cycle2 =>
    { opsel := 0x43#8, fields :=
      { cmdId := cmdId.toNat, tableId := tableId.toNat, deviceId := deviceId.toNat, mode := mode.toNat, brightness := brightness.toNat,
        duration := duration.toNat, cycle1 := cycle1.toNat, cycle2 := cycle2.toNat } }
  | .cmdRgb cmdId tableId deviceId mode r g b autoOff onInt offInt interval =>
    { opsel := 0x44#8, fields :=
      { cmdId := cmdId.toNat, tableId := tableId.toNat, deviceId := deviceId.toNat, mode := mode.toNat, r := r.toNat, g := g.toNat,
        b := b.toNat, autoOff := autoOff.toNat, onInt := onInt.toNat, offInt := offInt.toNat, interval := interval.toNat } }
  | .cmdHvac cmdId tableId deviceId command lowTrip highTrip =>
    { opsel := 0x45#8, fields :=
      { cmdId := cmdId.toNat, tableId := tableId.toNat, deviceId := deviceId.toNat, command := command.toNat, lowTrip := lowTrip.toNat,
        highTrip := highTrip.toNat } }
  | .csum8 input => { opsel := 0x80#8, input := input }
  | .cobsEnc pre cs payload => { opsel := 0x81#8, fields := { pre := some pre, cs := some cs }, input := payload }
  | .cobsDec cs stuffed => { opsel := 0x82#8, fields := { cs := some cs }, input := stuffed }
  | .teaEnc key block => { opsel := 0x90#8, fields := { key64 := key, block := block } }
  | .teaDec key block => { opsel := 0x91#8, fields := { key64 := key, block := block } }
  | .teaDecBuf key data => { opsel := 0x92#8, fields := { keyBytes := key }, input := data }
  | .stsRelay event => { opsel := 0xA0#8, input := event }
  | .stsDim event => { opsel := 0xA1#8, input := event }
  | .stsRgb event => { opsel := 0xA2#8, input := event }
  | .chkPush2 now fragment => { opsel := 0xB0#8, fields := { now := now }, input := fragment }
  | .chkEvict2 => { opsel := 0xB1#8 }
  | .chkPushK now fragment => { opsel := 0xB2#8, fields := { now := now }, input := fragment }
  | .chkEvictK key => { opsel := 0xB3#8, fields := { key8 := key } }
  | .chkSetTmo timeout => { opsel := 0xB4#8, fields := { timeout := timeout } }
  | .qrdDecode cs decrypt key fragments =>
    { opsel := 0xB5#8, fields := { cs := some cs, decrypt := decrypt, keyBytes := key }, inputList := fragments }
  | .chkReset => { opsel := 0xB6#8 }
  | .chkPeek keyed key => { opsel := 0xB7#8, fields := { keyed := keyed, key8 := key } }

/-- The request whose bits, as spec/opcode_table.json numbers them, are `w`: the table gives each row the
8 bits of OPSEL and nothing else, so OPSEL is bits 7:0 of the `nbits` bits, every operand field is 0 or
empty, and the optional fields are absent (assumption log 3). -/
def Request.ofWord (nbits w : Nat) : Request := { opsel := BitVec.ofNat 8 (w % 2 ^ nbits) }

/-- The instruction the decoder reads from a word of the opcode table. -/
def decodeTableWord (nbits w : Nat) : Option Instr :=
  match decode (Request.ofWord nbits w) with
  | .ok i => some i
  | .error _ => none

end Sys2Proof
end

