-- ==== Sys2Proof/Machine/State.lean ====
section
/-!
DEFINITION. The state of one instance (10_state.md): TIMEOUT_MS, FIX, KPEND and the result latches STATUS
and OUT; beside them, and not state of the block, its configuration (R29) and the list of what the host
will do next (R21, R261). Plain data.
-/

namespace Sys2Proof.Machine

/-! ### Structured results (R61) -/

/-- A relay record (R172). -/
structure RelayRecord where
  tableId : Byte
  deviceId : Byte
  raw : Bytes
  isOn : Bool
deriving DecidableEq, Repr

/-- A dimmable light record (R173). -/
structure DimRecord where
  tableId : Byte
  deviceId : Byte
  raw : Bytes
  isOn : Bool
  brightness : Byte
deriving DecidableEq, Repr

/-- The RGB effect labels (R77, R175). -/
inductive Effect where
  | off
  | solid
  | blink
  | jump3
  | jump7
  | fade3
  | fade7
  | rainbow
  | unknown
deriving DecidableEq, Repr

/-- An RGB light record (R174). -/
structure RgbRecord where
  tableId : Byte
  deviceId : Byte
  raw : Bytes
  mode : Byte
  red : Byte
  green : Byte
  blue : Byte
  autoOff : Byte
  interval : U16
  isOn : Bool
  effect : Effect
deriving DecidableEq, Repr

/-- The record of a completed query (R200): `frags` holds whole fragments, headers included. -/
structure CompletedRecord where
  key : Byte
  complete : Bool
  frags : List Bytes
  ts : Nat
deriving DecidableEq, Repr

/-- OUT (R26, R61): a byte string or a structured result. The empty OUT is the empty byte string
(assumption log 17). -/
inductive Out where
  /-- A byte string; `bytes []` is also the empty OUT. -/
  | bytes (s : Bytes)
  /-- CSUM8's byte, and the level of QRD.DECODE. -/
  | u8 (v : Byte)
  /-- The block of TEA.ENC and TEA.DEC. -/
  | u64 (v : U64)
  /-- The records of STS.RELAY. -/
  | relays (recs : List RelayRecord)
  /-- The records of STS.DIM. -/
  | dims (recs : List DimRecord)
  /-- The records of STS.RGB. -/
  | rgbs (recs : List RgbRecord)
  /-- The completed record of CHK.PUSHK. -/
  | completed (rec : CompletedRecord)
  /-- The answer of CHK.PEEK. -/
  | peek (present : Bool) (ts : Nat) (count : Nat)
deriving DecidableEq, Repr

/-! ### The state record -/

/-- FIX with FIX_VALID = 1 (R24): FIX_DATA and FIX_TS. -/
structure FixBuffer where
  data : Bytes
  ts : Nat
deriving DecidableEq, Repr

/-- An entry of KPEND (R25): FRAGS in arrival order and TS. -/
structure PendingEntry where
  frags : List Bytes
  ts : Nat
deriving DecidableEq, Repr

/-- KPEND (R25), a finite map from query id to entry: a list of pairs whose keys rise strictly, so that
equal maps are equal data (assumption log 18). -/
abbrev PendingMap := List (Byte × PendingEntry)

/-- One instance of the block. `cfg` is its configuration, which nothing writes (R29); `host` is what the
host will do next, oldest first (R21, R261): neither is state of the block (assumption log 2 and 4). -/
structure State where
  /-- The configuration of the instance (R9, R29). -/
  cfg : Config
  /-- The host's requests and resets that are still to come. -/
  host : List HostAction
  /-- TIMEOUT_MS (R23); `none` is "unspecified", which R31 asks to be an absent value. -/
  timeoutMs : Option Nat
  /-- FIX (R24): `none` is FIX_VALID = 0. -/
  fix : Option FixBuffer
  /-- KPEND (R25). -/
  kpend : PendingMap
  /-- STATUS of the last operation (R26). -/
  status : Byte
  /-- OUT of the last operation (R26). -/
  out : Out
deriving DecidableEq, Repr

/-- There are no faults: no request leaves the block stuck, hung or in an undefined condition, and a
failure is an ordinary STATUS (R220, R222; assumption log 19). The type has no constructor, so no one
raises a fault. -/
inductive Fault where
deriving DecidableEq, Repr

/-- Why the model would give an instruction no meaning. -/
inductive Refusal where
  /-- Raised by `exec` alone, for an instruction that has no meaning yet. Safe: nothing is claimed of it.
  No arm of `exec` raises it now. -/
  | notModelled (mnemonic : String)
deriving DecidableEq, Repr

/-- The state after reset (R31, R250), in the standard configuration: FIX_VALID = 0, KPEND empty,
TIMEOUT_MS = TIMEOUT_RESET, STATUS = OK, OUT empty; and a host that has issued nothing. -/
def State.reset : State where
  cfg := Config.standard
  host := []
  timeoutMs := Config.standard.timeoutReset
  fix := none
  kpend := []
  status := 0x00#8
  out := .bytes []

end Sys2Proof.Machine
end

