-- ==== Sys2Proof/Machine/Ops.lean ====
section
/-!
DEFINITION. The named operations over the state: the response latches, the one way an operation fails
(R14, R221), reset (R250), the capacity tests (R47), FIX (R24), the pending map KPEND (R25), and the
issuing of the host's next action (R21).
-/

namespace Sys2Proof.Machine

/-! ### Field updates -/

/-- Write TIMEOUT_MS (R23). -/
def State.setTimeout (s : State) (t : Option Nat) : State := { s with timeoutMs := t }

/-- Write FIX (R24). -/
def State.setFix (s : State) (f : Option FixBuffer) : State := { s with fix := f }

/-- Write KPEND (R25). -/
def State.setKpend (s : State) (m : PendingMap) : State := { s with kpend := m }

/-- The host's list after an action has been taken from it (R21). -/
def State.setHost (s : State) (h : List HostAction) : State := { s with host := h }

/-! ### The response (R26, R61) -/

/-- End an operation: overwrite both latches (R26). -/
def State.respond (s : State) (st : Status) (o : Out) : State := { s with status := st.code, out := o }

/-- The empty OUT. -/
def emptyOut : Out := .bytes []

/-- `fail E` (R14): STATUS = E, OUT empty, no other state changed (R221). This is the block's whole failure
mechanism: there is no trap entry and no trap return (R230, R231). -/
def State.fail (s : State) (e : Status) : State := s.respond e emptyOut

/-- `fail E with cause C` (R14): as `fail`, with OUT the one byte C. -/
def State.failWithCause (s : State) (e cause : Status) : State := s.respond e (.bytes [cause.code])

/-- End an operation that computes a byte string or fails. -/
def State.finish (s : State) (r : Except Status Bytes) : State :=
  match r with
  | .ok b => s.respond .ok (.bytes b)
  | .error e => s.fail e

/-- A request whose selector is unassigned fails with ERR_BAD_OP and changes no state (R63). -/
def State.rejectSelector (s : State) : State := s.fail .errBadOp

/-! ### Reset (R250, R251) -/

/-- The reset event, whatever caused it (R250): the state of R31. The configuration is not touched (R251),
nor is the host's list, which is not in the block (assumption log 21). -/
def State.hardReset (s : State) : State :=
  { s with timeoutMs := s.cfg.timeoutReset, fix := none, kpend := [], status := Status.ok.code, out := emptyOut }

/-! ### Capacity (R47) -/

/-- The limit is set and `n` exceeds it. -/
def overCap (limit : Option Nat) (n : Nat) : Bool :=
  match limit with
  | none => false
  | some c => decide (c < n)

/-- BUF_CAP binds the operations whose own pseudocode has no such test: CMD.SWITCH, CHK.PUSH2 and QRD.DECODE. R41 and R47
bind them like every other; R225 and R228 do not (assumption log 16). -/
def capBinds (c : Config) : Bool :=
  match c.capScope with
  | .everyOperation => true
  | .listedOperations => false
  | .free n => Config.freeCapBinds n

/-- IN of `n` bytes exceeds a BUF_CAP that binds the operation. -/
def overInputCap (c : Config) (n : Nat) : Bool := overCap c.bufCap n && capBinds c

/-- Where CMD.SWITCH, CHK.PUSH2 and QRD.DECODE end when none of their own tests holds: in `t`, or in ERR_CAPACITY if BUF_CAP
binds them and IN exceeds it. The test comes after their own, which keep the conditions and the order of R225 and R228
(assumption log 16). -/
def State.withinInputCap (s : State) (n : Nat) (t : State) : State :=
  if overInputCap s.cfg n then s.fail .errCapacity else t

/-- The limit is set and `n` has reached it: the test of KSLOTS (R199). -/
def atCap (limit : Option Nat) (n : Nat) : Bool :=
  match limit with
  | none => false
  | some c => decide (c ≤ n)

/-! ### The pending map (R25) -/

/-- The entry of a key, if it has one. -/
def kpendFind (m : PendingMap) (q : Byte) : Option PendingEntry :=
  match m with
  | [] => none
  | (k, e) :: rest => if k = q then some e else kpendFind rest q

/-- `KPEND[q] <- e`, the keys kept rising. -/
def kpendInsert (m : PendingMap) (q : Byte) (e : PendingEntry) : PendingMap :=
  match m with
  | [] => [(q, e)]
  | (k, old) :: rest =>
    if q = k then (q, e) :: rest
    else if q < k then (q, e) :: (k, old) :: rest
    else (k, old) :: kpendInsert rest q e

/-- `remove q from KPEND`; no effect if `q` is absent (R199, R201). -/
def kpendRemove (m : PendingMap) (q : Byte) : PendingMap := m.filter fun p => decide (p.1 ≠ q)

/-- The canonical form of KPEND: the keys rise strictly. -/
abbrev kpendWf (m : PendingMap) : Prop := (m.map fun p => p.1.toNat).Pairwise (· < ·)

/-! ### The host's next action (R21, R238, R261) -/

/-- The next thing the host does, and the state with it taken from the host's list. -/
def State.nextAction (s : State) : Option (HostAction × State) :=
  match s.host with
  | [] => none
  | a :: rest => some (a, s.setHost rest)

/-- The host issues this action before those already in its list. -/
def State.pushAction (s : State) (a : HostAction) : State := s.setHost (a :: s.host)

end Sys2Proof.Machine
end

