-- ==== Sys2Proof/Machine/Cipher.lean ====
section
/-!
DEFINITION. The TEA-family block cipher (41_block_cipher.md): TEA.ENC, TEA.DEC, TEA.DECBUF.
-/

namespace Sys2Proof.Machine

/-- TEA_ROUNDS, TEA_DELTA and TEA_C of the instance (R9, R120). -/
def teaLiterals (c : Config) : TeaLiterals :=
  match c.tea with
  | .given l => l
  | .free n =>
    { rounds := Config.freeTeaRoundsLessOne n + 1, delta := Config.freeTeaDelta n, c0 := Config.freeTeaConst n 0,
      c1 := Config.freeTeaConst n 1, c2 := Config.freeTeaConst n 2, c3 := Config.freeTeaConst n 3 }

/-- The four addends of the round function, `TEA_SUBKEY(key, 0..3)`. -/
structure Subkeys where
  a0 : U32
  a1 : U32
  a2 : U32
  a3 : U32
deriving DecidableEq, Repr

/-- TEA_SUBKEY (R121): by default `TEA_C[i]` plus the key's words KH, KL, KH, KL. -/
def teaSubkeys (c : Config) (key : U64) : Subkeys :=
  match c.subkey with
  | .additive =>
    let kh : U32 := key.extractLsb' 32 32
    let kl : U32 := key.extractLsb' 0 32
    let l := teaLiterals c
    { a0 := l.c0 + kh, a1 := l.c1 + kl, a2 := l.c2 + kh, a3 := l.c3 + kl }
  | .free n =>
    { a0 := Config.freeSubkey n key 0, a1 := Config.freeSubkey n key 1, a2 := Config.freeSubkey n key 2,
      a3 := Config.freeSubkey n key 3 }

/-- The mixing function F (R126; U4). -/
def teaMix (c : Config) (v acc a b : U32) : U32 :=
  match c.mix with
  | .classic => ((v <<< 4) + a) ^^^ (v + acc) ^^^ ((v >>> 5) + b)
  | .free n => Config.freeMix n v acc a b

/-- The two halves of a block: S is bits 63:32, Y is bits 31:0 (R120, R127). -/
structure Halves where
  s : U32
  y : U32
deriving DecidableEq, Repr

/-- The halves of a block (R122, R123). -/
def Halves.ofBlock (b : U64) : Halves := { s := b.extractLsb' 32 32, y := b.extractLsb' 0 32 }

/-- `(S << 32) | Y` (R122, R123). -/
def Halves.toBlock (h : Halves) : U64 := h.s ++ h.y

/-- The updates of one encrypt round, with the accumulator already advanced: S first, then Y from the new
S (R120 (v), R122). -/
def encRound (c : Config) (k : Subkeys) (acc : U32) (h : Halves) : Halves :=
  let s := h.s + teaMix c h.y acc k.a0 k.a1
  { s := s, y := h.y + teaMix c s acc k.a2 k.a3 }

/-- The updates of one decrypt round: Y first, then S from the new Y (R123). -/
def decRound (c : Config) (k : Subkeys) (acc : U32) (h : Halves) : Halves :=
  let y := h.y - teaMix c h.s acc k.a2 k.a3
  { s := h.s - teaMix c y acc k.a0 k.a1, y := y }

/-- The loop of R122: the accumulator is advanced before the updates of each round. -/
def encRounds (c : Config) (k : Subkeys) (delta : U32) (rounds : Nat) (acc : U32) (h : Halves) : Halves :=
  match rounds with
  | 0 => h
  | n + 1 => encRounds c k delta n (acc + delta) (encRound c k (acc + delta) h)

/-- The loop of R123: the accumulator is reduced after the updates of each round. -/
def decRounds (c : Config) (k : Subkeys) (delta : U32) (rounds : Nat) (acc : U32) (h : Halves) : Halves :=
  match rounds with
  | 0 => h
  | n + 1 => decRounds c k delta n (acc - delta) (decRound c k acc h)

/-- The result of TEA.ENC (R122). -/
def teaEncrypt (c : Config) (key block : U64) : U64 :=
  let l := teaLiterals c
  (encRounds c (teaSubkeys c key) l.delta l.rounds 0#32 (Halves.ofBlock block)).toBlock

/-- The result of TEA.DEC (R123): the accumulator starts at `TEA_DELTA * TEA_ROUNDS` modulo 2^32,
the value TEA.ENC ends with, so that each round undoes one of `teaEncrypt` with the same accumulator (R125). -/
def teaDecrypt (c : Config) (key block : U64) : U64 :=
  let l := teaLiterals c
  (decRounds c (teaSubkeys c key) l.delta l.rounds (BitVec.ofNat 32 (l.delta.toNat * l.rounds))
    (Halves.ofBlock block)).toBlock

/-- The loop of R124: every 8-byte block on its own, no chaining. -/
def decryptBlocks (c : Config) (key : U64) (data : Bytes) : Bytes :=
  match data with
  | b0 :: b1 :: b2 :: b3 :: b4 :: b5 :: b6 :: b7 :: rest =>
    u64ToBytes c.byteOrder (teaDecrypt c key (bytesToU64 c.byteOrder [b0, b1, b2, b3, b4, b5, b6, b7])) ++
      decryptBlocks c key rest
  | _ => []

/-- The answer of TEA.DECBUF (R124). -/
def decryptBuffer (c : Config) (key data : Bytes) : Except Status Bytes :=
  if overCap c.bufCap data.length then .error .errCapacity
  else if data.length % 8 ≠ 0 ∨ key.length ≠ 8 then .error .errCipherPrecond
  else .ok (decryptBlocks c (bytesToU64 c.byteOrder key) data)

/-! ### The operations -/

/-- TEA.ENC (R122). -/
def execTeaEnc (key block : U64) (s : State) : Host.Outcome State Fault Refusal :=
  .next (s.respond .ok (.u64 (teaEncrypt s.cfg key block)))

/-- TEA.DEC (R123). -/
def execTeaDec (key block : U64) (s : State) : Host.Outcome State Fault Refusal :=
  .next (s.respond .ok (.u64 (teaDecrypt s.cfg key block)))

/-- TEA.DECBUF (R124). -/
def execTeaDecBuf (key data : Bytes) (s : State) : Host.Outcome State Fault Refusal :=
  .next (s.finish (decryptBuffer s.cfg key data))

end Sys2Proof.Machine
end

