-- ==== Sys2Proof/Machine/Codec.lean ====
section
/-!
DEFINITION. Checksum8 and the byte-stuffing codec (40_checksum_cobs.md): CSUM8, COBS.ENC, COBS.DEC.
-/

namespace Sys2Proof.Machine

/-! ### Checksum8 (R101) -/

/-- The table-driven form of R101: state XOR byte indexes the table, the entry is the new state. -/
def tableChecksum (seed : Byte) (entries : Vector Byte 256) (s : Bytes) : Byte :=
  s.foldl (fun c b => entries[(c ^^^ b).toNat]'((c ^^^ b).isLt)) seed

/-- Checksum8 of the instance (R101). -/
def checksum8 (c : Config) (s : Bytes) : Byte :=
  match c.checksum with
  | .table seed entries => tableChecksum seed entries s
  | .free n => Config.freeChecksum n s

/-! ### Stuffing (R104) -/

/-- The number of leading non-zero bytes, up to `most`. -/
def literalRun (most : Nat) (buf : Bytes) : Nat :=
  match most, buf with
  | 0, _ => 0
  | _ + 1, [] => 0
  | m + 1, b :: rest => if b = 0x00#8 then 0 else literalRun m rest + 1

/-- The number of leading zero bytes, up to `most`. -/
def zeroRun (most : Nat) (buf : Bytes) : Nat :=
  match most, buf with
  | 0, _ => 0
  | _ + 1, [] => 0
  | m + 1, b :: rest => if b = 0x00#8 then zeroRun m rest + 1 else 0

/-- The code byte of `n` literals and `k` folded delimiters: `n + 64 * k` (R64). -/
def codeByte (n k : Nat) : Byte := BitVec.ofNat 8 (n + foldStep * k)

/-- The outer loop of R104, at most `fuel` groups. -/
def stuffGroups (fuel : Nat) (buf : Bytes) : Bytes :=
  match fuel, buf with
  | 0, _ => []
  | _ + 1, [] => []
  | fuel + 1, b :: rest =>
    let buf := b :: rest
    let n := literalRun maxRun buf
    let k := zeroRun maxFold (buf.drop n)
    codeByte n k :: buf.take n ++ stuffGroups fuel ((buf.drop n).drop k)

/-- `stuff` of R104. Each group consumes at least one byte, so there are at most `buf.length` groups. -/
def stuff (buf : Bytes) : Bytes := stuffGroups buf.length buf

/-- The buffer that is stuffed: the payload, and its checksum if enabled (R103 step 2). -/
def cobsBuffer (c : Config) (cs : Bool) (payload : Bytes) : Bytes :=
  if cs then payload ++ [checksum8 c payload] else payload

/-- The bytes COBS.ENC emits (R103). -/
def cobsFrame (c : Config) (pre cs : Bool) (payload : Bytes) : Bytes :=
  (if pre then [0x00#8] else []) ++ stuff (cobsBuffer c cs payload) ++ [0x00#8]

/-- The answer of COBS.ENC (R103). -/
def cobsEncode (c : Config) (pre cs : Bool) (payload : Bytes) : Except Status Bytes :=
  if overCap c.bufCap (payload.length + cs.toNat) then .error .errCapacity
  else .ok (cobsFrame c pre cs payload)

/-! ### Unstuffing (R107) -/

/-- Skip the leading delimiters, but never the last byte of the input (R107 (a)). -/
def skipDelimiters (input : Bytes) : Bytes :=
  match input with
  | [] => []
  | [b] => [b]
  | b :: b' :: rest => if b = 0x00#8 then skipDelimiters (b' :: rest) else b :: b' :: rest

/-- One byte of the walk that is no delimiter: the new `code` and `out` (R107). -/
def walkByte (code : Byte) (out : Bytes) (b : Byte) : Byte × Bytes :=
  let (code, out) := if code = 0x00#8 then (b, out) else (code - 1#8, out ++ [b])
  if code &&& 63#8 = 0x00#8 then (0x00#8, out ++ List.replicate (code >>> 6).toNat 0x00#8) else (code, out)

/-- The loop of R107 over the bytes after the leading delimiters. -/
def walk (cap : Option Nat) (code : Byte) (out : Bytes) (input : Bytes) : Except Status Bytes :=
  match input with
  | [] => .error .errUnterminated
  | b :: rest =>
    if b = 0x00#8 then
      if code = 0x00#8 then .ok out else .error .errTruncated
    else if overCap cap (walkByte code out b).2.length then .error .errCapacity
    else walk cap (walkByte code out b).1 (walkByte code out b).2 rest

/-- `unstuff` of R107. -/
def unstuff (cap : Option Nat) (input : Bytes) : Except Status Bytes :=
  walk cap 0x00#8 [] (skipDelimiters input)

/-- Steps 3 to 5 of COBS.DEC on the unstuffed bytes (R106): the minimum length, and the checksum. -/
def checkFrame (c : Config) (cs : Bool) (out : Bytes) : Except Status Bytes :=
  if cs then
    match out.getLast? with
    | none => .error .errShort
    | some received => if checksum8 c out.dropLast = received then .ok out.dropLast else .error .errChecksum
  else .ok out

/-- The answer of COBS.DEC (R106). -/
def cobsDecode (c : Config) (cs : Bool) (input : Bytes) : Except Status Bytes :=
  if overCap c.bufCap input.length then .error .errCapacity
  else
    match unstuff c.bufCap input with
    | .error e => .error e
    | .ok out => checkFrame c cs out

/-! ### The operations -/

/-- CSUM8 (R100). -/
def execCsum8 (input : Bytes) (s : State) : Host.Outcome State Fault Refusal :=
  if overCap s.cfg.bufCap input.length then .next (s.fail .errCapacity)
  else .next (s.respond .ok (.u8 (checksum8 s.cfg input)))

/-- COBS.ENC (R103). -/
def execCobsEnc (pre cs : Bool) (payload : Bytes) (s : State) : Host.Outcome State Fault Refusal :=
  .next (s.finish (cobsEncode s.cfg pre cs payload))

/-- COBS.DEC (R106). -/
def execCobsDec (cs : Bool) (stuffed : Bytes) (s : State) : Host.Outcome State Fault Refusal :=
  .next (s.finish (cobsDecode s.cfg cs stuffed))

end Sys2Proof.Machine
end

