-- ==== Sys2Proof/Machine/Command.lean ====
section
/-!
DEFINITION. The command encoder (42_command_encoder.md): CMD.GETDEV, CMD.GETMETA, CMD.SWITCH, CMD.MOVE,
CMD.GENIE, CMD.DIM, CMD.RGB, CMD.HVAC. OUT is the unstuffed command; no state but the latches is touched.
-/

namespace Sys2Proof.Machine

/-- `[cmdId[7:0], cmdId[15:8], opcode] ‖ payload` (R67, R140). -/
def commandBytes (cmdId : U16) (opcode : Byte) (payload : Bytes) : Bytes := le16 cmdId ++ [opcode] ++ payload

/-- The payload of CMD.DIM after tableId and deviceId (R73, R146). -/
def dimPayload (mode brightness duration : Byte) (cycle1 cycle2 : U16) : Bytes :=
  if mode = 0x00#8 ∨ mode = 0x7F#8 then [mode]
  else if mode = 0x02#8 ∨ mode = 0x03#8 then
    let cycles := if cycle1 = 0#16 ∨ cycle2 = 0#16 then (dimCycleDefault, dimCycleDefault) else (cycle1, cycle2)
    [mode, brightness, duration] ++ be16 cycles.1 ++ be16 cycles.2
  else [mode, brightness, duration]

/-- The payload of CMD.RGB after tableId and deviceId, for the modes that have one (R74, R147). -/
def rgbPayload (mode r g b autoOff onInt offInt : Byte) (interval : U16) : Option Bytes :=
  if mode = 0x00#8 ∨ mode = 0x7F#8 then some [mode]
  else if mode = 0x01#8 then some [mode, r, g, b, autoOff]
  else if mode = 0x02#8 then some [mode, r, g, b, autoOff, onInt, offInt]
  else if 0x04#8 ≤ mode ∧ mode ≤ 0x08#8 then some ([mode, autoOff] ++ be16 interval)
  else none

/-- CMD.GETDEV (R69, R141). -/
def execCmdGetDev (cmdId : U16) (tableId startId maxCount : Byte) (s : State) : Host.Outcome State Fault Refusal :=
  .next (s.respond .ok (.bytes (commandBytes cmdId 0x01#8 [tableId, startId, maxCount])))

/-- CMD.GETMETA (R69, R142). -/
def execCmdGetMeta (cmdId : U16) (tableId startId maxCount : Byte) (s : State) : Host.Outcome State Fault Refusal :=
  .next (s.respond .ok (.bytes (commandBytes cmdId 0x02#8 [tableId, startId, maxCount])))

/-- CMD.SWITCH (R70, R143): 1 to 255 device ids, else ERR_PRECONDITION; then BUF_CAP, where it binds (R47, log 16). -/
def execCmdSwitch (cmdId : U16) (tableId : Byte) (on : Bool) (ids : Bytes) (s : State) :
    Host.Outcome State Fault Refusal :=
  if ids.length = 0 ∨ 255 < ids.length then .next (s.fail .errPrecondition)
  else .next (s.withinInputCap ids.length
    (s.respond .ok (.bytes (commandBytes cmdId 0x40#8 ([tableId, boolByte on] ++ ids)))))

/-- CMD.MOVE (R71, R144). -/
def execCmdMove (cmdId : U16) (tableId deviceId command : Byte) (s : State) : Host.Outcome State Fault Refusal :=
  .next (s.respond .ok (.bytes (commandBytes cmdId 0x41#8 [tableId, deviceId, command])))

/-- CMD.GENIE (R72, R145). -/
def execCmdGenie (cmdId : U16) (tableId deviceId : Byte) (on : Bool) (s : State) : Host.Outcome State Fault Refusal :=
  .next (s.respond .ok (.bytes (commandBytes cmdId 0x42#8 [tableId, deviceId, boolByte on])))

/-- CMD.DIM (R73, R146). -/
def execCmdDim (cmdId : U16) (tableId deviceId mode brightness duration : Byte) (cycle1 cycle2 : U16) (s : State) :
    Host.Outcome State Fault Refusal :=
  .next (s.respond .ok (.bytes (commandBytes cmdId 0x43#8
    ([tableId, deviceId] ++ dimPayload mode brightness duration cycle1 cycle2))))

/-- CMD.RGB (R74, R147): a mode without a payload is refused with ERR_PRECONDITION. -/
def execCmdRgb (cmdId : U16) (tableId deviceId mode r g b autoOff onInt offInt : Byte) (interval : U16) (s : State) :
    Host.Outcome State Fault Refusal :=
  match rgbPayload mode r g b autoOff onInt offInt interval with
  | some p => .next (s.respond .ok (.bytes (commandBytes cmdId 0x44#8 ([tableId, deviceId] ++ p))))
  | none => .next (s.fail .errPrecondition)

/-- CMD.HVAC (R75, R148). -/
def execCmdHvac (cmdId : U16) (tableId deviceId command lowTrip highTrip : Byte) (s : State) :
    Host.Outcome State Fault Refusal :=
  .next (s.respond .ok (.bytes (commandBytes cmdId 0x45#8 [tableId, deviceId, command, lowTrip, highTrip])))

end Sys2Proof.Machine
end

