-- ==== Sys2Proof/Machine/Reassembly.lean ====
section
/-!
DEFINITION. Chunk reassembly, its timeout, and the query-response decode (44_chunk_reassembly.md):
CHK.PUSH2, CHK.EVICT2, CHK.PUSHK, CHK.EVICTK, CHK.SETTMO, QRD.DECODE, CHK.RESET, CHK.PEEK.
-/

namespace Sys2Proof.Machine

/-! ### Fixed two-part mode -/

/-- CHK.SETTMO (R191). -/
def execChkSetTmo (timeout : Nat) (s : State) : Host.Outcome State Fault Refusal :=
  .next ((s.setTimeout (some (timeOperand s.cfg timeout))).respond .ok emptyOut)

/-- CHK.PUSH2 (R192 to R195): the length test first; then the first fragment is stored; then the timeout
must have been written; then a stored fragment older than it is replaced; else the frame is emitted. BUF_CAP, where it
binds (R47, log 16), is tested after the length and TIMEOUT_MS. -/
def execChkPush2 (now : Nat) (fragment : Bytes) (s : State) : Host.Outcome State Fault Refusal :=
  let now := timeOperand s.cfg now
  if fragment.length ≠ chunkSize then .next (s.fail .errLength)
  else
    match s.fix with
    | none => .next (s.withinInputCap fragment.length
        ((s.setFix (some { data := fragment, ts := now })).respond .okPending emptyOut))
    | some held =>
      match s.timeoutMs with
      | none => .next (s.fail .errUnconfigured)
      | some limit =>
        if limit < age s.cfg now held.ts then
          .next (s.withinInputCap fragment.length
            ((s.setFix (some { data := fragment, ts := now })).respond .okResync emptyOut))
        else .next (s.withinInputCap fragment.length
          ((s.setFix none).respond .ok (.bytes (held.data ++ fragment))))

/-- CHK.EVICT2 (R196). -/
def execChkEvict2 (s : State) : Host.Outcome State Fault Refusal :=
  .next ((s.setFix none).respond .ok emptyOut)

/-! ### Keyed multi-part mode -/

/-- The entry of a fragment's query once the fragment is appended: FRAGS in arrival order, and the TS of
the first one (R199). -/
def appendFragment (old : Option PendingEntry) (now : Nat) (fragment : Bytes) : PendingEntry :=
  match old with
  | some e => { frags := e.frags ++ [fragment], ts := e.ts }
  | none => { frags := [fragment], ts := now }

/-- CHK.PUSHK (R199, R200). -/
def execChkPushK (now : Nat) (fragment : Bytes) (s : State) : Host.Outcome State Fault Refusal :=
  if overCap s.cfg.bufCap fragment.length then .next (s.fail .errCapacity)
  else if kdet s.cfg fragment = false then .next (s.fail .errNotRecognised)
  else
    let q := fragQid s.cfg fragment
    let old := kpendFind s.kpend q
    let e := appendFragment old (timeOperand s.cfg now) fragment
    if overCap s.cfg.kfrags e.frags.length then .next (s.fail .errCapacity)
    else if fragType s.cfg fragment = finalMark then
      .next ((s.setKpend (kpendRemove s.kpend q)).respond .ok
        (.completed { key := q, complete := true, frags := e.frags, ts := e.ts }))
    else if old = none ∧ atCap s.cfg.kslots s.kpend.length = true then .next (s.fail .errCapacity)
    else .next ((s.setKpend (kpendInsert s.kpend q e)).respond .okPending emptyOut)

/-- CHK.EVICTK (R201). -/
def execChkEvictK (key : Byte) (s : State) : Host.Outcome State Fault Refusal :=
  .next ((s.setKpend (kpendRemove s.kpend key)).respond .ok emptyOut)

/-! ### Both modes -/

/-- CHK.RESET (R203): TIMEOUT_MS is kept. -/
def execChkReset (s : State) : Host.Outcome State Fault Refusal :=
  .next (((s.setFix none).setKpend []).respond .ok emptyOut)

/-- What CHK.PEEK reports (R202). -/
def peekOut (s : State) (keyed : Bool) (key : Byte) : Out :=
  if keyed then
    match kpendFind s.kpend key with
    | some e => .peek true e.ts e.frags.length
    | none => .peek false 0 0
  else
    match s.fix with
    | some held => .peek true held.ts 1
    | none => .peek false 0 0

/-- CHK.PEEK (R202). -/
def execChkPeek (keyed : Bool) (key : Byte) (s : State) : Host.Outcome State Fault Refusal :=
  .next (s.respond .ok (peekOut s keyed key))

/-! ### Query-response decode -/

/-- The payloads of whole fragments in order, headers stripped; `none` if one is shorter than its header
(R204). -/
def joinPayloads (c : Config) (fragments : List Bytes) : Option Bytes :=
  match fragments with
  | [] => some []
  | f :: rest =>
    if f.length < c.khdrLen then none
    else
      match joinPayloads c rest with
      | some body => some (fragPayload c f ++ body)
      | none => none

/-- The frame QRD.DECODE reads, or the cause of its failure (R204): the headers, then COBS.DEC, then
TEA.DECBUF if asked for. -/
def queryFrame (c : Config) (cs decrypt : Bool) (key : Bytes) (fragments : List Bytes) : Except Status Bytes :=
  match joinPayloads c fragments with
  | none => .error .errNotRecognised
  | some body =>
    match cobsDecode c cs body with
    | .error e => .error e
    | .ok frame => if decrypt then decryptBuffer c key frame else .ok frame

/-- The level of R204: `min(frame[0], LEVEL_MAX)`. -/
def clampLevel (b : Byte) : Byte := BitVec.ofNat 8 (min b.toNat levelMax)

/-- QRD.DECODE (R204). BUF_CAP bounds its joined payloads in the COBS stage; where it binds the operation itself (R47, log
16), it bounds all the bytes of the list too, headers included, and is tested after the stages. -/
def execQrdDecode (cs decrypt : Bool) (key : Bytes) (fragments : List Bytes) (s : State) :
    Host.Outcome State Fault Refusal :=
  match queryFrame s.cfg cs decrypt key fragments with
  | .error cause => .next (s.failWithCause .errNoReading cause)
  | .ok [] => .next (s.failWithCause .errNoReading .errShort)
  | .ok (b :: _) => .next (s.withinInputCap fragments.flatten.length (s.respond .ok (.u8 (clampLevel b))))

end Sys2Proof.Machine
end

