-- ==== Sys2Proof/Machine/StatusDecoder.lean ====
section
/-!
DEFINITION. The status decoder (43_status_decoder.md): STS.RELAY, STS.DIM, STS.RGB. IN is an unstuffed
event buffer.
-/

namespace Sys2Proof.Machine

/-- The loop of R170 from index 2: at most `fuel` records of 1 + N bytes, then stop. -/
def walkRecords {α : Type} (n : Nat) (mk : Byte → Bytes → α) (fuel : Nat) (rest : Bytes) : List α :=
  match fuel, rest with
  | 0, _ => []
  | _ + 1, [] => []
  | fuel + 1, deviceId :: rest =>
    if n ≤ rest.length then mk deviceId (rest.take n) :: walkRecords n mk fuel (rest.drop n) else []

/-- `walk(N, IN, mk)` of R170: byte 0 is not looked at (R171), byte 1 is the table id. -/
def walkEvent {α : Type} (n : Nat) (mk : Byte → Byte → Bytes → α) (event : Bytes) : List α :=
  match event with
  | _ :: tableId :: rest => walkRecords n (mk tableId) rest.length rest
  | _ => []

/-- `mkRelay` (R172): on/off is bit 0 of the status byte. -/
def mkRelay (tableId deviceId : Byte) (raw : Bytes) : RelayRecord :=
  { tableId := tableId, deviceId := deviceId, raw := raw, isOn := (raw.getD 0 0#8).getLsbD 0 }

/-- `mkDim` (R173). -/
def mkDim (tableId deviceId : Byte) (raw : Bytes) : DimRecord :=
  { tableId := tableId, deviceId := deviceId, raw := raw, isOn := decide (0#8 < raw.getD 0 0#8),
    brightness := raw.getD 3 0#8 }

/-- `label` (R77, R175). -/
def effectLabel (mode : Byte) : Effect :=
  match mode.toNat with
  | 0 => .off
  | 1 => .solid
  | 2 => .blink
  | 4 => .jump3
  | 5 => .jump7
  | 6 => .fade3
  | 7 => .fade7
  | 8 => .rainbow
  | _ => .unknown

/-- `mkRgb` (R174): the interval is big-endian at bytes 5 and 6. -/
def mkRgb (tableId deviceId : Byte) (raw : Bytes) : RgbRecord :=
  { tableId := tableId, deviceId := deviceId, raw := raw, mode := raw.getD 0 0#8, red := raw.getD 1 0#8,
    green := raw.getD 2 0#8, blue := raw.getD 3 0#8, autoOff := raw.getD 4 0#8,
    interval := be16dec (raw.getD 5 0#8) (raw.getD 6 0#8), isOn := decide (0#8 < raw.getD 0 0#8),
    effect := effectLabel (raw.getD 0 0#8) }

/-- STS.RELAY (R172), N = 1. -/
def execStsRelay (event : Bytes) (s : State) : Host.Outcome State Fault Refusal :=
  if overCap s.cfg.bufCap event.length then .next (s.fail .errCapacity)
  else .next (s.respond .ok (.relays (walkEvent 1 mkRelay event)))

/-- STS.DIM (R173), N = 8. -/
def execStsDim (event : Bytes) (s : State) : Host.Outcome State Fault Refusal :=
  if overCap s.cfg.bufCap event.length then .next (s.fail .errCapacity)
  else .next (s.respond .ok (.dims (walkEvent 8 mkDim event)))

/-- STS.RGB (R174), N = 8. -/
def execStsRgb (event : Bytes) (s : State) : Host.Outcome State Fault Refusal :=
  if overCap s.cfg.bufCap event.length then .next (s.fail .errCapacity)
  else .next (s.respond .ok (.rgbs (walkEvent 8 mkRgb event)))

end Sys2Proof.Machine
end

