-- ==== Sys2Proof/Machine/Dispatch.lean ====
section
/-!
DEFINITION. One arm for each operation of R62, each a direct call of its meaning.
-/

namespace Sys2Proof.Machine

def exec (i : Instr) (s : State) : Host.Outcome State Fault Refusal :=
  match i with
  -- the command encoder
  | .cmdGetDev cmdId tableId startId maxCount => Sys2Proof.Machine.execCmdGetDev cmdId tableId startId maxCount s
  | .cmdGetMeta cmdId tableId startId maxCount => Sys2Proof.Machine.execCmdGetMeta cmdId tableId startId maxCount s
  | .cmdSwitch cmdId tableId on ids => Sys2Proof.Machine.execCmdSwitch cmdId tableId on ids s
  | .cmdMove cmdId tableId deviceId command => Sys2Proof.Machine.execCmdMove cmdId tableId deviceId command s
  | .cmdGenie cmdId tableId deviceId on => Sys2Proof.Machine.execCmdGenie cmdId tableId deviceId on s
  | .cmdDim cmdId tableId deviceId mode brightness duration cycle1 cycle2 => Sys2Proof.Machine.execCmdDim cmdId tableId deviceId mode brightness duration cycle1 cycle2 s
  | .cmdRgb cmdId tableId deviceId mode r g b autoOff onInt offInt interval => Sys2Proof.Machine.execCmdRgb cmdId tableId deviceId mode r g b autoOff onInt offInt interval s
  | .cmdHvac cmdId tableId deviceId command lowTrip highTrip => Sys2Proof.Machine.execCmdHvac cmdId tableId deviceId command lowTrip highTrip s
  -- checksum and stuffing
  | .csum8 input => Sys2Proof.Machine.execCsum8 input s
  | .cobsEnc pre cs payload => Sys2Proof.Machine.execCobsEnc pre cs payload s
  | .cobsDec cs stuffed => Sys2Proof.Machine.execCobsDec cs stuffed s
  -- the block cipher
  | .teaEnc key block => Sys2Proof.Machine.execTeaEnc key block s
  | .teaDec key block => Sys2Proof.Machine.execTeaDec key block s
  | .teaDecBuf key data => Sys2Proof.Machine.execTeaDecBuf key data s
  -- the status decoder
  | .stsRelay event => Sys2Proof.Machine.execStsRelay event s
  | .stsDim event => Sys2Proof.Machine.execStsDim event s
  | .stsRgb event => Sys2Proof.Machine.execStsRgb event s
  -- chunk reassembly and query-response decode
  | .chkPush2 now fragment => Sys2Proof.Machine.execChkPush2 now fragment s
  | .chkEvict2 => Sys2Proof.Machine.execChkEvict2 s
  | .chkPushK now fragment => Sys2Proof.Machine.execChkPushK now fragment s
  | .chkEvictK key => Sys2Proof.Machine.execChkEvictK key s
  | .chkSetTmo timeout => Sys2Proof.Machine.execChkSetTmo timeout s
  | .qrdDecode cs decrypt key fragments => Sys2Proof.Machine.execQrdDecode cs decrypt key fragments s
  | .chkReset => Sys2Proof.Machine.execChkReset s
  | .chkPeek keyed key => Sys2Proof.Machine.execChkPeek keyed key s

end Sys2Proof.Machine
end

