-- ==== Sys2Proof/Machine/Step.lean ====
section
/-!
DEFINITION. One step of the machine: one action of the host (R7, R21, R261). The block has no program
counter and fetches nothing; the order of operations is the host's (R21).
-/

namespace Sys2Proof.Machine

/-- One step. A request is decoded and its operation executed; an unassigned selector is ERR_BAD_OP (R63);
a reset resets (R250). With nothing to do the block is idle and holds its state (R238). -/
def step (s : State) : Host.Outcome State Fault Refusal :=
  match s.nextAction with
  | none => .next s
  | some (.hardReset, s') => .next s'.hardReset
  | some (.issue q, s') =>
    match decode q with
    | .ok i => exec i s'
    | .error _ => .next s'.rejectSelector

/-- `s` with the request whose opcode-table bits are `w` as the host's very next action (assumption log 3). -/
def State.withFetchWord (s : State) (nbits w : Nat) : State := s.pushAction (.issue (Request.ofWord nbits w))

end Sys2Proof.Machine
end

