-- ==== Sys2Proof/Safety.lean ====
section
/-!
DEFINITION. What a good state and a good run are, and the words the statements use: the invariant of R30
with the widths of R23 to R25, the clean end of R262, the stateless operations of R45, the STATUS codes each
operation may return (R225, R226), and the groups of a stuffed stream (R64, R65).
-/

namespace Sys2Proof.Machine

/-- `n` exceeds no set limit (R47). -/
def fits (limit : Option Nat) (n : Nat) : Prop := ∀ c, limit = some c → n ≤ c

/-- The invariant every operation keeps: R30 (i) to (iv); the widths of TIMEOUT_MS, FIX_TS and TS (R23 to
R25); KPEND in its canonical form; STATUS a code of R80; the configuration as R9 asks. -/
structure State.Inv (s : State) : Prop where
  /-- R9. -/
  cfg_wf : s.cfg.wf = true
  /-- R23: TIMEOUT_MS has TS_W bits. -/
  timeout_width : ∀ t, s.timeoutMs = some t → t < 2 ^ s.cfg.tsW
  /-- R30 (i). -/
  fix_length : ∀ h, s.fix = some h → h.data.length = chunkSize
  /-- R24: FIX_TS has TS_W bits. -/
  fix_width : ∀ h, s.fix = some h → h.ts < 2 ^ s.cfg.tsW
  /-- R25: KPEND is a map, held with rising keys. -/
  kpend_wf : kpendWf s.kpend
  /-- R25: TS has TS_W bits. -/
  entry_width : ∀ p ∈ s.kpend, p.2.ts < 2 ^ s.cfg.tsW
  /-- R30 (ii): every entry has a fragment. -/
  entry_nonempty : ∀ p ∈ s.kpend, p.2.frags ≠ []
  /-- R30 (ii): every stored fragment satisfied KDET, so it has its header. -/
  entry_detected : ∀ p ∈ s.kpend, ∀ f ∈ p.2.frags, kdet s.cfg f = true ∧ s.cfg.khdrLen ≤ f.length
  /-- R30 (ii): every stored fragment carries the entry's key. -/
  entry_key : ∀ p ∈ s.kpend, ∀ f ∈ p.2.frags, fragQid s.cfg f = p.1
  /-- R30 (iii): no stored fragment is final. -/
  entry_not_final : ∀ p ∈ s.kpend, ∀ f ∈ p.2.frags, fragType s.cfg f ≠ finalMark
  /-- R30 (iv): KSLOTS. -/
  slots : fits s.cfg.kslots s.kpend.length
  /-- R30 (iv): KFRAGS. -/
  frags : ∀ p ∈ s.kpend, fits s.cfg.kfrags p.2.frags.length
  /-- R80. -/
  status_code : ∃ st : Status, s.status = st.code

/-- A clean end of a session (R262): nothing is pending. -/
def State.clean (s : State) : Prop := s.fix = none ∧ s.kpend = []

/-- The operations that are pure functions of their operands and IN (R45): all but CHK.PUSH2, CHK.PUSHK,
CHK.EVICT2, CHK.EVICTK, CHK.SETTMO, CHK.RESET, which change state, and CHK.PEEK, which reads it. -/
def pureOperation : Instr → Bool
  | .cmdGetDev _ _ _ _ => true
  | .cmdGetMeta _ _ _ _ => true
  | .cmdSwitch _ _ _ _ => true
  | .cmdMove _ _ _ _ => true
  | .cmdGenie _ _ _ _ => true
  | .cmdDim _ _ _ _ _ _ _ _ => true
  | .cmdRgb _ _ _ _ _ _ _ _ _ _ _ => true
  | .cmdHvac _ _ _ _ _ _ => true
  | .csum8 _ => true
  | .cobsEnc _ _ _ => true
  | .cobsDec _ _ => true
  | .teaEnc _ _ => true
  | .teaDec _ _ => true
  | .teaDecBuf _ _ => true
  | .stsRelay _ => true
  | .stsDim _ => true
  | .stsRgb _ => true
  | .chkPush2 _ _ => false
  | .chkEvict2 => false
  | .chkPushK _ _ => false
  | .chkEvictK _ => false
  | .chkSetTmo _ => false
  | .qrdDecode _ _ _ _ => true
  | .chkReset => false
  | .chkPeek _ _ => false

/-- ERR_CAPACITY, where BUF_CAP binds every operation (R47; assumption log 16). -/
def capStatus (c : Config) : List Byte := if capBinds c then [0x87] else []

/-- The STATUS codes an operation may return, from the table of R225 and from R226; CMD.SWITCH, CHK.PUSH2 and
QRD.DECODE may also return ERR_CAPACITY where R47 is taken of every operation. -/
def possibleStatus (c : Config) : Instr → List Byte
  | .cmdGetDev _ _ _ _ => [0x00]
  | .cmdGetMeta _ _ _ _ => [0x00]
  | .cmdSwitch _ _ _ _ => [0x00, 0x85] ++ capStatus c
  | .cmdMove _ _ _ _ => [0x00]
  | .cmdGenie _ _ _ _ => [0x00]
  | .cmdDim _ _ _ _ _ _ _ _ => [0x00]
  | .cmdRgb _ _ _ _ _ _ _ _ _ _ _ => [0x00, 0x85]
  | .cmdHvac _ _ _ _ _ _ => [0x00]
  | .csum8 _ => [0x00, 0x87]
  | .cobsEnc _ _ _ => [0x00, 0x87]
  | .cobsDec _ _ => [0x00, 0x81, 0x82, 0x83, 0x84, 0x87]
  | .teaEnc _ _ => [0x00]
  | .teaDec _ _ => [0x00]
  | .teaDecBuf _ _ => [0x00, 0x87, 0x89]
  | .stsRelay _ => [0x00, 0x87]
  | .stsDim _ => [0x00, 0x87]
  | .stsRgb _ => [0x00, 0x87]
  | .chkPush2 _ _ => [0x00, 0x01, 0x02, 0x80, 0x8A] ++ capStatus c
  | .chkEvict2 => [0x00]
  | .chkPushK _ _ => [0x00, 0x01, 0x86, 0x87]
  | .chkEvictK _ => [0x00]
  | .chkSetTmo _ => [0x00]
  | .qrdDecode _ _ _ _ => [0x00, 0x88] ++ capStatus c
  | .chkReset => [0x00]
  | .chkPeek _ _ => [0x00]

/-- A sequence of operations, each on the state the one before it left (R21, R49). -/
def execAll (is : List Instr) (s : State) : Host.Outcome State Fault Refusal :=
  match is with
  | [] => .next s
  | i :: rest =>
    match exec i s with
    | .next t => execAll rest t
    | .fault e => .fault e
    | .refused e => .refused e

/-! ### Groups of a stuffed stream (R64, R65) -/

/-- A group (R65): its literal bytes and the number of delimiters folded into its code byte. -/
structure CobsGroup where
  lits : Bytes
  zeros : Nat
deriving DecidableEq, Repr

/-- N is 0 to 63, Z is 0 to 3, (0, 0) is excluded, and each literal is non-zero (R64, R65). -/
def CobsGroup.legal (g : CobsGroup) : Prop :=
  g.lits.length ≤ 63 ∧ g.zeros ≤ 3 ∧ (g.lits ≠ [] ∨ g.zeros ≠ 0) ∧ ∀ b ∈ g.lits, b ≠ 0x00#8

/-- The group as it stands in the stream: the code byte `N + 64 * Z`, then the literals (R64, R65). -/
def CobsGroup.stuffed (g : CobsGroup) : Bytes := BitVec.ofNat 8 (g.lits.length + 64 * g.zeros) :: g.lits

/-- The unstuffed bytes the group stands for (R65). -/
def CobsGroup.plain (g : CobsGroup) : Bytes := g.lits ++ List.replicate g.zeros 0x00#8

/-- The groups of a stream, one after another (R66). -/
def streamOf (gs : List CobsGroup) : Bytes := gs.flatMap CobsGroup.stuffed

/-- The unstuffed bytes the groups together stand for (R66). -/
def plainOf (gs : List CobsGroup) : Bytes := gs.flatMap CobsGroup.plain

/-- The grouping R104 makes: a group that is followed by another has 63 literals or folds a delimiter, and
one that folds fewer than 3 is followed by a group with a literal. -/
def greedy (gs : List CobsGroup) : Prop :=
  ∀ front g h back, gs = front ++ g :: h :: back →
    (g.lits.length = 63 ∨ g.zeros ≠ 0) ∧ (g.zeros = 3 ∨ h.lits ≠ [])

end Sys2Proof.Machine
end

