-- ==== Sys2Proof/Certificates/Slice0/Obligations.lean ====
section
/-!
DEFINITION. The statements about the block, from the numbered rules of spec/. A conclusion of the form
`exec i s = .next { s with … }` says that the operation completes, what it answers, and its frame: every
field that is not named keeps its value. Every statement holds for every configuration of the instance that
meets its hypotheses, since the configuration is a part of `s`.
-/

open Sys2Proof Sys2Proof.Machine

/-! ### Requests, steps and reset -/

/-- R62: the selector words of all 25 operations, written out bit by bit, decode to their operations; V-OP: six
unassigned ones decode to none. The operand fields of a bare word are 0 and its optional fields absent: the model's
choice, log 3. -/
def Obligations.SelectorWordsDecode : Prop :=
  decodeTableWord 8 0b00000001 = some (.cmdGetDev 0 0 0 0) ∧
  decodeTableWord 8 0b00000010 = some (.cmdGetMeta 0 0 0 0) ∧
  decodeTableWord 8 0b01000000 = some (.cmdSwitch 0 0 false []) ∧
  decodeTableWord 8 0b01000001 = some (.cmdMove 0 0 0 0) ∧
  decodeTableWord 8 0b01000010 = some (.cmdGenie 0 0 0 false) ∧
  decodeTableWord 8 0b01000011 = some (.cmdDim 0 0 0 0 0 0 0 0) ∧
  decodeTableWord 8 0b01000100 = some (.cmdRgb 0 0 0 0 0 0 0 0 0 0 0) ∧
  decodeTableWord 8 0b01000101 = some (.cmdHvac 0 0 0 0 0 0) ∧
  decodeTableWord 8 0b10000000 = some (.csum8 []) ∧
  decodeTableWord 8 0b10000001 = some (.cobsEnc true true []) ∧
  decodeTableWord 8 0b10000010 = some (.cobsDec true []) ∧
  decodeTableWord 8 0b10010000 = some (.teaEnc 0 0) ∧
  decodeTableWord 8 0b10010001 = some (.teaDec 0 0) ∧
  decodeTableWord 8 0b10010010 = some (.teaDecBuf [] []) ∧
  decodeTableWord 8 0b10100000 = some (.stsRelay []) ∧
  decodeTableWord 8 0b10100001 = some (.stsDim []) ∧
  decodeTableWord 8 0b10100010 = some (.stsRgb []) ∧
  decodeTableWord 8 0b10110000 = some (.chkPush2 0 []) ∧
  decodeTableWord 8 0b10110001 = some .chkEvict2 ∧
  decodeTableWord 8 0b10110010 = some (.chkPushK 0 []) ∧
  decodeTableWord 8 0b10110011 = some (.chkEvictK 0) ∧
  decodeTableWord 8 0b10110100 = some (.chkSetTmo 0) ∧
  decodeTableWord 8 0b10110101 = some (.qrdDecode true false [] []) ∧
  decodeTableWord 8 0b10110110 = some .chkReset ∧
  decodeTableWord 8 0b10110111 = some (.chkPeek false 0) ∧
  ∀ w ∈ [0b00000000, 0b00000011, 0b01000110, 0b10000011, 0b10111000, 0b11111111], decodeTableWord 8 w = none

/-- R60, R62: decoding the request that issues an operation gives the operation back, with every operand at
every value. -/
def Obligations.DecodeOfEncodeIsIdentity : Prop :=
  ∀ i : Instr, decode (encode i) = .ok i

/-- R63: the decoder is total: every selector of R62 selects its row, and an unassigned one selects no operation; the
step that meets it answers ERR_BAD_OP with OUT empty and changes nothing else, whatever the fields and IN are. -/
def Obligations.UnassignedSelectorIsBadOp : Prop :=
  let assigned : List Byte := [0x01, 0x02, 0x40, 0x41, 0x42, 0x43, 0x44, 0x45, 0x80, 0x81, 0x82, 0x90, 0x91, 0x92, 0xA0,
    0xA1, 0xA2, 0xB0, 0xB1, 0xB2, 0xB3, 0xB4, 0xB5, 0xB6, 0xB7]
  (∀ q : Request, q.opsel ∈ assigned → ∃ i : Instr, decode q = .ok i ∧ (encode i).opsel = q.opsel) ∧
  ∀ (s : State) (q : Request) (rest : List HostAction), s.host = .issue q :: rest → q.opsel ∉ assigned →
    decode q = .error (.badOp q.opsel) ∧
    step s = .next { s with host := rest, status := 0xFF#8, out := .bytes [] }

/-- R62: an absent `pre` or `cs` is 1, each on its own: a request means what it means with each absent one of the
two at 1, whatever the rest of the request is. -/
def Obligations.AbsentOptionalFieldsAreOne : Prop :=
  ∀ (s : State) (q : Request) (rest : List HostAction), s.host = .issue q :: rest →
    let present (o : Option Bool) : Option Bool := match o with
      | some b => some b
      | none => some true
    step s = step { s with
      host := .issue { q with fields := { q.fields with pre := present q.fields.pre, cs := present q.fields.cs } } :: rest }

/-- R81: the encoder clamps rather than rejects: each byte field of each of the eight commands is emitted as
`max 0 (min v 255)` and each 16-bit field as `max 0 (min v 65535)`, whatever integer the request carries. That a request
carries integers, clamped where it is decoded, is the model's form of R81: log 15. CMD.MOVE is shown as the step emits
it. -/
def Obligations.WideCommandFieldsAreClamped : Prop :=
  (∀ v : Int, ((clampByte v).toNat : Int) = max 0 (min v 255)) ∧
  (∀ v : Int, ((clampU16 v).toNat : Int) = max 0 (min v 65535)) ∧
  (∀ q : Request,
    let b (v : Int) : Byte := BitVec.ofInt 8 (max 0 (min v 255))
    let h (v : Int) : U16 := BitVec.ofInt 16 (max 0 (min v 65535))
    let f := q.fields
    (q.opsel = 0x01#8 → decode q = .ok (.cmdGetDev (h f.cmdId) (b f.tableId) (b f.startId) (b f.maxCount))) ∧
    (q.opsel = 0x02#8 → decode q = .ok (.cmdGetMeta (h f.cmdId) (b f.tableId) (b f.startId) (b f.maxCount))) ∧
    (q.opsel = 0x40#8 → decode q = .ok (.cmdSwitch (h f.cmdId) (b f.tableId) f.on q.input)) ∧
    (q.opsel = 0x41#8 → decode q = .ok (.cmdMove (h f.cmdId) (b f.tableId) (b f.deviceId) (b f.command))) ∧
    (q.opsel = 0x42#8 → decode q = .ok (.cmdGenie (h f.cmdId) (b f.tableId) (b f.deviceId) f.on)) ∧
    (q.opsel = 0x43#8 → decode q = .ok (.cmdDim (h f.cmdId) (b f.tableId) (b f.deviceId) (b f.mode) (b f.brightness)
      (b f.duration) (h f.cycle1) (h f.cycle2))) ∧
    (q.opsel = 0x44#8 → decode q = .ok (.cmdRgb (h f.cmdId) (b f.tableId) (b f.deviceId) (b f.mode) (b f.r) (b f.g) (b f.b)
      (b f.autoOff) (b f.onInt) (b f.offInt) (h f.interval))) ∧
    (q.opsel = 0x45#8 → decode q = .ok (.cmdHvac (h f.cmdId) (b f.tableId) (b f.deviceId) (b f.command) (b f.lowTrip)
      (b f.highTrip)))) ∧
  ∀ (s : State) (rest : List HostAction) (cmdId tableId deviceId command : Int),
    s.host = .issue { opsel := 0x41#8, fields :=
      { cmdId := cmdId, tableId := tableId, deviceId := deviceId, command := command } } :: rest →
    ∃ (lo hi t d c : Byte), step s = .next { s with host := rest, status := 0x00#8, out := .bytes [lo, hi, 0x41#8, t, d, c] } ∧
      ((lo.toNat + 256 * hi.toNat : Nat) : Int) = max 0 (min cmdId 65535) ∧ (t.toNat : Int) = max 0 (min tableId 255) ∧
      (d.toNat : Int) = max 0 (min deviceId 255) ∧ (c.toNat : Int) = max 0 (min command 255)

/-- A step runs the decoded operation: where the host's next action is a request that decodes to `i`, step is
exec of `i` on the state with that request taken from the host's list. -/
def Obligations.StepRunsTheDecodedRequest : Prop :=
  ∀ (s : State) (q : Request) (rest : List HostAction) (i : Instr),
    s.host = .issue q :: rest → decode q = .ok i → i.wf s.cfg.tsW = true →
    step s = exec i { s with host := rest }

/-- Every step takes exactly one action from the host's list, whatever its STATUS; no operation adds, skips or repeats
one. R21 says so of requests; that the host's coming actions are a list the step reads is the model's choice (log 2),
and so is that a reset takes one entry of it and keeps the rest (log 21). R29: no step changes a parameter. With
nothing left the block is idle (R238). -/
def Obligations.EachStepTakesOneHostAction : Prop :=
  (∀ s : State, s.host = [] → step s = .next s) ∧
  ∀ (s : State) (a : HostAction) (rest : List HostAction), s.host = a :: rest →
    ∃ t : State, step s = .next t ∧ t.host = rest ∧ t.cfg = s.cfg

/-- R31: the state after reset. That TIMEOUT_RESET is unspecified is the default of R9; the empty host list is
the model's choice (log 2). -/
def Obligations.ResetState : Prop :=
  State.reset.fix = none ∧ State.reset.kpend = [] ∧ State.reset.timeoutMs = State.reset.cfg.timeoutReset ∧
  State.reset.cfg.timeoutReset = none ∧ State.reset.status = 0x00#8 ∧ State.reset.out = .bytes [] ∧
  State.reset.host = []

/-- R250: the reset event, from any state, gives the state of R31; R251: it does not touch the configuration.
It differs from CHK.RESET (R203) in TIMEOUT_MS only. That the host's list is kept is the model's choice
(log 21). -/
def Obligations.HardResetGivesTheResetState : Prop :=
  ∀ (s : State) (rest : List HostAction), s.host = .hardReset :: rest →
    step s = .next { cfg := s.cfg, host := rest, timeoutMs := s.cfg.timeoutReset, fix := none, kpend := [],
                     status := 0x00#8, out := .bytes [] } ∧
    exec .chkReset { s with host := rest } =
      .next { cfg := s.cfg, host := rest, timeoutMs := s.timeoutMs, fix := none, kpend := [],
              status := 0x00#8, out := .bytes [] }

/-! ### The invariant -/

/-- The invariant of R30, with the widths of R23 to R25 and the canonical form of KPEND, is kept by every step:
every operation, every unassigned selector, every reset. -/
def Obligations.EveryStepKeepsTheInvariant : Prop :=
  ∀ s t : State, s.Inv → step s = .next t → t.Inv

/-- The invariant holds after reset. -/
def Obligations.ResetStateMeetsTheInvariant : Prop := State.reset.Inv

/-! ### Rules about every operation -/

/-- R221: for every operation and every failure STATUS the state is unchanged but for the latches; OUT is empty, except
that ERR_NO_READING leaves one cause byte, itself a failure code; and the next operation runs as if the failed one had
not been issued. -/
def Obligations.FailureChangesNothing : Prop :=
  ∀ (i : Instr) (s t : State), exec i s = .next t → t.status.getLsbD 7 = true →
    t = { s with status := t.status, out := t.out } ∧
    (t.status ≠ 0x88#8 → t.out = .bytes []) ∧
    (t.status = 0x88#8 → ∃ c : Byte, t.out = .bytes [c] ∧ c.getLsbD 7 = true) ∧
    ∀ j : Instr, exec j t = exec j s

/-- R45: the operations that do not change state are pure functions of their operands and IN: two states with
the same configuration give the same response, and nothing but the latches is written. -/
def Obligations.PureOperationsDependOnOperandsAlone : Prop :=
  ∀ i : Instr, pureOperation i = true → ∀ s₁ s₂ : State, s₁.cfg = s₂.cfg →
    ∃ (st : Byte) (o : Out), exec i s₁ = .next { s₁ with status := st, out := o } ∧
      exec i s₂ = .next { s₂ with status := st, out := o }

/-- R225, R226: every operation completes, with a STATUS that the spec lists for it; where BUF_CAP is taken to bind
every operation (R47), CMD.SWITCH, CHK.PUSH2 and QRD.DECODE may also answer ERR_CAPACITY (log 16). -/
def Obligations.EveryOperationReturnsAListedStatus : Prop :=
  ∀ (i : Instr) (s : State), ∃ t : State, exec i s = .next t ∧ t.status ∈ possibleStatus s.cfg i

/-- R47: with BUF_CAP, KSLOTS and KFRAGS unset no operation returns ERR_CAPACITY, nor ERR_NO_READING for that
cause. -/
def Obligations.NoCapacityErrorWithoutLimits : Prop :=
  ∀ (i : Instr) (s t : State), s.cfg.bufCap = none → s.cfg.kslots = none → s.cfg.kfrags = none →
    exec i s = .next t → t.status ≠ 0x87#8 ∧ (t.status = 0x88#8 → t.out ≠ .bytes [0x87#8])

/-- R47, and the pseudocode of each operation: IN longer than a set BUF_CAP gives ERR_CAPACITY, OUT empty and nothing
else changed, in every operation that reads IN. COBS.ENC counts the checksum byte (R103). CMD.SWITCH, CHK.PUSH2 and
QRD.DECODE, whose IN is all the bytes of its list, are bound where BUF_CAP is taken to bind every operation, and after
their own tests: the model's choice, log 16. QRD.DECODE then fails in one of two ways, and QueryDecodeChainsItsStages
says in which; its joined payloads are bound in any case, through COBS.DEC. -/
def Obligations.InputOverBufCapIsRefused : Prop :=
  ∀ (s : State) (cap : Nat) (input key : Bytes) (pre cs : Bool) (now : Nat), s.cfg.bufCap = some cap →
    (cap < input.length →
      ∀ i ∈ [Instr.csum8 input, .cobsDec cs input, .teaDecBuf key input, .stsRelay input, .stsDim input, .stsRgb input,
        .chkPushK now input], exec i s = .next { s with status := 0x87#8, out := .bytes [] }) ∧
    (cap < input.length + cs.toNat →
      exec (.cobsEnc pre cs input) s = .next { s with status := 0x87#8, out := .bytes [] }) ∧
    (capBinds s.cfg = true → cap < input.length →
      (input.length ≤ 255 → ∀ (cmdId : U16) (tableId : Byte) (on : Bool),
        exec (.cmdSwitch cmdId tableId on input) s = .next { s with status := 0x87#8, out := .bytes [] }) ∧
      (input.length = 20 → s.fix = none ∨ s.timeoutMs ≠ none →
        exec (.chkPush2 now input) s = .next { s with status := 0x87#8, out := .bytes [] })) ∧
    (capBinds s.cfg = true → ∀ (decrypt : Bool) (fragments : List Bytes), cap < fragments.flatten.length →
      exec (.qrdDecode cs decrypt key fragments) s = .next { s with status := 0x87#8, out := .bytes [] } ∨
      ∃ cause : Byte, exec (.qrdDecode cs decrypt key fragments) s =
        .next { s with status := 0x88#8, out := .bytes [cause] }) ∧
    ∀ (decrypt : Bool) (parts : List (Bytes × Bytes)), (∀ p ∈ parts, p.1.length = s.cfg.khdrLen) →
      cap < (parts.flatMap Prod.snd).length →
      exec (.qrdDecode cs decrypt key (parts.map fun p => p.1 ++ p.2)) s =
        .next { s with status := 0x88#8, out := .bytes [0x87#8] }

/-- The two readings of BUF_CAP for the three operations without a test of it: with that of R225 and R228 none of them
answers ERR_CAPACITY, whatever BUF_CAP is; with that of R41 and R47 none of them succeeds on an IN over it. Which
reading holds is left open: the model's choice, log 16. -/
def Obligations.BothReadingsOfBufCap : Prop :=
  ∀ (s t : State) (i : Instr) (input : Bytes),
    (∃ (cmdId : U16) (tableId : Byte) (on : Bool), i = .cmdSwitch cmdId tableId on input) ∨
      (∃ now : Nat, i = .chkPush2 now input) ∨
      (∃ (cs decrypt : Bool) (key : Bytes) (fragments : List Bytes),
        i = .qrdDecode cs decrypt key fragments ∧ input = fragments.flatten) →
    exec i s = .next t →
    (s.cfg.capScope = .listedOperations → t.status ≠ 0x87#8) ∧
    (s.cfg.capScope = .everyOperation → ¬ fits s.cfg.bufCap input.length → t.status.getLsbD 7 = true)

/-- R254: fixed mode touches only FIX and TIMEOUT_MS, and keyed mode only KPEND: a fixed-mode operation answers
the same, and does the same, whatever KPEND holds; a keyed-mode operation, whatever FIX and TIMEOUT_MS hold. -/
def Obligations.FixedAndKeyedModesDoNotMeet : Prop :=
  (∀ (i : Instr) (s : State) (m : PendingMap), (∃ now f, i = .chkPush2 now f) ∨ i = .chkEvict2 ∨
      (∃ d, i = .chkSetTmo d) ∨ (∃ k, i = .chkPeek false k) →
    ∃ t : State, exec i s = .next t ∧ t.kpend = s.kpend ∧ exec i { s with kpend := m } = .next { t with kpend := m }) ∧
  (∀ (i : Instr) (s : State) (x : Option FixBuffer) (d : Option Nat), (∃ now f, i = .chkPushK now f) ∨
      (∃ k, i = .chkEvictK k) ∨ (∃ k, i = .chkPeek true k) →
    ∃ t : State, exec i s = .next t ∧ t.fix = s.fix ∧ t.timeoutMs = s.timeoutMs ∧
      exec i { s with fix := x, timeoutMs := d } = .next { t with fix := x, timeoutMs := d })

/-! ### The command encoder -/

/-- R141, R142: the two device queries, with their selectors. -/
def Obligations.CmdDeviceQueries : Prop :=
  ∀ (s : State) (cmdId : U16) (tableId startId maxCount : Byte),
    let f : Fields := { cmdId := cmdId.toNat, tableId := tableId.toNat, startId := startId.toNat, maxCount := maxCount.toNat }
    decode { opsel := 0x01#8, fields := f } = .ok (.cmdGetDev cmdId tableId startId maxCount) ∧
    exec (.cmdGetDev cmdId tableId startId maxCount) s = .next { s with
      status := 0x00#8, out := .bytes [cmdId.extractLsb' 0 8, cmdId.extractLsb' 8 8, 0x01#8, tableId, startId, maxCount] } ∧
    decode { opsel := 0x02#8, fields := f } = .ok (.cmdGetMeta cmdId tableId startId maxCount) ∧
    exec (.cmdGetMeta cmdId tableId startId maxCount) s = .next { s with
      status := 0x00#8, out := .bytes [cmdId.extractLsb' 0 8, cmdId.extractLsb' 8 8, 0x02#8, tableId, startId, maxCount] }

/-- R144, R145, R148: the commands with one fixed form, with their selectors. -/
def Obligations.CmdMoveGenieHvac : Prop :=
  ∀ (s : State) (cmdId : U16) (tableId deviceId command lowTrip highTrip : Byte) (on : Bool),
    decode { opsel := 0x41#8, fields := {
      cmdId := cmdId.toNat, tableId := tableId.toNat, deviceId := deviceId.toNat,
      command := command.toNat } } = .ok (.cmdMove cmdId tableId deviceId command) ∧
    exec (.cmdMove cmdId tableId deviceId command) s = .next { s with
      status := 0x00#8, out := .bytes [cmdId.extractLsb' 0 8, cmdId.extractLsb' 8 8, 0x41#8, tableId, deviceId, command] } ∧
    decode { opsel := 0x42#8, fields := {
      cmdId := cmdId.toNat, tableId := tableId.toNat, deviceId := deviceId.toNat,
      on := on } } = .ok (.cmdGenie cmdId tableId deviceId on) ∧
    exec (.cmdGenie cmdId tableId deviceId on) s = .next { s with
      status := 0x00#8, out := .bytes [cmdId.extractLsb' 0 8, cmdId.extractLsb' 8 8, 0x42#8, tableId, deviceId,
        if on then 0x01#8 else 0x00#8] } ∧
    decode { opsel := 0x45#8, fields := {
      cmdId := cmdId.toNat, tableId := tableId.toNat, deviceId := deviceId.toNat,
      command := command.toNat, lowTrip := lowTrip.toNat, highTrip := highTrip.toNat } } =
        .ok (.cmdHvac cmdId tableId deviceId command lowTrip highTrip) ∧
    exec (.cmdHvac cmdId tableId deviceId command lowTrip highTrip) s = .next { s with
      status := 0x00#8, out := .bytes [cmdId.extractLsb' 0 8, cmdId.extractLsb' 8 8, 0x45#8, tableId, deviceId, command,
        lowTrip, highTrip] }

/-- R143: 1 to 255 device ids are encoded in the order given; none, or more than 255, is ERR_PRECONDITION, whatever
BUF_CAP is. Where BUF_CAP binds CMD.SWITCH (log 16), 1 to 255 ids must fit it; InputOverBufCapIsRefused says what happens
where they do not. -/
def Obligations.CmdSwitch : Prop :=
  ∀ (s : State) (cmdId : U16) (tableId : Byte) (on : Bool) (ids : Bytes),
    decode { opsel := 0x40#8, fields := { cmdId := cmdId.toNat, tableId := tableId.toNat, on := on }, input := ids } =
      .ok (.cmdSwitch cmdId tableId on ids) ∧
    (1 ≤ ids.length → ids.length ≤ 255 → (capBinds s.cfg = true → fits s.cfg.bufCap ids.length) →
      exec (.cmdSwitch cmdId tableId on ids) s = .next { s with
        status := 0x00#8,
        out := .bytes ([cmdId.extractLsb' 0 8, cmdId.extractLsb' 8 8, 0x40#8, tableId, if on then 0x01#8 else 0x00#8] ++ ids) }) ∧
    (ids.length = 0 ∨ 256 ≤ ids.length →
      exec (.cmdSwitch cmdId tableId on ids) s = .next { s with status := 0x85#8, out := .bytes [] })

/-- R146: the three forms of ActionDimmable; one zero cycle time forces both to 220 ms (0x00DC). -/
def Obligations.CmdDim : Prop :=
  ∀ (s : State) (cmdId : U16) (tableId deviceId mode brightness duration : Byte) (cycle1 cycle2 : U16),
    let form (p : Bytes) : Prop := exec (.cmdDim cmdId tableId deviceId mode brightness duration cycle1 cycle2) s =
      .next { s with status := 0x00#8, out := .bytes ([cmdId.extractLsb' 0 8, cmdId.extractLsb' 8 8, 0x43#8, tableId, deviceId] ++ p) }
    decode { opsel := 0x43#8, fields := {
      cmdId := cmdId.toNat, tableId := tableId.toNat, deviceId := deviceId.toNat,
      mode := mode.toNat, brightness := brightness.toNat, duration := duration.toNat, cycle1 := cycle1.toNat,
      cycle2 := cycle2.toNat } } = .ok (.cmdDim cmdId tableId deviceId mode brightness duration cycle1 cycle2) ∧
    (mode = 0x00#8 ∨ mode = 0x7F#8 → form [mode]) ∧
    (mode = 0x02#8 ∨ mode = 0x03#8 → cycle1 = 0#16 ∨ cycle2 = 0#16 →
      form [mode, brightness, duration, 0x00#8, 0xDC#8, 0x00#8, 0xDC#8]) ∧
    (mode = 0x02#8 ∨ mode = 0x03#8 → cycle1 ≠ 0#16 → cycle2 ≠ 0#16 →
      form [mode, brightness, duration, cycle1.extractLsb' 8 8, cycle1.extractLsb' 0 8, cycle2.extractLsb' 8 8,
        cycle2.extractLsb' 0 8]) ∧
    (mode ∉ ([0x00, 0x02, 0x03, 0x7F] : List Byte) → form [mode, brightness, duration])

/-- R147: the forms of ActionRgb; a mode outside the table is ERR_PRECONDITION. -/
def Obligations.CmdRgb : Prop :=
  ∀ (s : State) (cmdId : U16) (tableId deviceId mode r g b autoOff onInt offInt : Byte) (interval : U16),
    let request : Instr := .cmdRgb cmdId tableId deviceId mode r g b autoOff onInt offInt interval
    let form (p : Bytes) : Prop := exec request s =
      .next { s with status := 0x00#8, out := .bytes ([cmdId.extractLsb' 0 8, cmdId.extractLsb' 8 8, 0x44#8, tableId, deviceId] ++ p) }
    decode { opsel := 0x44#8, fields := {
      cmdId := cmdId.toNat, tableId := tableId.toNat, deviceId := deviceId.toNat,
      mode := mode.toNat, r := r.toNat, g := g.toNat, b := b.toNat, autoOff := autoOff.toNat, onInt := onInt.toNat,
      offInt := offInt.toNat, interval := interval.toNat } } = .ok request ∧
    (mode = 0x00#8 ∨ mode = 0x7F#8 → form [mode]) ∧
    (mode = 0x01#8 → form [mode, r, g, b, autoOff]) ∧
    (mode = 0x02#8 → form [mode, r, g, b, autoOff, onInt, offInt]) ∧
    (mode ∈ ([0x04, 0x05, 0x06, 0x07, 0x08] : List Byte) →
      form [mode, autoOff, interval.extractLsb' 8 8, interval.extractLsb' 0 8]) ∧
    (mode ∉ ([0x00, 0x01, 0x02, 0x04, 0x05, 0x06, 0x07, 0x08, 0x7F] : List Byte) →
      exec request s = .next { s with status := 0x85#8, out := .bytes [] })

/-- R67: every encoded command is the command id, low byte first, then the opcode, which is the operation's own
OPSEL, then at least one byte of payload. -/
def Obligations.EveryCommandBeginsWithIdAndOpcode : Prop :=
  ∀ (i : Instr) (s : State), (encode i).opsel ∈ ([0x01, 0x02, 0x40, 0x41, 0x42, 0x43, 0x44, 0x45] : List Byte) →
    ∃ t : State, exec i s = .next t ∧ (t.status = 0x00#8 →
      ∃ (lo hi : Byte) (payload : Bytes), t.out = .bytes (lo :: hi :: (encode i).opsel :: payload) ∧
        ((lo.toNat + 256 * hi.toNat : Nat) : Int) = (encode i).fields.cmdId ∧ payload ≠ [])

/-! ### Checksum and stuffing -/

/-- R100, R101: CSUM8 of the empty string is CSUM8_SEED, and one more byte, within BUF_CAP, takes the checksum `c` to
`CSUM8_TABLE[c ^ byte]`. The table shape is the spec's general knowledge (R101, G1; log 5). -/
def Obligations.ChecksumFollowsTheTable : Prop :=
  ∀ (s : State) (seed : Byte) (entries : Vector Byte 256), s.cfg.checksum = .table seed entries →
    exec (.csum8 []) s = .next { s with status := 0x00#8, out := .u8 seed } ∧
    ∀ (input : Bytes) (b : Byte), fits s.cfg.bufCap (input ++ [b]).length →
      ∃ c : Byte, exec (.csum8 input) s = .next { s with status := 0x00#8, out := .u8 c } ∧
        exec (.csum8 (input ++ [b])) s =
          .next { s with status := 0x00#8, out := .u8 (entries[(c ^^^ b).toNat]'((c ^^^ b).isLt)) }

/-- R100: for any Checksum8 at all, CSUM8 of an IN within BUF_CAP answers one byte, the byte that COBS.ENC appends where
there is room for it too (R103). OPSEL is 0x80. -/
def Obligations.ChecksumIsTheByteTheCodecAppends : Prop :=
  (∀ q : Request, q.opsel = 0x80#8 → decode q = .ok (.csum8 q.input)) ∧
  ∀ (s : State) (input : Bytes), fits s.cfg.bufCap input.length →
    ∃ c : Byte, exec (.csum8 input) s = .next { s with status := 0x00#8, out := .u8 c } ∧
      (fits s.cfg.bufCap (input.length + 1) →
        ∃ gs : List CobsGroup, plainOf gs = input ++ [c] ∧ (∀ g ∈ gs, g.legal) ∧
          exec (.cobsEnc false true input) s = .next { s with status := 0x00#8, out := .bytes (streamOf gs ++ [0x00#8]) })

/-- R102: the table of REF is the one its construction gives, a permutation of 0 to 255. REF is the spec's
general knowledge; the machine does not use it. -/
def Obligations.RefTableIsAPermutation : Prop :=
  Config.refTable.toList = Config.refRows.flatten ∧ ∀ b : Byte, b ∈ Config.refTable.toList

/-- R103, R104: COBS.ENC emits the optional leading delimiter, the greedy groups of the payload and its
checksum, and the trailing delimiter. OPSEL is 0x81, and an absent `pre` or `cs` is 1 (R62). -/
def Obligations.CobsEncEmitsGreedyGroups : Prop :=
  (∀ q : Request, q.opsel = 0x81#8 → decode q = .ok (.cobsEnc (if q.fields.pre = some false then false else true)
    (if q.fields.cs = some false then false else true) q.input)) ∧
  ∀ (s : State) (pre cs : Bool) (payload : Bytes), fits s.cfg.bufCap (payload.length + cs.toNat) →
    ∃ gs : List CobsGroup, (∀ g ∈ gs, g.legal) ∧ greedy gs ∧
      plainOf gs = payload ++ (if cs then [checksum8 s.cfg payload] else []) ∧
      exec (.cobsEnc pre cs payload) s = .next { s with
        status := 0x00#8, out := .bytes ((if pre then [0x00#8] else []) ++ streamOf gs ++ [0x00#8]) }

/-- R105 (i) to (iii): between the optional first byte and the last no byte of COBS.ENC's OUT is 0x00; OUT is at
most `pre + 2 * len(buf) + 1` bytes long; the empty buffer gives no group. -/
def Obligations.CobsFrameShape : Prop :=
  ∀ (s : State) (pre cs : Bool) (payload : Bytes), fits s.cfg.bufCap (payload.length + cs.toNat) →
    ∃ body : Bytes, exec (.cobsEnc pre cs payload) s = .next { s with
        status := 0x00#8, out := .bytes ((if pre then [0x00#8] else []) ++ body ++ [0x00#8]) } ∧
      (∀ b ∈ body, b ≠ 0x00#8) ∧ body.length ≤ 2 * (payload.length + cs.toNat) ∧
      (body = [] ↔ payload.length + cs.toNat = 0)

/-- R108, the round-trip law: for every payload, every `pre` and every `cs`, COBS.DEC of what COBS.ENC emits
gives the payload back, on any state of the same configuration, if no capacity limit is hit. -/
def Obligations.CobsRoundTrip : Prop :=
  ∀ (s s' : State) (pre cs : Bool) (b : Bytes), s'.cfg = s.cfg → fits s.cfg.bufCap (b.length + cs.toNat) →
    ∃ f : Bytes, exec (.cobsEnc pre cs b) s = .next { s with status := 0x00#8, out := .bytes f } ∧
      (fits s.cfg.bufCap f.length →
        exec (.cobsDec cs f) s' = .next { s' with status := 0x00#8, out := .bytes b })

/-- R107, R110: COBS.DEC with `cs = 0`, within BUF_CAP, accepts any number of leading delimiters and every grouping, not
only the greedy one, and ignores what follows the first delimiter after the groups. (With no group at all the walk
would skip the terminator if bytes followed it, since the last byte of IN alone is never skipped.) OPSEL is 0x82, and an
absent `cs` is 1 (R62). -/
def Obligations.CobsDecAcceptsEveryGrouping : Prop :=
  (∀ q : Request, q.opsel = 0x82#8 → decode q = .ok (.cobsDec (if q.fields.cs = some false then false else true) q.input)) ∧
  ∀ (s : State) (leading : Nat) (gs : List CobsGroup) (trailing : Bytes),
    (∀ g ∈ gs, g.legal) → gs ≠ [] ∨ trailing = [] →
    fits s.cfg.bufCap (List.replicate leading 0x00#8 ++ streamOf gs ++ [0x00#8] ++ trailing).length →
    fits s.cfg.bufCap (plainOf gs).length →
    exec (.cobsDec false (List.replicate leading 0x00#8 ++ streamOf gs ++ [0x00#8] ++ trailing)) s =
      .next { s with status := 0x00#8, out := .bytes (plainOf gs) }

/-- R107, R225: within BUF_CAP, a delimiter where literals of the current group are owed is ERR_TRUNCATED; input that
ends before a terminating delimiter, or is empty, is ERR_UNTERMINATED; for either value of `cs`. -/
def Obligations.CobsDecMalformedStreams : Prop :=
  ∀ (s : State) (cs : Bool) (leading : Nat) (gs : List CobsGroup), (∀ g ∈ gs, g.legal) →
    (∀ (code : Byte) (lits : Bytes), code ≠ 0x00#8 → (∀ b ∈ lits, b ≠ 0x00#8) → lits.length < code.toNat % 64 →
      fits s.cfg.bufCap (plainOf gs ++ lits).length →
      let owing : Bytes := List.replicate leading 0x00#8 ++ streamOf gs ++ code :: lits
      (∀ trailing : Bytes, fits s.cfg.bufCap (owing ++ [0x00#8] ++ trailing).length →
        exec (.cobsDec cs (owing ++ [0x00#8] ++ trailing)) s = .next { s with status := 0x81#8, out := .bytes [] }) ∧
      (fits s.cfg.bufCap owing.length →
        exec (.cobsDec cs owing) s = .next { s with status := 0x84#8, out := .bytes [] })) ∧
    (gs ≠ [] → fits s.cfg.bufCap (plainOf gs).length →
      fits s.cfg.bufCap (List.replicate leading 0x00#8 ++ streamOf gs).length →
      exec (.cobsDec cs (List.replicate leading 0x00#8 ++ streamOf gs)) s =
        .next { s with status := 0x84#8, out := .bytes [] }) ∧
    exec (.cobsDec cs []) s = .next { s with status := 0x84#8, out := .bytes [] }

/-- R107, R228: an IN that fits BUF_CAP whose groups stand for more bytes than it is ERR_CAPACITY with OUT empty, for
either value of `cs` and whatever follows the groups: the test stands inside the walk, before the end of the frame and
before the checksum. -/
def Obligations.CobsDecOutputOverBufCapIsRefused : Prop :=
  ∀ (s : State) (cap : Nat) (cs : Bool) (leading : Nat) (gs : List CobsGroup) (tail : Bytes),
    s.cfg.bufCap = some cap → (∀ g ∈ gs, g.legal) → cap < (plainOf gs).length →
    (List.replicate leading 0x00#8 ++ streamOf gs ++ tail).length ≤ cap →
    exec (.cobsDec cs (List.replicate leading 0x00#8 ++ streamOf gs ++ tail)) s =
      .next { s with status := 0x87#8, out := .bytes [] }

/-- R106: COBS.DEC with `cs = 1` against the same IN with `cs = 0`: a failure of the walk is the same failure; an
empty output is ERR_SHORT; otherwise the last byte is the received checksum, and the rest is answered if its
checksum is that byte, else ERR_CHECKSUM. With `cs = 0` neither of these can occur. -/
def Obligations.CobsDecVerifiesTheChecksum : Prop :=
  ∀ (s : State) (input : Bytes), ∃ t₀ t₁ : State, exec (.cobsDec false input) s = .next t₀ ∧
    exec (.cobsDec true input) s = .next t₁ ∧ t₀.status ≠ 0x82#8 ∧ t₀.status ≠ 0x83#8 ∧
    (t₀.status ≠ 0x00#8 → t₁ = t₀) ∧
    (t₀.status = 0x00#8 → ∃ out : Bytes, t₀ = { s with status := 0x00#8, out := .bytes out } ∧
      (out = [] → t₁ = { s with status := 0x82#8, out := .bytes [] }) ∧
      ∀ (body : Bytes) (received : Byte), out = body ++ [received] →
        (checksum8 s.cfg body = received → t₁ = { s with status := 0x00#8, out := .bytes body }) ∧
        (checksum8 s.cfg body ≠ received → t₁ = { s with status := 0x83#8, out := .bytes [] }))

/-- R109 (i), (ii): where CSUM8_TABLE is a permutation, changing one literal byte of a checksummed frame in any way
that leaves it non-zero (any bit flip among them) gives ERR_CHECKSUM, and changing it to 0x00 gives
ERR_TRUNCATED, if no capacity limit is hit. -/
def Obligations.CobsLiteralChangeIsDetected : Prop :=
  ∀ (s : State) (seed : Byte) (entries : Vector Byte 256) (leading : Nat) (b : Bytes) (front back : List CobsGroup)
    (l₁ l₂ : Bytes) (x x' : Byte) (zeros : Nat),
    s.cfg.checksum = .table seed entries → entries.toList.Nodup →
    (∀ g ∈ front ++ { lits := l₁ ++ x :: l₂, zeros := zeros } :: back, g.legal) →
    plainOf (front ++ { lits := l₁ ++ x :: l₂, zeros := zeros } :: back) = b ++ [checksum8 s.cfg b] → x' ≠ x →
    let frame (y : Byte) : Bytes := List.replicate leading 0x00#8 ++ streamOf front ++
      BitVec.ofNat 8 ((l₁ ++ x :: l₂).length + 64 * zeros) :: (l₁ ++ y :: l₂) ++ streamOf back ++ [0x00#8]
    fits s.cfg.bufCap (frame x).length → fits s.cfg.bufCap (b.length + 1) →
    exec (.cobsDec true (frame x)) s = .next { s with status := 0x00#8, out := .bytes b } ∧
    (x' ≠ 0x00#8 → exec (.cobsDec true (frame x')) s = .next { s with status := 0x83#8, out := .bytes [] }) ∧
    (x' = 0x00#8 → exec (.cobsDec true (frame x')) s = .next { s with status := 0x81#8, out := .bytes [] })

/-! ### The block cipher -/

/-- R125: decrypt of encrypt, and encrypt of decrypt, give the block back, for every key and block and every choice of
rounds, delta, constants, subkeys and mixing. OPSEL is 0x90 and 0x91. -/
def Obligations.CipherRoundTrip : Prop :=
  (∀ q : Request, q.opsel = 0x90#8 → decode q = .ok (.teaEnc q.fields.key64 q.fields.block)) ∧
  (∀ q : Request, q.opsel = 0x91#8 → decode q = .ok (.teaDec q.fields.key64 q.fields.block)) ∧
  ∀ (s s' : State) (k m : U64), s'.cfg = s.cfg →
    (∃ c : U64, exec (.teaEnc k m) s = .next { s with status := 0x00#8, out := .u64 c } ∧
      exec (.teaDec k c) s' = .next { s' with status := 0x00#8, out := .u64 m }) ∧
    (∃ p : U64, exec (.teaDec k m) s = .next { s with status := 0x00#8, out := .u64 p } ∧
      exec (.teaEnc k p) s' = .next { s' with status := 0x00#8, out := .u64 m })

/-- R122, R123 with the default subkeys of R121 and the mixing of R126 (the spec's decisions D9, D10 and its
general knowledge): TEA.ENC and TEA.DEC are the TEA_ROUNDS-fold iterates of one round. -/
def Obligations.CipherIteratesOneRound : Prop :=
  ∀ (s : State) (key block : U64) (l : TeaLiterals), s.cfg.tea = .given l → s.cfg.subkey = .additive → s.cfg.mix = .classic →
    let kh : U32 := key.extractLsb' 32 32
    let kl : U32 := key.extractLsb' 0 32
    let mix (v acc a b : U32) : U32 := ((v <<< 4) + a) ^^^ (v + acc) ^^^ ((v >>> 5) + b)
    let enc (x : U32 × U32 × U32) : U32 × U32 × U32 :=
      let acc := x.1 + l.delta
      let sum := x.2.1 + mix x.2.2 acc (l.c0 + kh) (l.c1 + kl)
      (acc, sum, x.2.2 + mix sum acc (l.c2 + kh) (l.c3 + kl))
    let dec (x : U32 × U32 × U32) : U32 × U32 × U32 :=
      let cyp := x.2.2 - mix x.2.1 x.1 (l.c2 + kh) (l.c3 + kl)
      (x.1 - l.delta, x.2.1 - mix cyp x.1 (l.c0 + kh) (l.c1 + kl), cyp)
    let hi : U32 := block.extractLsb' 32 32
    let lo : U32 := block.extractLsb' 0 32
    let join (x : U32 × U32 × U32) : U64 := (x.2.1.setWidth 64 <<< 32) ||| x.2.2.setWidth 64
    exec (.teaEnc key block) s = .next { s with status := 0x00#8, out := .u64 (join (enc^[l.rounds] (0#32, hi, lo))) } ∧
    exec (.teaDec key block) s = .next { s with
      status := 0x00#8, out := .u64 (join (dec^[l.rounds] (l.delta * BitVec.ofNat 32 l.rounds, hi, lo))) }

/-- R124: data whose length is no multiple of 8, or a key that is not 8 bytes, is ERR_CIPHER_PRECOND, one code for
either fault or both. -/
def Obligations.DecBufPrecondition : Prop :=
  ∀ (s : State) (key data : Bytes), fits s.cfg.bufCap data.length → (data.length % 8 ≠ 0 ∨ key.length ≠ 8) →
    exec (.teaDecBuf key data) s = .next { s with status := 0x89#8, out := .bytes [] }

/-- R124, R127: TEA.DECBUF decrypts every 8-byte block on its own by TEA.DEC, without chaining, in the instance's
byte order; the empty data gives the empty result. OPSEL is 0x92. -/
def Obligations.DecBufDecryptsBlockByBlock : Prop :=
  (∀ q : Request, q.opsel = 0x92#8 → decode q = .ok (.teaDecBuf q.fields.keyBytes q.input)) ∧
  ∀ (s : State) (k : U64) (blocks : List U64), fits s.cfg.bufCap (8 * blocks.length) →
    let bytes (v : U64) : Bytes :=
      let big : Bytes := [v.extractLsb' 56 8, v.extractLsb' 48 8, v.extractLsb' 40 8, v.extractLsb' 32 8,
        v.extractLsb' 24 8, v.extractLsb' 16 8, v.extractLsb' 8 8, v.extractLsb' 0 8]
      if s.cfg.byteOrder = .big then big else big.reverse
    ∃ plain : List U64,
      (∀ p ∈ blocks.zip plain, exec (.teaDec k p.1) s = .next { s with status := 0x00#8, out := .u64 p.2 }) ∧
      plain.length = blocks.length ∧
      exec (.teaDecBuf (bytes k) (blocks.flatMap bytes)) s =
        .next { s with status := 0x00#8, out := .bytes (plain.flatMap bytes) }

/-! ### The status decoder -/

/-- R172, with the walk of R170: STS.RELAY cuts the buffer after its two leading bytes into pairs; bit 0 of the status
byte is on/off; the first byte is ignored and an odd trailing byte is dropped; a buffer of fewer than 2 bytes gives no
record; one longer than BUF_CAP is ERR_CAPACITY. -/
def Obligations.StsRelayRecords : Prop :=
  (∀ q : Request, q.opsel = 0xA0#8 → decode q = .ok (.stsRelay q.input)) ∧
  ∀ s : State,
    (∀ (event tableId : Byte) (recs : List (Byte × Byte)) (tail : Bytes), tail.length < 2 →
      fits s.cfg.bufCap (2 + 2 * recs.length + tail.length) →
      exec (.stsRelay ([event, tableId] ++ recs.flatMap (fun p => [p.1, p.2]) ++ tail)) s = .next { s with
        status := 0x00#8,
        out := .relays (recs.map fun p =>
          { tableId := tableId, deviceId := p.1, raw := [p.2], isOn := p.2.getLsbD 0 }) }) ∧
    (∀ event : Bytes, event.length < 2 → fits s.cfg.bufCap event.length →
      exec (.stsRelay event) s = .next { s with status := 0x00#8, out := .relays [] }) ∧
    ∀ event : Bytes, ¬ fits s.cfg.bufCap event.length →
      exec (.stsRelay event) s = .next { s with status := 0x87#8, out := .bytes [] }

/-- R173, with the walk of R170: STS.DIM with N = 8: on iff byte 0 is greater than 0, brightness is byte 3, and up to 8
trailing bytes are dropped. -/
def Obligations.StsDimRecords : Prop :=
  (∀ q : Request, q.opsel = 0xA1#8 → decode q = .ok (.stsDim q.input)) ∧
  ∀ s : State,
    (∀ (event tableId : Byte) (recs : List (Byte × Vector Byte 8)) (tail : Bytes), tail.length < 9 →
      fits s.cfg.bufCap (2 + 9 * recs.length + tail.length) →
      exec (.stsDim ([event, tableId] ++ recs.flatMap (fun p => p.1 :: p.2.toList) ++ tail)) s = .next { s with
        status := 0x00#8,
        out := .dims (recs.map fun p =>
          { tableId := tableId, deviceId := p.1, raw := p.2.toList, isOn := p.2[0] ≠ 0x00#8, brightness := p.2[3] }) }) ∧
    (∀ event : Bytes, event.length < 2 → fits s.cfg.bufCap event.length →
      exec (.stsDim event) s = .next { s with status := 0x00#8, out := .dims [] }) ∧
    ∀ event : Bytes, ¬ fits s.cfg.bufCap event.length →
      exec (.stsDim event) s = .next { s with status := 0x87#8, out := .bytes [] }

/-- R174, with the walk of R170 and the labels of R175: STS.RGB with N = 8: the fields at their offsets, the interval
big-endian at bytes 5 and 6, on iff the mode is greater than 0, the effect the label of the mode. -/
def Obligations.StsRgbRecords : Prop :=
  (∀ q : Request, q.opsel = 0xA2#8 → decode q = .ok (.stsRgb q.input)) ∧
  ∀ s : State,
    (∀ (event tableId : Byte) (recs : List (Byte × Vector Byte 8)) (tail : Bytes), tail.length < 9 →
      fits s.cfg.bufCap (2 + 9 * recs.length + tail.length) →
      exec (.stsRgb ([event, tableId] ++ recs.flatMap (fun p => p.1 :: p.2.toList) ++ tail)) s = .next { s with
        status := 0x00#8,
        out := .rgbs (recs.map fun p =>
          { tableId := tableId, deviceId := p.1, raw := p.2.toList, mode := p.2[0], red := p.2[1], green := p.2[2],
            blue := p.2[3], autoOff := p.2[4], interval := BitVec.ofNat 16 (p.2[5].toNat * 256 + p.2[6].toNat),
            isOn := p.2[0] ≠ 0x00#8, effect := effectLabel p.2[0] }) }) ∧
    (∀ event : Bytes, event.length < 2 → fits s.cfg.bufCap event.length →
      exec (.stsRgb event) s = .next { s with status := 0x00#8, out := .rgbs [] }) ∧
    ∀ event : Bytes, ¬ fits s.cfg.bufCap event.length →
      exec (.stsRgb event) s = .next { s with status := 0x87#8, out := .bytes [] }

/-- R175: the label function, nine values. -/
def Obligations.EffectLabelTable : Prop :=
  effectLabel 0 = .off ∧ effectLabel 1 = .solid ∧ effectLabel 2 = .blink ∧ effectLabel 4 = .jump3 ∧ effectLabel 5 = .jump7 ∧
  effectLabel 6 = .fade3 ∧ effectLabel 7 = .fade7 ∧ effectLabel 8 = .rainbow ∧
  ∀ m : Byte, m ∉ ([0, 1, 2, 4, 5, 6, 7, 8] : List Byte) → effectLabel m = .unknown

/-! ### Fixed two-part reassembly -/

/-- R191: CHK.SETTMO writes TIMEOUT_MS and nothing else but the latches. -/
def Obligations.SetTimeout : Prop :=
  (∀ q : Request, q.opsel = 0xB4#8 → decode q = .ok (.chkSetTmo q.fields.timeout)) ∧
  ∀ (s : State) (timeout : Nat), timeout < 2 ^ s.cfg.tsW →
    exec (.chkSetTmo timeout) s = .next { s with timeoutMs := some timeout, status := 0x00#8, out := .bytes [] }

/-- R192 to R195, R190: CHK.PUSH2, every row of the table of R195. The age is `now - ts`, and where `now` is less
than the stored time it wraps modulo 2^TS_W. The two failures do not depend on BUF_CAP. Where it binds CHK.PUSH2 (log 16),
it must admit 20 bytes for the other rows; InputOverBufCapIsRefused says what happens where it does not. -/
def Obligations.PushFixedFragment : Prop :=
  (∀ q : Request, q.opsel = 0xB0#8 → decode q = .ok (.chkPush2 q.fields.now q.input)) ∧
  ∀ (s : State) (now : Nat) (f : Bytes), now < 2 ^ s.cfg.tsW →
    let bound : Prop := capBinds s.cfg = true → fits s.cfg.bufCap f.length
    (f.length ≠ 20 → exec (.chkPush2 now f) s = .next { s with status := 0x80#8, out := .bytes [] }) ∧
    (f.length = 20 → s.fix = none → bound →
      exec (.chkPush2 now f) s =
        .next { s with fix := some { data := f, ts := now }, status := 0x01#8, out := .bytes [] }) ∧
    (f.length = 20 → s.fix ≠ none → s.timeoutMs = none →
      exec (.chkPush2 now f) s = .next { s with status := 0x8A#8, out := .bytes [] }) ∧
    ∀ (held : FixBuffer) (timeout : Nat), f.length = 20 → bound → s.fix = some held → held.ts < 2 ^ s.cfg.tsW →
      s.timeoutMs = some timeout →
      let age := if held.ts ≤ now then now - held.ts else 2 ^ s.cfg.tsW - (held.ts - now)
      (timeout < age → exec (.chkPush2 now f) s =
        .next { s with fix := some { data := f, ts := now }, status := 0x02#8, out := .bytes [] }) ∧
      (age ≤ timeout → exec (.chkPush2 now f) s =
        .next { s with fix := none, status := 0x00#8, out := .bytes (held.data ++ f) })

/-- R208 (i) to (iii): with FIX empty and TIMEOUT_MS = τ, A at time 0 and B at τ + 1 leaves B held and emits
nothing; B at any time up to τ emits A ‖ B and leaves FIX empty. Where BUF_CAP binds CHK.PUSH2 (log 16), it admits
20 bytes. -/
def Obligations.ReassemblyTimeout : Prop :=
  ∀ (s : State) (timeout : Nat) (a b : Bytes), s.fix = none → s.timeoutMs = some timeout → timeout + 1 < 2 ^ s.cfg.tsW →
    a.length = 20 → b.length = 20 → (capBinds s.cfg = true → fits s.cfg.bufCap 20) →
    execAll [.chkPush2 0 a, .chkPush2 (timeout + 1) b] s =
      .next { s with fix := some { data := b, ts := timeout + 1 }, status := 0x02#8, out := .bytes [] } ∧
    ∀ t : Nat, t ≤ timeout → execAll [.chkPush2 0 a, .chkPush2 t b] s =
      .next { s with fix := none, status := 0x00#8, out := .bytes (a ++ b) }

/-- R196, R203: CHK.EVICT2 empties FIX; CHK.RESET empties FIX and KPEND and keeps TIMEOUT_MS; both also where
nothing is stored. -/
def Obligations.EvictAndReset : Prop :=
  (∀ q : Request, q.opsel = 0xB1#8 → decode q = .ok .chkEvict2) ∧
  (∀ q : Request, q.opsel = 0xB6#8 → decode q = .ok .chkReset) ∧
  ∀ s : State,
    exec .chkEvict2 s = .next { s with fix := none, status := 0x00#8, out := .bytes [] } ∧
    exec .chkReset s = .next { s with fix := none, kpend := [], status := 0x00#8, out := .bytes [] }

/-! ### Keyed multi-part reassembly -/

/-- R198, R78: within BUF_CAP, CHK.PUSHK refuses a fragment that KDET rejects with ERR_NOT_RECOGNISED and changes nothing,
whatever KDET is. Every KDET asks for the whole header and the bytes R197 reads. The clause on the header test, for
every choice of its parameters, is the model's choice (log 13) where KHDR_LEN does not cover KMARK_OFF, KTYPE_OFF or
KQID_OFF: there R198's own test would read beyond the fragment, and the model lets such a byte match nothing and joins
R198's length requirement to the test. With the default header (R9), which covers them, and no limit, exactly
`[0x00, type, 0x02, 0xE0..0xE9] ‖ payload` is accepted and everything else refused. -/
def Obligations.KeyedDetection : Prop :=
  (∀ (s : State) (now : Nat) (f : Bytes), fits s.cfg.bufCap f.length → kdet s.cfg f = false →
    exec (.chkPushK now f) s = .next { s with status := 0x86#8, out := .bytes [] }) ∧
  (∀ (c : Config) (f : Bytes), kdet c f = true →
    c.khdrLen ≤ f.length ∧ c.ktypeOff < f.length ∧ c.kqidOff < f.length) ∧
  (∀ (c : Config) (f : Bytes), c.kdet = .header →
    (kdet c f = true ↔ c.khdrLen ≤ f.length ∧ c.ktypeOff < f.length ∧ f[0]? = some 0x00#8 ∧ f[c.kmarkOff]? = some c.kmark ∧
      ∃ q : Byte, f[c.kqidOff]? = some q ∧ c.kqidLo.toNat ≤ q.toNat ∧ q.toNat ≤ c.kqidHi.toNat)) ∧
  ∀ (s : State) (now : Nat) (f : Bytes), s.cfg = { s.cfg with
      kdet := .header, khdrLen := 4, ktypeOff := 1, kmarkOff := 2, kqidOff := 3, kmark := 0x02#8, kqidLo := 0xE0#8,
      kqidHi := 0xE9#8, bufCap := none, kslots := none, kfrags := none } →
    let headed : Prop :=
      ∃ (type q : Byte) (payload : Bytes), f = 0x00#8 :: type :: 0x02#8 :: q :: payload ∧ 0xE0 ≤ q.toNat ∧ q.toNat ≤ 0xE9
    ∃ t : State, exec (.chkPushK now f) s = .next t ∧
      (headed → t.status.getLsbD 7 = false) ∧
      (¬ headed → t = { s with status := 0x86#8, out := .bytes [] })

/-- R199, a non-final fragment: it is appended to its query's entry, which keeps the time of its first fragment;
every other entry is untouched. It needs room in its entry (KFRAGS), and in the map if the key is new (KSLOTS). OPSEL
is 0xB2. -/
def Obligations.PushKeyedFragment : Prop :=
  (∀ q : Request, q.opsel = 0xB2#8 → decode q = .ok (.chkPushK q.fields.now q.input)) ∧
  ∀ (s : State) (now : Nat) (f : Bytes), now < 2 ^ s.cfg.tsW → kdet s.cfg f = true → fits s.cfg.bufCap f.length →
    fragType s.cfg f ≠ 0x0A#8 →
    let q := fragQid s.cfg f
    let e : PendingEntry := match kpendFind s.kpend q with
      | some old => { frags := old.frags ++ [f], ts := old.ts }
      | none => { frags := [f], ts := now }
    fits s.cfg.kfrags e.frags.length → (kpendFind s.kpend q = none → ∀ n, s.cfg.kslots = some n → s.kpend.length < n) →
    ∃ m : PendingMap, exec (.chkPushK now f) s = .next { s with kpend := m, status := 0x01#8, out := .bytes [] } ∧
      ∀ q', kpendFind m q' = if q' = q then some e else kpendFind s.kpend q'

/-- R199, R200, a final fragment: the record of all the query's fragments in arrival order, the final one included,
with the time of the first; the query's entry is gone and every other entry is untouched. It needs no slot. -/
def Obligations.FinalKeyedFragmentCompletes : Prop :=
  ∀ (s : State) (now : Nat) (f : Bytes), now < 2 ^ s.cfg.tsW → kdet s.cfg f = true → fits s.cfg.bufCap f.length →
    fragType s.cfg f = 0x0A#8 →
    let q := fragQid s.cfg f
    let e : PendingEntry := match kpendFind s.kpend q with
      | some old => { frags := old.frags ++ [f], ts := old.ts }
      | none => { frags := [f], ts := now }
    fits s.cfg.kfrags e.frags.length →
    ∃ m : PendingMap, exec (.chkPushK now f) s = .next { s with
        kpend := m, status := 0x00#8, out := .completed { key := q, complete := true, frags := e.frags, ts := e.ts } } ∧
      ∀ q', kpendFind m q' = if q' = q then none else kpendFind s.kpend q'

/-- R199, R47: a fragment that would exceed KFRAGS, or a non-final fragment of a new key with KSLOTS entries already
there, is ERR_CAPACITY and changes nothing. -/
def Obligations.KeyedLimits : Prop :=
  ∀ (s : State) (now : Nat) (f : Bytes) (n : Nat), kdet s.cfg f = true → fits s.cfg.bufCap f.length →
    let q := fragQid s.cfg f
    let held : Nat := match kpendFind s.kpend q with
      | some old => old.frags.length
      | none => 0
    (s.cfg.kfrags = some n → n ≤ held →
      exec (.chkPushK now f) s = .next { s with status := 0x87#8, out := .bytes [] }) ∧
    (s.cfg.kslots = some n → n ≤ s.kpend.length → kpendFind s.kpend q = none → fragType s.cfg f ≠ 0x0A#8 →
      exec (.chkPushK now f) s = .next { s with status := 0x87#8, out := .bytes [] })

/-- R199, R206: the time of a fragment is used only where it creates its query's entry; for a query that is already
pending, any `now` gives the same. Keyed mode has no timeout. -/
def Obligations.KeyedTimeIsUsedOnceOnly : Prop :=
  ∀ (s : State) (now now' : Nat) (f : Bytes), kpendFind s.kpend (fragQid s.cfg f) ≠ none →
    exec (.chkPushK now f) s = exec (.chkPushK now' f) s

/-- R205: a query that is idle, fed its non-final fragments and then its final one, completes exactly then, with all
its fragments in arrival order and the time of the first, and leaves no pending state of its own and every other
query, FIX and TIMEOUT_MS untouched. -/
def Obligations.KeyedQueryRunsToCompletion : Prop :=
  ∀ (s : State) (q : Byte) (now₀ now₁ : Nat) (first final : Bytes) (middle : List (Nat × Bytes)),
    kpendFind s.kpend q = none → s.cfg.bufCap = none → s.cfg.kslots = none → s.cfg.kfrags = none → now₀ < 2 ^ s.cfg.tsW →
    (∀ f ∈ first :: final :: middle.map Prod.snd, kdet s.cfg f = true ∧ fragQid s.cfg f = q) →
    (∀ f ∈ first :: middle.map Prod.snd, fragType s.cfg f ≠ 0x0A#8) → fragType s.cfg final = 0x0A#8 →
    (∃ m : PendingMap, execAll (.chkPushK now₀ first :: middle.map (fun p => .chkPushK p.1 p.2)) s =
      .next { s with kpend := m, status := 0x01#8, out := .bytes [] }) ∧
    ∃ m : PendingMap,
      execAll (.chkPushK now₀ first :: middle.map (fun p => .chkPushK p.1 p.2) ++ [.chkPushK now₁ final]) s =
        .next { s with
          kpend := m, status := 0x00#8,
          out := .completed { key := q, complete := true, frags := first :: middle.map Prod.snd ++ [final], ts := now₀ } } ∧
      ∀ q', kpendFind m q' = if q' = q then none else kpendFind s.kpend q'

/-- R201: CHK.EVICTK removes the key's entry, if there is one, and no other. -/
def Obligations.EvictKey : Prop :=
  (∀ q : Request, q.opsel = 0xB3#8 → decode q = .ok (.chkEvictK q.fields.key8)) ∧
  ∀ (s : State) (key : Byte), ∃ m : PendingMap,
    exec (.chkEvictK key) s = .next { s with kpend := m, status := 0x00#8, out := .bytes [] } ∧
    (∀ q, kpendFind m q = if q = key then none else kpendFind s.kpend q) ∧
    (kpendFind s.kpend key = none → m = s.kpend)

/-- R202: CHK.PEEK reports whether something is pending, since when, and how many fragments, and writes nothing but
the latches. -/
def Obligations.PeekReportsWhatIsPending : Prop :=
  (∀ q : Request, q.opsel = 0xB7#8 → decode q = .ok (.chkPeek q.fields.keyed q.fields.key8)) ∧
  ∀ (s : State) (key : Byte),
    (s.fix = none → exec (.chkPeek false key) s = .next { s with status := 0x00#8, out := .peek false 0 0 }) ∧
    (∀ held, s.fix = some held →
      exec (.chkPeek false key) s = .next { s with status := 0x00#8, out := .peek true held.ts 1 }) ∧
    (kpendFind s.kpend key = none → exec (.chkPeek true key) s = .next { s with status := 0x00#8, out := .peek false 0 0 }) ∧
    (∀ e, kpendFind s.kpend key = some e →
      exec (.chkPeek true key) s = .next { s with status := 0x00#8, out := .peek true e.ts e.frags.length })

/-! ### Query-response decode -/

/-- R204: QRD.DECODE of fragments of which one is shorter than KHDR_LEN is ERR_NO_READING with cause
ERR_NOT_RECOGNISED; of whole fragments it is COBS.DEC of their joined payloads, then TEA.DECBUF if asked for, then the
first byte clamped to 100; the failure of a stage is ERR_NO_READING with that stage's own code as cause, and an empty
frame has cause ERR_SHORT. Where BUF_CAP binds QRD.DECODE itself, a list that exceeds it, headers included, gives
ERR_CAPACITY in the place of the level, and every other failure as before: the model's choice, log 16. -/
def Obligations.QueryDecodeChainsItsStages : Prop :=
  (∀ q : Request, q.opsel = 0xB5#8 →
    decode q = .ok (.qrdDecode (if q.fields.cs = some false then false else true) q.fields.decrypt q.fields.keyBytes q.inputList)) ∧
  (∀ (s : State) (cs decrypt : Bool) (key : Bytes) (fragments : List Bytes), (∃ f ∈ fragments, f.length < s.cfg.khdrLen) →
    exec (.qrdDecode cs decrypt key fragments) s = .next { s with status := 0x88#8, out := .bytes [0x86#8] }) ∧
  ∀ (s : State) (cs decrypt : Bool) (key : Bytes) (parts : List (Bytes × Bytes)),
    (∀ p ∈ parts, p.1.length = s.cfg.khdrLen) →
    let request : Instr := .qrdDecode cs decrypt key (parts.map fun p => p.1 ++ p.2)
    let bound : Prop := capBinds s.cfg = true → fits s.cfg.bufCap (parts.map fun p => p.1 ++ p.2).flatten.length
    let noReading (cause : Byte) : Prop := exec request s = .next { s with status := 0x88#8, out := .bytes [cause] }
    let level (frame : Bytes) : Prop :=
      (frame = [] → noReading 0x82#8) ∧
      ∀ b rest, frame = b :: rest →
        (bound → ∃ v : Byte, v.toNat = min b.toNat 100 ∧
          exec request s = .next { s with status := 0x00#8, out := .u8 v }) ∧
        (¬ bound → exec request s = .next { s with status := 0x87#8, out := .bytes [] })
    ∃ t : State, exec (.cobsDec cs (parts.flatMap Prod.snd)) s = .next t ∧
      (t.status ≠ 0x00#8 → noReading t.status) ∧
      (t.status = 0x00#8 → ∃ frame : Bytes, t.out = .bytes frame ∧
        (decrypt = false → level frame) ∧
        (decrypt = true → ∃ t' : State, exec (.teaDecBuf key frame) s = .next t' ∧
          (t'.status ≠ 0x00#8 → noReading t'.status) ∧
          (t'.status = 0x00#8 → ∃ plain : Bytes, t'.out = .bytes plain ∧ level plain)))

/-- R204 over R106 and R107: a non-empty frame stuffed in any legal grouping (COBS.ENC's among them), cut into pieces
anywhere and each piece put behind a header, is read by QRD.DECODE without decryption as its first byte clamped to 100,
whatever the key is. Where BUF_CAP binds QRD.DECODE itself (log 16), the whole list fits it. -/
def Obligations.QueryDecodeReadsAFragmentedFrame : Prop :=
  ∀ (s : State) (cs : Bool) (level : Byte) (rest key : Bytes) (leading : Nat) (gs : List CobsGroup) (parts : List (Bytes × Bytes)),
    (∀ g ∈ gs, g.legal) →
    plainOf gs = level :: rest ++ (if cs then [checksum8 s.cfg (level :: rest)] else []) →
    (∀ p ∈ parts, p.1.length = s.cfg.khdrLen) →
    parts.flatMap Prod.snd = List.replicate leading 0x00#8 ++ streamOf gs ++ [0x00#8] →
    fits s.cfg.bufCap (leading + (streamOf gs).length + 1) → fits s.cfg.bufCap (plainOf gs).length →
    (capBinds s.cfg = true → fits s.cfg.bufCap (parts.map fun p => p.1 ++ p.2).flatten.length) →
    exec (.qrdDecode cs false key (parts.map fun p => p.1 ++ p.2)) s =
      .next { s with status := 0x00#8, out := .u8 (if level.toNat ≤ 100 then level else 100#8) }
end

