-- ==== Sys2Proof/Laws/State.lean ====
section
/-!
SUPPORT. One lemma for each field of State under each update, so that no later proof unfolds one.
-/

namespace Sys2Proof.Machine

variable (s : State)

@[simp] theorem State.setTimeout_cfg (t : Option Nat) : (s.setTimeout t).cfg = s.cfg := rfl

@[simp] theorem State.setTimeout_host (t : Option Nat) : (s.setTimeout t).host = s.host := rfl

@[simp] theorem State.setTimeout_timeoutMs (t : Option Nat) : (s.setTimeout t).timeoutMs = t := rfl

@[simp] theorem State.setTimeout_fix (t : Option Nat) : (s.setTimeout t).fix = s.fix := rfl

@[simp] theorem State.setTimeout_kpend (t : Option Nat) : (s.setTimeout t).kpend = s.kpend := rfl

@[simp] theorem State.setTimeout_status (t : Option Nat) : (s.setTimeout t).status = s.status := rfl

@[simp] theorem State.setTimeout_out (t : Option Nat) : (s.setTimeout t).out = s.out := rfl

@[simp] theorem State.setFix_cfg (f : Option FixBuffer) : (s.setFix f).cfg = s.cfg := rfl

@[simp] theorem State.setFix_host (f : Option FixBuffer) : (s.setFix f).host = s.host := rfl

@[simp] theorem State.setFix_timeoutMs (f : Option FixBuffer) : (s.setFix f).timeoutMs = s.timeoutMs := rfl

@[simp] theorem State.setFix_fix (f : Option FixBuffer) : (s.setFix f).fix = f := rfl

@[simp] theorem State.setFix_kpend (f : Option FixBuffer) : (s.setFix f).kpend = s.kpend := rfl

@[simp] theorem State.setFix_status (f : Option FixBuffer) : (s.setFix f).status = s.status := rfl

@[simp] theorem State.setFix_out (f : Option FixBuffer) : (s.setFix f).out = s.out := rfl

@[simp] theorem State.setKpend_cfg (m : PendingMap) : (s.setKpend m).cfg = s.cfg := rfl

@[simp] theorem State.setKpend_host (m : PendingMap) : (s.setKpend m).host = s.host := rfl

@[simp] theorem State.setKpend_timeoutMs (m : PendingMap) : (s.setKpend m).timeoutMs = s.timeoutMs := rfl

@[simp] theorem State.setKpend_fix (m : PendingMap) : (s.setKpend m).fix = s.fix := rfl

@[simp] theorem State.setKpend_kpend (m : PendingMap) : (s.setKpend m).kpend = m := rfl

@[simp] theorem State.setKpend_status (m : PendingMap) : (s.setKpend m).status = s.status := rfl

@[simp] theorem State.setKpend_out (m : PendingMap) : (s.setKpend m).out = s.out := rfl

@[simp] theorem State.setHost_cfg (h : List HostAction) : (s.setHost h).cfg = s.cfg := rfl

@[simp] theorem State.setHost_host (h : List HostAction) : (s.setHost h).host = h := rfl

@[simp] theorem State.setHost_timeoutMs (h : List HostAction) : (s.setHost h).timeoutMs = s.timeoutMs := rfl

@[simp] theorem State.setHost_fix (h : List HostAction) : (s.setHost h).fix = s.fix := rfl

@[simp] theorem State.setHost_kpend (h : List HostAction) : (s.setHost h).kpend = s.kpend := rfl

@[simp] theorem State.setHost_status (h : List HostAction) : (s.setHost h).status = s.status := rfl

@[simp] theorem State.setHost_out (h : List HostAction) : (s.setHost h).out = s.out := rfl

@[simp] theorem State.respond_cfg (st : Status) (o : Out) : (s.respond st o).cfg = s.cfg := rfl

@[simp] theorem State.respond_host (st : Status) (o : Out) : (s.respond st o).host = s.host := rfl

@[simp] theorem State.respond_timeoutMs (st : Status) (o : Out) : (s.respond st o).timeoutMs = s.timeoutMs := rfl

@[simp] theorem State.respond_fix (st : Status) (o : Out) : (s.respond st o).fix = s.fix := rfl

@[simp] theorem State.respond_kpend (st : Status) (o : Out) : (s.respond st o).kpend = s.kpend := rfl

@[simp] theorem State.respond_status (st : Status) (o : Out) : (s.respond st o).status = st.code := rfl

@[simp] theorem State.respond_out (st : Status) (o : Out) : (s.respond st o).out = o := rfl

@[simp] theorem State.fail_cfg (e : Status) : (s.fail e).cfg = s.cfg := rfl

@[simp] theorem State.fail_host (e : Status) : (s.fail e).host = s.host := rfl

@[simp] theorem State.fail_timeoutMs (e : Status) : (s.fail e).timeoutMs = s.timeoutMs := rfl

@[simp] theorem State.fail_fix (e : Status) : (s.fail e).fix = s.fix := rfl

@[simp] theorem State.fail_kpend (e : Status) : (s.fail e).kpend = s.kpend := rfl

@[simp] theorem State.fail_status (e : Status) : (s.fail e).status = e.code := rfl

@[simp] theorem State.fail_out (e : Status) : (s.fail e).out = emptyOut := rfl

@[simp] theorem State.failWithCause_cfg (e c : Status) : (s.failWithCause e c).cfg = s.cfg := rfl

@[simp] theorem State.failWithCause_host (e c : Status) : (s.failWithCause e c).host = s.host := rfl

@[simp] theorem State.failWithCause_timeoutMs (e c : Status) : (s.failWithCause e c).timeoutMs = s.timeoutMs := rfl

@[simp] theorem State.failWithCause_fix (e c : Status) : (s.failWithCause e c).fix = s.fix := rfl

@[simp] theorem State.failWithCause_kpend (e c : Status) : (s.failWithCause e c).kpend = s.kpend := rfl

@[simp] theorem State.failWithCause_status (e c : Status) : (s.failWithCause e c).status = e.code := rfl

@[simp] theorem State.failWithCause_out (e c : Status) : (s.failWithCause e c).out = .bytes [c.code] := rfl

@[simp] theorem State.rejectSelector_cfg : s.rejectSelector.cfg = s.cfg := rfl

@[simp] theorem State.rejectSelector_host : s.rejectSelector.host = s.host := rfl

@[simp] theorem State.rejectSelector_timeoutMs : s.rejectSelector.timeoutMs = s.timeoutMs := rfl

@[simp] theorem State.rejectSelector_fix : s.rejectSelector.fix = s.fix := rfl

@[simp] theorem State.rejectSelector_kpend : s.rejectSelector.kpend = s.kpend := rfl

@[simp] theorem State.rejectSelector_status : s.rejectSelector.status = Status.errBadOp.code := rfl

@[simp] theorem State.rejectSelector_out : s.rejectSelector.out = emptyOut := rfl

@[simp] theorem State.hardReset_cfg : s.hardReset.cfg = s.cfg := rfl

@[simp] theorem State.hardReset_host : s.hardReset.host = s.host := rfl

@[simp] theorem State.hardReset_timeoutMs : s.hardReset.timeoutMs = s.cfg.timeoutReset := rfl

@[simp] theorem State.hardReset_fix : s.hardReset.fix = none := rfl

@[simp] theorem State.hardReset_kpend : s.hardReset.kpend = [] := rfl

@[simp] theorem State.hardReset_status : s.hardReset.status = Status.ok.code := rfl

@[simp] theorem State.hardReset_out : s.hardReset.out = emptyOut := rfl

@[simp] theorem State.pushAction_cfg (a : HostAction) : (s.pushAction a).cfg = s.cfg := rfl

@[simp] theorem State.pushAction_host (a : HostAction) : (s.pushAction a).host = a :: s.host := rfl

@[simp] theorem State.pushAction_timeoutMs (a : HostAction) : (s.pushAction a).timeoutMs = s.timeoutMs := rfl

@[simp] theorem State.pushAction_fix (a : HostAction) : (s.pushAction a).fix = s.fix := rfl

@[simp] theorem State.pushAction_kpend (a : HostAction) : (s.pushAction a).kpend = s.kpend := rfl

@[simp] theorem State.pushAction_status (a : HostAction) : (s.pushAction a).status = s.status := rfl

@[simp] theorem State.pushAction_out (a : HostAction) : (s.pushAction a).out = s.out := rfl

/-- `withFetchWord` writes the host's list and nothing else. -/
theorem State.withFetchWord_eq (nbits w : Nat) :
    s.withFetchWord nbits w = { s with host := .issue (Request.ofWord nbits w) :: s.host } := rfl

end Sys2Proof.Machine
end

