-- ==== Sys2Proof/Laws/Ops.lean ====
section
/-!
SUPPORT. What each shared operation of Machine/Ops.lean can do, said once: responses, capacity tests, the
pending map and its canonical form, the host's next action.
-/

namespace Sys2Proof.Machine

/-! ### STATUS -/

theorem Status.code_injective (a b : Status) (h : a.code = b.code) : a = b := by
  revert h; cases a <;> cases b <;> decide

@[simp] theorem Status.code_inj (a b : Status) : a.code = b.code ↔ a = b :=
  ⟨Status.code_injective a b, fun h => h ▸ rfl⟩

/-- R226: OK, OK_PENDING and OK_RESYNC are the codes with bit 7 clear. -/
theorem Status.isFailure_code (a : Status) :
    isFailure a.code = false ↔ a = .ok ∨ a = .okPending ∨ a = .okResync := by
  cases a <;> decide

/-! ### Responses -/

/-- What ending an operation writes, and that it writes nothing else (R26). -/
theorem State.respond_eq (s : State) (st : Status) (o : Out) :
    s.respond st o = { s with status := st.code, out := o } := rfl

/-- A failure writes STATUS and empties OUT, and nothing else (R14, R221). -/
theorem State.fail_eq (s : State) (e : Status) : s.fail e = { s with status := e.code, out := .bytes [] } := rfl

theorem State.failWithCause_eq (s : State) (e c : Status) :
    s.failWithCause e c = { s with status := e.code, out := .bytes [c.code] } := rfl

@[simp] theorem State.finish_ok (s : State) (b : Bytes) : s.finish (.ok b) = s.respond .ok (.bytes b) := rfl

@[simp] theorem State.finish_error (s : State) (e : Status) : s.finish (.error e) = s.fail e := rfl

/-- `finish` writes the latches and nothing else. -/
theorem State.finish_eq (s : State) (r : Except Status Bytes) :
    s.finish r = { s with status := (s.finish r).status, out := (s.finish r).out } := by
  cases r <;> rfl

theorem State.hardReset_eq (s : State) :
    s.hardReset = { cfg := s.cfg, host := s.host, timeoutMs := s.cfg.timeoutReset, fix := none, kpend := [],
                    status := 0x00#8, out := .bytes [] } := rfl

/-! ### Capacity (R47) -/

@[simp] theorem overCap_eq_false (limit : Option Nat) (n : Nat) : overCap limit n = false ↔ fits limit n := by
  cases limit <;> simp [overCap, fits]

@[simp] theorem overCap_eq_true (limit : Option Nat) (n : Nat) :
    overCap limit n = true ↔ ∃ c, limit = some c ∧ c < n := by
  cases limit <;> simp [overCap]

/-- The two readings of BUF_CAP that are known (log 16). -/
theorem capBinds_everyOperation {c : Config} (h : c.capScope = .everyOperation) : capBinds c = true := by
  simp only [capBinds, h]

theorem capBinds_listedOperations {c : Config} (h : c.capScope = .listedOperations) : capBinds c = false := by
  simp only [capBinds, h]

/-- Where BUF_CAP binds every operation, an IN that fits is within it; elsewhere every IN is (log 16). -/
@[simp] theorem overInputCap_eq_false (c : Config) (n : Nat) :
    overInputCap c n = false ↔ (capBinds c = true → fits c.bufCap n) := by
  cases h : capBinds c <;> simp [overInputCap, h]

theorem overInputCap_eq_true (c : Config) (n : Nat) :
    overInputCap c n = true ↔ capBinds c = true ∧ ¬ fits c.bufCap n := by
  rw [← Bool.not_eq_false, overInputCap_eq_false, Classical.not_imp]

/-- Within BUF_CAP, or where it does not bind, the test changes nothing. -/
theorem State.withinInputCap_of_fits {s : State} {n : Nat} (h : capBinds s.cfg = true → fits s.cfg.bufCap n)
    (t : State) : s.withinInputCap n t = t := by
  rw [State.withinInputCap, (overInputCap_eq_false _ _).2 h, if_neg Bool.false_ne_true]

/-- An IN over a BUF_CAP that binds is ERR_CAPACITY. -/
theorem State.withinInputCap_of_over {s : State} {n : Nat} (h : capBinds s.cfg = true) (h' : ¬ fits s.cfg.bufCap n)
    (t : State) : s.withinInputCap n t = s.fail .errCapacity :=
  if_pos ((overInputCap_eq_true _ _).2 ⟨h, h'⟩)

@[simp] theorem atCap_eq_true (limit : Option Nat) (n : Nat) :
    atCap limit n = true ↔ ∃ c, limit = some c ∧ c ≤ n := by
  cases limit <;> simp [atCap]

@[simp] theorem fits_none (n : Nat) : fits none n := by simp [fits]

theorem fits_mono {limit : Option Nat} {m n : Nat} (h : m ≤ n) (hn : fits limit n) : fits limit m :=
  fun c hc => le_trans h (hn c hc)

/-! ### The pending map (R25) -/

/-- Reading after a write: the written key has the new entry, every other key its old one. -/
theorem kpendFind_insert (m : PendingMap) (q : Byte) (e : PendingEntry) (q' : Byte) :
    kpendFind (kpendInsert m q e) q' = if q' = q then some e else kpendFind m q' := by
  induction m with
  | nil => simp [kpendInsert, kpendFind, eq_comm]
  | cons p rest ih =>
    obtain ⟨k, old⟩ := p
    unfold kpendInsert
    split
    · next h => subst h; simp only [kpendFind]; by_cases h' : q = q' <;> simp [h', eq_comm]
    · next h =>
      split
      · simp only [kpendFind]
        by_cases h' : q = q'
        · simp [h']
        · simp [h', Ne.symm h']
      · simp only [kpendFind, ih]
        by_cases h' : k = q'
        · subst h'; simp [Ne.symm h]
        · simp [h']

/-- Reading after a removal: the key has no entry, every other key its old one. -/
theorem kpendFind_remove (m : PendingMap) (q q' : Byte) :
    kpendFind (kpendRemove m q) q' = if q' = q then none else kpendFind m q' := by
  induction m with
  | nil => simp [kpendRemove, kpendFind]
  | cons p rest ih =>
    obtain ⟨k, old⟩ := p
    unfold kpendRemove at ih ⊢
    by_cases hk : k = q
    · subst hk
      simp only [ne_eq, not_true_eq_false, decide_false, List.filter_cons, Bool.false_eq_true, ↓reduceIte, ih, kpendFind]
      by_cases h : q' = k
      · simp [h]
      · simp [h, Ne.symm h]
    · simp only [ne_eq, hk, not_false_eq_true, decide_true, List.filter_cons, ↓reduceIte, kpendFind, ih]
      by_cases h : k = q'
      · subst h; simp [hk]
      · simp [h]

/-- An entry that is read is in the map. -/
theorem mem_of_kpendFind {m : PendingMap} {q : Byte} {e : PendingEntry} (h : kpendFind m q = some e) : (q, e) ∈ m := by
  induction m with
  | nil => simp [kpendFind] at h
  | cons p rest ih =>
    obtain ⟨k, old⟩ := p
    unfold kpendFind at h
    split at h
    · next hk => subst hk; simp_all
    · exact List.mem_cons_of_mem _ (ih h)

/-- A key without an entry has no pair in the map. -/
theorem not_mem_of_kpendFind_none {m : PendingMap} {q : Byte} (h : kpendFind m q = none) : ∀ p ∈ m, p.1 ≠ q := by
  induction m with
  | nil => simp
  | cons p rest ih =>
    obtain ⟨k, old⟩ := p
    unfold kpendFind at h
    split at h
    · simp at h
    · next hk =>
      intro p hp
      rcases List.mem_cons.1 hp with rfl | hp
      · exact hk
      · exact ih h p hp

/-- Every pair after a write is the written one or an old one. -/
theorem mem_kpendInsert {m : PendingMap} {q : Byte} {e : PendingEntry} {p : Byte × PendingEntry}
    (h : p ∈ kpendInsert m q e) : p = (q, e) ∨ p ∈ m := by
  induction m with
  | nil => simpa [kpendInsert] using h
  | cons hd rest ih =>
    obtain ⟨k, old⟩ := hd
    unfold kpendInsert at h
    split at h
    · rcases List.mem_cons.1 h with h | h
      · exact .inl h
      · exact .inr (List.mem_cons_of_mem _ h)
    · split at h
      · rcases List.mem_cons.1 h with h | h
        · exact .inl h
        · exact .inr h
      · rcases List.mem_cons.1 h with h | h
        · exact .inr (h ▸ List.mem_cons_self)
        · exact (ih h).imp id (List.mem_cons_of_mem _)

/-- Every pair after a removal is an old one with another key. -/
theorem mem_kpendRemove {m : PendingMap} {q : Byte} {p : Byte × PendingEntry} :
    p ∈ kpendRemove m q ↔ p ∈ m ∧ p.1 ≠ q := by
  simp [kpendRemove]

/-- The canonical form of a map with a first pair: its key is below the others, and the rest is canonical. -/
theorem kpendWf_cons (p : Byte × PendingEntry) (rest : PendingMap) :
    kpendWf (p :: rest) ↔ (∀ p' ∈ rest, p.1.toNat < p'.1.toNat) ∧ kpendWf rest := by
  simp only [kpendWf, List.map_cons, List.pairwise_cons, List.mem_map]
  exact and_congr_left fun _ => ⟨fun h p' hp => h _ ⟨p', hp, rfl⟩, fun h _ ⟨p', hp, he⟩ => he ▸ h p' hp⟩

/-- A write keeps the canonical form of KPEND. -/
theorem kpendWf_insert {m : PendingMap} (hm : kpendWf m) (q : Byte) (e : PendingEntry) : kpendWf (kpendInsert m q e) := by
  induction m with
  | nil => simp [kpendInsert, kpendWf]
  | cons hd rest ih =>
    obtain ⟨k, old⟩ := hd
    have hm' := (kpendWf_cons _ _).1 hm
    unfold kpendInsert
    split
    · next h => subst h; exact (kpendWf_cons _ _).2 hm'
    · next h =>
      split
      · next hlt =>
        have hlt' : q.toNat < k.toNat := hlt
        have : ∀ p ∈ (k, old) :: rest, q.toNat < p.1.toNat := by
          intro p hp
          rcases List.mem_cons.1 hp with rfl | hp
          · exact hlt'
          · exact lt_trans hlt' (hm'.1 p hp)
        exact (kpendWf_cons _ _).2 ⟨this, hm⟩
      · next hlt =>
        have hkq : k.toNat < q.toNat := by
          have h1 : ¬ q.toNat < k.toNat := hlt
          have h2 : q.toNat ≠ k.toNat := fun hq => h (BitVec.eq_of_toNat_eq hq)
          omega
        refine (kpendWf_cons _ _).2 ⟨fun p hp => ?_, ih hm'.2⟩
        rcases mem_kpendInsert hp with rfl | hp
        · exact hkq
        · exact hm'.1 p hp

/-- A removal keeps the canonical form of KPEND. -/
theorem kpendWf_remove {m : PendingMap} (hm : kpendWf m) (q : Byte) : kpendWf (kpendRemove m q) :=
  List.Pairwise.sublist (List.Sublist.map _ List.filter_sublist) hm

/-- The map after reset has its canonical form. -/
theorem kpendWf_reset : kpendWf State.reset.kpend := by simp [State.reset, kpendWf]

/-- A removal adds no entry. -/
theorem kpendRemove_length_le (m : PendingMap) (q : Byte) : (kpendRemove m q).length ≤ m.length :=
  List.length_filter_le _ _

/-- Removing an absent key changes nothing (R199, R201). -/
theorem kpendRemove_of_find_none {m : PendingMap} {q : Byte} (h : kpendFind m q = none) : kpendRemove m q = m := by
  unfold kpendRemove
  rw [List.filter_eq_self]
  intro p hp
  simpa using not_mem_of_kpendFind_none h p hp

/-- A write of a new key adds one entry. -/
theorem kpendInsert_length_of_none {m : PendingMap} {q : Byte} (h : kpendFind m q = none) (e : PendingEntry) :
    (kpendInsert m q e).length = m.length + 1 := by
  induction m with
  | nil => rfl
  | cons hd rest ih =>
    obtain ⟨k, old⟩ := hd
    unfold kpendFind at h
    split at h
    · simp at h
    · next hk =>
      unfold kpendInsert
      rw [if_neg (fun hq => hk hq.symm)]
      split
      · rfl
      · simp [ih h]

/-- A write of a key that has an entry adds none, in a map in canonical form. -/
theorem kpendInsert_length_of_some {m : PendingMap} {q : Byte} {old : PendingEntry} (hm : kpendWf m)
    (h : kpendFind m q = some old) (e : PendingEntry) : (kpendInsert m q e).length = m.length := by
  induction m with
  | nil => simp [kpendFind] at h
  | cons hd rest ih =>
    obtain ⟨k, v⟩ := hd
    have hm' := (kpendWf_cons _ _).1 hm
    unfold kpendFind at h
    unfold kpendInsert
    split at h
    · next hk => simp [hk]
    · next hk =>
      rw [if_neg (fun hq => hk hq.symm)]
      have hlt : k.toNat < q.toNat := hm'.1 _ (mem_of_kpendFind h)
      have : ¬ q < k := by
        intro hq
        have : q.toNat < k.toNat := hq
        omega
      rw [if_neg this]
      simp [ih hm'.2 h]

/-! ### The host's next action (R21) -/

theorem State.nextAction_nil {s : State} (h : s.host = []) : s.nextAction = none := by
  simp [State.nextAction, h]

theorem State.nextAction_cons {s : State} {a : HostAction} {rest : List HostAction} (h : s.host = a :: rest) :
    s.nextAction = some (a, s.setHost rest) := by
  simp [State.nextAction, h]

/-- What a step can do, said once: nothing is left and the block is idle; a reset; an operation; an unassigned
selector. -/
theorem step_cases (s : State) :
    (s.host = [] ∧ step s = .next s) ∨
    (∃ rest, s.host = .hardReset :: rest ∧ step s = .next (s.setHost rest).hardReset) ∨
    (∃ q rest i, s.host = .issue q :: rest ∧ decode q = .ok i ∧ step s = exec i (s.setHost rest)) ∨
    (∃ q rest e, s.host = .issue q :: rest ∧ decode q = .error e ∧ step s = .next (s.setHost rest).rejectSelector) := by
  match h : s.host with
  | [] => exact .inl ⟨rfl, by unfold step; rw [State.nextAction_nil h]⟩
  | .hardReset :: rest => exact .inr (.inl ⟨rest, rfl, by unfold step; rw [State.nextAction_cons h]⟩)
  | .issue q :: rest =>
    match hd : decode q with
    | .ok i => exact .inr (.inr (.inl ⟨q, rest, i, rfl, hd, by unfold step; simp only [State.nextAction_cons h, hd]⟩))
    | .error e => exact .inr (.inr (.inr ⟨q, rest, e, rfl, hd, by unfold step; simp only [State.nextAction_cons h, hd]⟩))

end Sys2Proof.Machine
end

