-- ==== Sys2Proof/Laws/Cipher.lean ====
section
/-!
SUPPORT. What the functions of Machine/Cipher.lean can do: the halves of a block, a round and its inverse, the
loops with their last round taken out, blocks as bytes, and the block loop of TEA.DECBUF.
-/

namespace Sys2Proof.Machine

/-! ### Blocks and halves (R127) -/

theorem Halves.toBlock_ofBlock (b : U64) : (Halves.ofBlock b).toBlock = b := by
  apply BitVec.eq_of_getLsbD_eq
  intro i hi
  simp only [Halves.ofBlock, Halves.toBlock, BitVec.getLsbD_append, BitVec.getLsbD_extractLsb']
  by_cases h : i < 32
  · simp [h]
  · have : i - 32 < 32 := by omega
    simp [h, this, show 32 + (i - 32) = i by omega]

theorem Halves.ofBlock_toBlock (h : Halves) : Halves.ofBlock h.toBlock = h := by
  obtain ⟨s, y⟩ := h
  have h1 : (s ++ y).extractLsb' 32 32 = s := by
    apply BitVec.eq_of_getLsbD_eq
    intro i hi
    rw [BitVec.getLsbD_extractLsb', BitVec.getLsbD_append]
    simp [hi]
  have h2 : (s ++ y).extractLsb' 0 32 = y := by
    apply BitVec.eq_of_getLsbD_eq
    intro i hi
    rw [BitVec.getLsbD_extractLsb', BitVec.getLsbD_append]
    simp [hi]
  simp only [Halves.ofBlock, Halves.toBlock, h1, h2]

/-! ### Rounds (R122, R123) -/

/-- A decrypt round with the same accumulator undoes an encrypt round. -/
theorem decRound_encRound (c : Config) (k : Subkeys) (acc : U32) (h : Halves) :
    decRound c k acc (encRound c k acc h) = h := by
  simp [decRound, encRound]

/-- An encrypt round with the same accumulator undoes a decrypt round. -/
theorem encRound_decRound (c : Config) (k : Subkeys) (acc : U32) (h : Halves) :
    encRound c k acc (decRound c k acc h) = h := by
  simp [decRound, encRound]

/-- The last round of TEA.ENC taken out: its accumulator is `acc + TEA_DELTA * TEA_ROUNDS`. -/
theorem encRounds_succ_last (c : Config) (k : Subkeys) (delta : U32) (n : Nat) (acc : U32) (h : Halves) :
    encRounds c k delta (n + 1) acc h =
      encRound c k (acc + delta * BitVec.ofNat 32 (n + 1)) (encRounds c k delta n acc h) := by
  induction n generalizing acc h with
  | zero => simp [encRounds]
  | succ n ih =>
    rw [encRounds, ih, encRounds]
    congr 1
    rw [BitVec.add_assoc]
    congr 1
    rw [show n + 1 + 1 = 1 + (n + 1) by omega, ← BitVec.ofNat_add_ofNat 1 (n + 1), BitVec.mul_add]
    simp

/-- The last round of TEA.DEC taken out. -/
theorem decRounds_succ_last (c : Config) (k : Subkeys) (delta : U32) (n : Nat) (acc : U32) (h : Halves) :
    decRounds c k delta (n + 1) acc h =
      decRound c k (acc - delta * BitVec.ofNat 32 n) (decRounds c k delta n acc h) := by
  induction n generalizing acc h with
  | zero => simp [decRounds]
  | succ n ih =>
    rw [decRounds, ih, decRounds]
    congr 1
    rw [show n + 1 = 1 + n by omega, ← BitVec.ofNat_add_ofNat 1 n, BitVec.mul_add]
    simp [BitVec.sub_sub]

/-- The accumulator TEA.DEC starts from. -/
theorem decryptStart_eq (l : TeaLiterals) :
    BitVec.ofNat 32 (l.delta.toNat * l.rounds) = l.delta * BitVec.ofNat 32 l.rounds := by
  apply BitVec.eq_of_toNat_eq
  simp [BitVec.toNat_mul, Nat.mul_mod]

/-! ### Blocks as bytes (R12, R127) -/

theorem be64dec_be64enc (v : U64) : be64dec (be64enc v) = v := by
  apply BitVec.eq_of_getLsbD_eq
  intro i hi
  simp only [be64dec, be64enc, List.foldl_cons, List.foldl_nil, BitVec.getLsbD_or, BitVec.getLsbD_shiftLeft,
    BitVec.getLsbD_setWidth, BitVec.getLsbD_extractLsb', BitVec.getLsbD_zero]
  interval_cases i <;> simp

theorem bytesToU64_u64ToBytes (o : ByteOrder) (v : U64) : bytesToU64 o (u64ToBytes o v) = v := by
  cases o <;> simp [bytesToU64, u64ToBytes, be64dec_be64enc]

theorem u64ToBytes_length (o : ByteOrder) (v : U64) : (u64ToBytes o v).length = 8 := by
  cases o <;> simp [u64ToBytes, be64enc]

/-- TEA.DECBUF takes its first 8 bytes as one block and goes on after them (R124). -/
theorem decryptBlocks_append (c : Config) (key : U64) (block rest : Bytes) (h : block.length = 8) :
    decryptBlocks c key (block ++ rest) =
      u64ToBytes c.byteOrder (teaDecrypt c key (bytesToU64 c.byteOrder block)) ++ decryptBlocks c key rest := by
  obtain ⟨b0, b1, b2, b3, b4, b5, b6, b7, rfl⟩ : ∃ b0 b1 b2 b3 b4 b5 b6 b7, block = [b0, b1, b2, b3, b4, b5, b6, b7] := by
    match block, h with
    | [b0, b1, b2, b3, b4, b5, b6, b7], _ => exact ⟨b0, b1, b2, b3, b4, b5, b6, b7, rfl⟩
  rfl

/-- TEA.DECBUF fails in two ways (R124). -/
theorem decryptBuffer_error {c : Config} {key data : Bytes} {e : Status} (h : decryptBuffer c key data = .error e) :
    e = .errCipherPrecond ∨ (e = .errCapacity ∧ c.bufCap ≠ none) := by
  unfold decryptBuffer at h
  split at h
  · next hh =>
    cases h
    obtain ⟨n, hn, _⟩ := (overCap_eq_true _ _).1 hh
    simp [hn]
  · split at h <;> cases h; simp

end Sys2Proof.Machine
end

