-- ==== Sys2Proof/Laws/Codec.lean ====
section
/-!
SUPPORT. What the byte-stuffing codec of Machine/Codec.lean can do, said once for each function: the runs, the
greedy groups of `stuff`, one step of the walk, the walk over a whole group and over a stream of groups.
-/

namespace Sys2Proof.Machine

/-! ### Code bytes (R64) -/

theorem codeByte_toNat {n k : Nat} (hn : n ≤ 63) (hk : k ≤ 3) : (codeByte n k).toNat = n + 64 * k := by
  simp only [codeByte, foldStep, BitVec.toNat_ofNat]
  omega

theorem and63_eq_zero (c : Byte) : c &&& 63#8 = 0x00#8 ↔ c.toNat % 64 = 0 := by
  rw [← BitVec.toNat_inj, BitVec.toNat_and]
  have := Nat.and_two_pow_sub_one_eq_mod c.toNat 6
  norm_num at this
  simp [this]

theorem shiftRight6_toNat (c : Byte) : (c >>> 6).toNat = c.toNat / 64 := by
  rw [BitVec.toNat_ushiftRight, Nat.shiftRight_eq_div_pow]

/-! ### Runs (R104) -/

/-- What `literalRun` finds: at most `most` bytes of the buffer, none of them a delimiter; and if it stopped short
of `most` before the end, the next byte is one. -/
theorem literalRun_spec (most : Nat) (buf : Bytes) :
    literalRun most buf ≤ most ∧ literalRun most buf ≤ buf.length ∧
    (∀ b ∈ buf.take (literalRun most buf), b ≠ 0x00#8) ∧
    (literalRun most buf < most → ∀ b, (buf.drop (literalRun most buf)).head? = some b → b = 0x00#8) := by
  induction most generalizing buf with
  | zero => simp [literalRun]
  | succ m ih =>
    cases buf with
    | nil => simp [literalRun]
    | cons b rest =>
      obtain ⟨h1, h2, h3, h4⟩ := ih rest
      unfold literalRun
      split
      · next h => simp [h]
      · next h =>
        refine ⟨by omega, by simp; omega, ?_, ?_⟩
        · intro x hx
          rw [List.take_succ_cons, List.mem_cons] at hx
          rcases hx with rfl | hx
          · exact h
          · exact h3 x hx
        · intro hlt x hx
          exact h4 (by omega) x (by simpa using hx)

/-- What `zeroRun` finds: at most `most` leading bytes, all delimiters; and if it stopped short of `most` before the
end, the next byte is none. -/
theorem zeroRun_spec (most : Nat) (buf : Bytes) :
    zeroRun most buf ≤ most ∧ zeroRun most buf ≤ buf.length ∧
    buf.take (zeroRun most buf) = List.replicate (zeroRun most buf) 0x00#8 ∧
    (zeroRun most buf < most → ∀ b, (buf.drop (zeroRun most buf)).head? = some b → b ≠ 0x00#8) := by
  induction most generalizing buf with
  | zero => simp [zeroRun]
  | succ m ih =>
    cases buf with
    | nil => simp [zeroRun]
    | cons b rest =>
      obtain ⟨h1, h2, h3, h4⟩ := ih rest
      unfold zeroRun
      split
      · next h =>
        refine ⟨by omega, by simp; omega, ?_, ?_⟩
        · rw [List.take_succ_cons, List.replicate_succ, h3, h]
        · intro hlt x hx
          exact h4 (by omega) x (by simpa using hx)
      · next h => simp [h]

/-- The first group R104 cuts from a non-empty buffer is legal, is at least one byte of it, and stands for the bytes
it consumes. -/
theorem firstGroup_spec (b : Byte) (rest : Bytes) :
    let buf := b :: rest
    let n := literalRun maxRun buf
    let k := zeroRun maxFold (buf.drop n)
    let g : CobsGroup := { lits := buf.take n, zeros := k }
    g.legal ∧ g.stuffed = codeByte n k :: buf.take n ∧ g.plain ++ (buf.drop n).drop k = buf ∧
      ((buf.drop n).drop k).length < buf.length ∧
      (∀ x, ((buf.drop n).drop k).head? = some x → (n = 63 ∨ k ≠ 0) ∧ (k = 3 ∨ x ≠ 0x00#8)) := by
  intro buf n k g
  obtain ⟨l1, l2, l3, l4⟩ := literalRun_spec maxRun buf
  obtain ⟨z1, z2, z3, z4⟩ := zeroRun_spec maxFold (buf.drop n)
  have hlen : g.lits.length = n := by simp [g, n]; exact l2
  have hnk : n ≠ 0 ∨ k ≠ 0 := by
    by_contra hcon
    push Not at hcon
    have h1 := l4 (by show n < 63; omega) b (by show (buf.drop n).head? = _; rw [hcon.1]; rfl)
    have h2 := z4 (by show k < 3; omega) b (by show ((buf.drop n).drop k).head? = _; rw [hcon.1, hcon.2]; rfl)
    exact h2 h1
  refine ⟨⟨?_, ?_, ?_, ?_⟩, ?_, ?_, ?_, ?_⟩
  · rw [hlen]; exact l1
  · exact z1
  · rcases hnk with h | h
    · left; intro h0; rw [h0] at hlen; exact h (by simpa using hlen.symm)
    · exact .inr h
  · exact l3
  · show BitVec.ofNat 8 (g.lits.length + 64 * g.zeros) :: g.lits = _
    rw [hlen]; rfl
  · show buf.take n ++ List.replicate k 0x00#8 ++ _ = buf
    rw [← z3, List.append_assoc]
    show _ ++ ((buf.drop n).take k ++ (buf.drop n).drop k) = _
    rw [List.take_append_drop, List.take_append_drop]
  · simp only [List.length_drop]
    have : buf.length = rest.length + 1 := rfl
    omega
  · intro x hx
    constructor
    · by_contra hcon
      push Not at hcon
      have h1 := l4 (by show n < 63; have : n ≤ 63 := l1; omega) x (by
        show (buf.drop n).head? = _; rw [hcon.2] at hx; simpa using hx)
      have h2 := z4 (by show k < 3; omega) x hx
      exact h2 h1
    · by_cases h : k = 3
      · exact .inl h
      · exact .inr (z4 (by show k < 3; have : k ≤ 3 := z1; omega) x hx)

/-- The groups R104 makes of a buffer. -/
theorem stuffGroups_spec (fuel : Nat) (buf : Bytes) (h : buf.length ≤ fuel) :
    ∃ gs : List CobsGroup, (∀ g ∈ gs, g.legal) ∧ greedy gs ∧ stuffGroups fuel buf = streamOf gs ∧ plainOf gs = buf := by
  induction fuel generalizing buf with
  | zero =>
    have : buf = [] := by simpa using h
    subst this
    exact ⟨[], by simp, by intro f g h b he; simp at he, rfl, rfl⟩
  | succ m ih =>
    cases buf with
    | nil => exact ⟨[], by simp, by intro f g h b he; simp at he, rfl, rfl⟩
    | cons b rest =>
      obtain ⟨g1, g2, g3, g4, g5⟩ := firstGroup_spec b rest
      set buf := b :: rest with hbuf
      set n := literalRun maxRun buf
      set k := zeroRun maxFold (buf.drop n)
      obtain ⟨gs, i1, i2, i3, i4⟩ := ih ((buf.drop n).drop k) (by omega)
      refine ⟨{ lits := buf.take n, zeros := k } :: gs, ?_, ?_, ?_, ?_⟩
      · intro g hg
        rcases List.mem_cons.1 hg with rfl | hg
        · exact g1
        · exact i1 g hg
      · intro front g h' back he
        cases front with
        | cons a front =>
          simp only [List.cons_append, List.cons.injEq] at he
          exact i2 front g h' back he.2
        | nil =>
          simp only [List.nil_append, List.cons.injEq] at he
          obtain ⟨rfl, rfl⟩ := he
          have hl := i1 h' (by simp)
          rw [← i4] at g5
          have hlen : (buf.take n).length = n := by
            simp [n]; exact (literalRun_spec maxRun buf).2.1
          show ((buf.take n).length = 63 ∨ k ≠ 0) ∧ _
          rw [hlen]
          rcases hh : h'.lits with _ | ⟨x, xs⟩
          · have hz : h'.zeros ≠ 0 := by
              rcases hl.2.2.1 with h0 | h0
              · exact absurd hh h0
              · exact h0
            obtain ⟨z, hz⟩ := Nat.exists_eq_succ_of_ne_zero hz
            have := g5 0x00#8 (by simp [plainOf, CobsGroup.plain, hh, hz, List.replicate_succ])
            refine ⟨this.1, .inl ?_⟩
            rcases this.2 with h3 | h3
            · exact h3
            · exact absurd rfl h3
          · have := g5 x (by simp [plainOf, CobsGroup.plain, hh])
            exact ⟨this.1, .inr (by simp)⟩
      · show codeByte n k :: buf.take n ++ stuffGroups m ((buf.drop n).drop k) = _
        rw [i3, ← g2]; rfl
      · show CobsGroup.plain _ ++ plainOf gs = _
        rw [i4]; exact g3

/-- What `stuff` makes (R104): the greedy legal groups that stand for the buffer. -/
theorem stuff_spec (buf : Bytes) :
    ∃ gs : List CobsGroup, (∀ g ∈ gs, g.legal) ∧ greedy gs ∧ stuff buf = streamOf gs ∧ plainOf gs = buf :=
  stuffGroups_spec buf.length buf le_rfl

/-! ### The walk (R107) -/

/-- A code byte that owes no literal: its delimiters are synthesized at once. -/
theorem walkByte_noLiteral {z : Nat} (hz : z ≤ 3) (out : Bytes) :
    walkByte 0x00#8 out (codeByte 0 z) = (0x00#8, out ++ List.replicate z 0x00#8) := by
  have h := codeByte_toNat (n := 0) (by omega) hz
  simp only [walkByte, ↓reduceIte, and63_eq_zero, shiftRight6_toNat, h]
  rw [if_pos (by omega)]
  congr 3
  omega

/-- A code byte that owes literals. -/
theorem walkByte_code {n z : Nat} (hn : n ≤ 63) (h0 : n ≠ 0) (hz : z ≤ 3) (out : Bytes) :
    walkByte 0x00#8 out (codeByte n z) = (codeByte n z, out) := by
  have h := codeByte_toNat hn hz
  simp only [walkByte, ↓reduceIte, and63_eq_zero, h]
  rw [if_neg (by omega)]

/-- A literal that is not the last one owed. -/
theorem walkByte_literal {n z : Nat} (hn : n + 1 ≤ 63) (h0 : n ≠ 0) (hz : z ≤ 3) (out : Bytes) (b : Byte) :
    walkByte (codeByte (n + 1) z) out b = (codeByte n z, out ++ [b]) := by
  have h := codeByte_toNat hn hz
  have h' := codeByte_toNat (n := n) (by omega) hz
  have hne : codeByte (n + 1) z ≠ 0x00#8 := by
    intro hc; rw [hc] at h; simp at h; omega
  have hs : codeByte (n + 1) z - 1#8 = codeByte n z := by
    apply BitVec.eq_of_toNat_eq
    rw [BitVec.toNat_sub, h, h']; simp; omega
  simp only [walkByte, if_neg hne, hs, and63_eq_zero, h']
  rw [if_neg (by omega)]

/-- The last literal owed: the group's delimiters follow it. -/
theorem walkByte_lastLiteral {z : Nat} (hz : z ≤ 3) (out : Bytes) (b : Byte) :
    walkByte (codeByte 1 z) out b = (0x00#8, out ++ [b] ++ List.replicate z 0x00#8) := by
  have h := codeByte_toNat (n := 1) (by omega) hz
  have h' := codeByte_toNat (n := 0) (by omega) hz
  have hne : codeByte 1 z ≠ 0x00#8 := by
    intro hc; rw [hc] at h; simp at h; omega
  have hs : codeByte 1 z - 1#8 = codeByte 0 z := by
    apply BitVec.eq_of_toNat_eq
    rw [BitVec.toNat_sub, h, h']; simp; omega
  simp only [walkByte, if_neg hne, hs, and63_eq_zero, shiftRight6_toNat, h']
  rw [if_pos (by omega)]
  congr 3
  omega

/-- The walk over the literals a code byte owes. -/
theorem walk_literals (cap : Option Nat) (z : Nat) (hz : z ≤ 3) (lits : Bytes) (hne : lits ≠ [])
    (hlen : lits.length ≤ 63) (hnz : ∀ b ∈ lits, b ≠ 0x00#8) (out rest : Bytes)
    (hcap : fits cap (out.length + lits.length + z)) :
    walk cap (codeByte lits.length z) out (lits ++ rest) = walk cap 0x00#8 (out ++ lits ++ List.replicate z 0x00#8) rest := by
  induction lits generalizing out with
  | nil => exact absurd rfl hne
  | cons b l ih =>
    have hb : b ≠ 0x00#8 := hnz b (by simp)
    simp only [List.cons_append]
    rw [walk, if_neg hb]
    rcases hl : l with _ | ⟨b', l'⟩
    · subst hl
      simp only [List.length_singleton] at hcap ⊢
      rw [walkByte_lastLiteral hz, if_neg]
      · simp
      · rw [Bool.not_eq_true, overCap_eq_false]
        exact fits_mono (by simp; omega) hcap
    · rw [← hl]
      have hl0 : l.length ≠ 0 := by simp [hl]
      simp only [List.length_cons] at hlen hcap ⊢
      rw [walkByte_literal hlen hl0 hz, if_neg]
      · rw [ih (by simp [hl]) (by omega) (fun x hx => hnz x (by simp [hx]))]
        · simp
        · refine fits_mono ?_ hcap; simp; omega
      · rw [Bool.not_eq_true, overCap_eq_false]
        refine fits_mono ?_ hcap; simp; omega

/-- The walk over one legal group: its unstuffed bytes are appended and no literal is owed. -/
theorem walk_group (cap : Option Nat) (g : CobsGroup) (hg : g.legal) (out rest : Bytes)
    (hcap : fits cap (out.length + g.plain.length)) :
    walk cap 0x00#8 out (g.stuffed ++ rest) = walk cap 0x00#8 (out ++ g.plain) rest := by
  obtain ⟨h1, h2, h3, h4⟩ := hg
  have hst : g.stuffed = codeByte g.lits.length g.zeros :: g.lits := rfl
  have hc := codeByte_toNat h1 h2
  have hne : codeByte g.lits.length g.zeros ≠ 0x00#8 := by
    intro he; rw [he] at hc
    simp only [BitVec.toNat_ofNat, Nat.zero_mod] at hc
    rcases h3 with h | h
    · exact h (List.eq_nil_of_length_eq_zero (by omega))
    · omega
  have hpl : g.plain = g.lits ++ List.replicate g.zeros 0x00#8 := rfl
  rw [hpl] at hcap ⊢
  simp only [List.length_append, List.length_replicate] at hcap
  rw [hst, List.cons_append, walk, if_neg hne]
  by_cases h0 : g.lits = []
  · rw [h0] at hcap ⊢
    rw [List.length_nil, walkByte_noLiteral h2, if_neg]
    · simp
    · rw [Bool.not_eq_true, overCap_eq_false]; refine fits_mono ?_ hcap; simp
  · have hl0 : g.lits.length ≠ 0 := fun h => h0 (List.eq_nil_of_length_eq_zero h)
    rw [walkByte_code h1 hl0 h2, if_neg]
    · rw [walk_literals cap g.zeros h2 g.lits h0 h1 h4 out rest (by rw [Nat.add_assoc]; exact hcap)]
      simp
    · rw [Bool.not_eq_true, overCap_eq_false]; exact fits_mono (by simp only []; omega) hcap

/-- The walk over a stream of legal groups. -/
theorem walk_stream (cap : Option Nat) (gs : List CobsGroup) (hgs : ∀ g ∈ gs, g.legal) (out rest : Bytes)
    (hcap : fits cap (out.length + (plainOf gs).length)) :
    walk cap 0x00#8 out (streamOf gs ++ rest) = walk cap 0x00#8 (out ++ plainOf gs) rest := by
  induction gs generalizing out with
  | nil => simp [streamOf, plainOf]
  | cons g gs ih =>
    have e1 : streamOf (g :: gs) = g.stuffed ++ streamOf gs := rfl
    have e2 : plainOf (g :: gs) = g.plain ++ plainOf gs := rfl
    rw [e2, List.length_append] at hcap
    rw [e1, e2, List.append_assoc, walk_group cap g (hgs g (by simp)) _ _ (fits_mono (by omega) hcap),
      ih (fun g' h => hgs g' (by simp [h]))]
    · simp
    · refine fits_mono ?_ hcap; simp; omega

@[simp] theorem walk_terminator (cap : Option Nat) (out rest : Bytes) :
    walk cap 0x00#8 out (0x00#8 :: rest) = .ok out := by
  simp [walk]

/-- Leading delimiters before a byte that is none are skipped, whatever their number (R107 (a)). -/
theorem skipDelimiters_replicate (n : Nat) (b : Byte) (hb : b ≠ 0x00#8) (rest : Bytes) :
    skipDelimiters (List.replicate n 0x00#8 ++ b :: rest) = b :: rest := by
  induction n with
  | zero =>
    cases rest with
    | nil => simp [skipDelimiters]
    | cons b' r => simp [skipDelimiters, hb]
  | succ n ih =>
    rw [List.replicate_succ, List.cons_append]
    rcases hr : List.replicate n (0x00#8 : Byte) ++ b :: rest with _ | ⟨x, xs⟩
    · simp at hr
    · rw [skipDelimiters, if_pos rfl, ← hr, ih]

/-- The last byte of the input is never skipped (R107 (a)). -/
theorem skipDelimiters_all (n : Nat) : skipDelimiters (List.replicate (n + 1) 0x00#8) = [0x00#8] := by
  induction n with
  | zero => rfl
  | succ n ih =>
    rw [List.replicate_succ]
    rcases hr : List.replicate (n + 1) (0x00#8 : Byte) with _ | ⟨x, xs⟩
    · simp at hr
    · rw [skipDelimiters, if_pos rfl, ← hr, ih]

/-- The stream of a non-empty list of legal groups begins with a code byte, which is no delimiter (R64). -/
theorem streamOf_cons_head (g : CobsGroup) (hg : g.legal) (gs : List CobsGroup) :
    ∃ c rest, streamOf (g :: gs) = c :: rest ∧ c ≠ 0x00#8 := by
  refine ⟨_, _, rfl, ?_⟩
  have hc := codeByte_toNat hg.1 hg.2.1
  intro he
  change codeByte _ _ = _ at he
  rw [he] at hc
  simp only [BitVec.toNat_ofNat, Nat.zero_mod] at hc
  rcases hg.2.2.1 with h | h
  · exact h (List.eq_nil_of_length_eq_zero (by omega))
  · omega

/-- `unstuff` of a stream of legal groups with its terminator. -/
theorem unstuff_stream (cap : Option Nat) (leading : Nat) (gs : List CobsGroup) (hgs : ∀ g ∈ gs, g.legal) (trailing : Bytes)
    (hne : gs ≠ [] ∨ trailing = []) (hcap : fits cap (plainOf gs).length) :
    unstuff cap (List.replicate leading 0x00#8 ++ streamOf gs ++ [0x00#8] ++ trailing) = .ok (plainOf gs) := by
  unfold unstuff
  cases gs with
  | nil =>
    have ht : trailing = [] := by simpa using hne
    subst ht
    have : List.replicate leading (0x00#8 : Byte) ++ streamOf [] ++ [0x00#8] ++ [] = List.replicate (leading + 1) 0x00#8 := by
      simp [streamOf, List.replicate_succ']
    rw [this, skipDelimiters_all]
    simp [plainOf]
  | cons g gs =>
    obtain ⟨c, r, h1, h2⟩ := streamOf_cons_head g (hgs g (by simp)) gs
    have : List.replicate leading (0x00#8 : Byte) ++ streamOf (g :: gs) ++ [0x00#8] ++ trailing =
        List.replicate leading 0x00#8 ++ c :: (r ++ [0x00#8] ++ trailing) := by simp [h1]
    rw [this, skipDelimiters_replicate _ _ h2]
    have : c :: (r ++ [0x00#8] ++ trailing) = streamOf (g :: gs) ++ 0x00#8 :: trailing := by simp [h1]
    rw [this, walk_stream cap _ hgs [] _ (by simpa using hcap)]
    simp

/-! ### An output over the limit (R107) -/

/-- Literals and folded delimiters that take the output over the limit end the walk. -/
theorem walk_literals_over (cap : Option Nat) (z : Nat) (hz : z ≤ 3) (lits : Bytes) (hne : lits ≠ [])
    (hlen : lits.length ≤ 63) (hnz : ∀ b ∈ lits, b ≠ 0x00#8) (out rest : Bytes)
    (hcap : ¬ fits cap (out.length + lits.length + z)) :
    walk cap (codeByte lits.length z) out (lits ++ rest) = .error .errCapacity := by
  induction lits generalizing out with
  | nil => exact absurd rfl hne
  | cons b l ih =>
    rw [List.cons_append, walk, if_neg (hnz b (by simp))]
    split
    · rfl
    · next ho =>
      rw [Bool.not_eq_true, overCap_eq_false] at ho
      by_cases hl : l = []
      · subst hl
        refine absurd ?_ hcap
        rw [List.length_singleton, walkByte_lastLiteral hz] at ho
        simpa [Nat.add_assoc, Nat.add_comm 1 z] using ho
      · have hl0 : l.length ≠ 0 := fun h => hl (List.eq_nil_of_length_eq_zero h)
        simp only [List.length_cons] at hlen hcap ⊢
        rw [walkByte_literal hlen hl0 hz]
        refine ih hl (by omega) (fun x hx => hnz x (by simp [hx])) _ ?_
        rwa [List.length_append, List.length_singleton, Nat.add_right_comm, Nat.add_assoc out.length, Nat.add_right_comm,
          ← Nat.add_assoc]

/-- A legal group that takes the output over the limit ends the walk. -/
theorem walk_group_over (cap : Option Nat) (g : CobsGroup) (hg : g.legal) (out rest : Bytes)
    (hcap : ¬ fits cap (out.length + g.plain.length)) :
    walk cap 0x00#8 out (g.stuffed ++ rest) = .error .errCapacity := by
  obtain ⟨c, r, hcr, hne⟩ := streamOf_cons_head g hg []
  obtain ⟨h1, h2, h3, h4⟩ := hg
  have hst : g.stuffed = codeByte g.lits.length g.zeros :: g.lits := rfl
  have hc : codeByte g.lits.length g.zeros ≠ 0x00#8 := by
    have : c = codeByte g.lits.length g.zeros ∧ r = g.lits := by simpa [streamOf, hst] using hcr.symm
    rwa [← this.1]
  have hpl : g.plain.length = g.lits.length + g.zeros := by simp [CobsGroup.plain]
  rw [hst, List.cons_append, walk, if_neg hc]
  split
  · rfl
  · next ho =>
    rw [Bool.not_eq_true, overCap_eq_false] at ho
    by_cases h0 : g.lits = []
    · refine absurd ?_ hcap
      rw [h0, List.length_nil, walkByte_noLiteral h2] at ho
      simpa [hpl, h0] using ho
    · rw [walkByte_code h1 (fun h => h0 (List.eq_nil_of_length_eq_zero h)) h2]
      exact walk_literals_over cap g.zeros h2 g.lits h0 h1 h4 out rest (by rw [Nat.add_assoc, ← hpl]; exact hcap)

/-- A stream of legal groups that takes an output within the limit over it ends the walk. -/
theorem walk_stream_over (cap : Option Nat) (gs : List CobsGroup) (hgs : ∀ g ∈ gs, g.legal) (out rest : Bytes)
    (hout : fits cap out.length) (hcap : ¬ fits cap (out.length + (plainOf gs).length)) :
    walk cap 0x00#8 out (streamOf gs ++ rest) = .error .errCapacity := by
  induction gs generalizing out with
  | nil => exact absurd hout hcap
  | cons g gs ih =>
    have e1 : streamOf (g :: gs) = g.stuffed ++ streamOf gs := rfl
    have e2 : plainOf (g :: gs) = g.plain ++ plainOf gs := rfl
    rw [e1, List.append_assoc]
    by_cases hf : fits cap (out.length + g.plain.length)
    · rw [walk_group cap g (hgs g (by simp)) _ _ hf]
      refine ih (fun g' h => hgs g' (by simp [h])) _ (by rwa [List.length_append]) ?_
      rwa [List.length_append, Nat.add_assoc, ← List.length_append, ← e2]
    · exact walk_group_over cap g (hgs g (by simp)) _ _ hf

/-- Leading delimiters before a stream of at least one legal group are skipped, whatever follows it. -/
theorem skipDelimiters_stream (n : Nat) (gs : List CobsGroup) (hgs : ∀ g ∈ gs, g.legal) (hne : gs ≠ []) (rest : Bytes) :
    skipDelimiters (List.replicate n 0x00#8 ++ streamOf gs ++ rest) = streamOf gs ++ rest := by
  obtain ⟨g, gs', rfl⟩ := List.exists_cons_of_ne_nil hne
  obtain ⟨c, r, h1, h2⟩ := streamOf_cons_head g (hgs g (by simp)) gs'
  rw [h1, List.append_assoc, List.cons_append, skipDelimiters_replicate n c h2]

/-! ### What is left owed, and how the codec fails (R107) -/

/-- A code byte that owes literals is read as it stands. -/
theorem walk_owing_code {cap : Option Nat} {c : Byte} (hc : c ≠ 0x00#8) (h : c.toNat % 64 ≠ 0) (out rest : Bytes)
    (hcap : fits cap out.length) : walk cap 0x00#8 out (c :: rest) = walk cap c out rest := by
  rw [walk, if_neg hc]
  have hw : walkByte 0x00#8 out c = (c, out) := by simp only [walkByte, ↓reduceIte, and63_eq_zero, h]
  rw [hw, (overCap_eq_false _ _).2 hcap]
  simp

/-- Fewer literals than are owed leave a group open. -/
theorem walk_owing_literals {cap : Option Nat} (c : Byte) (hc : c ≠ 0x00#8) (lits : Bytes) (hl : lits.length < c.toNat % 64)
    (hnz : ∀ b ∈ lits, b ≠ 0x00#8) (out rest : Bytes) (hcap : fits cap (out.length + lits.length)) :
    ∃ c' out', c' ≠ 0x00#8 ∧ walk cap c out (lits ++ rest) = walk cap c' out' rest := by
  induction lits generalizing c out with
  | nil => exact ⟨c, out, hc, rfl⟩
  | cons b l ih =>
    rw [List.length_cons] at hl hcap
    have hs : (c - 1#8).toNat = c.toNat - 1 := by
      rw [BitVec.toNat_sub]; simp; have := c.isLt; omega
    have hw : walkByte c out b = (c - 1#8, out ++ [b]) := by
      simp only [walkByte, and63_eq_zero, if_neg hc, hs]
      rw [if_neg (by omega)]
    have hlen : (out ++ [b]).length = out.length + 1 := by simp
    obtain ⟨c', o', h1, h2⟩ := ih (c - 1#8) (by intro h; rw [h] at hs; simp at hs; omega) (by rw [hs]; omega)
      (fun x hx => hnz x (by simp [hx])) (out ++ [b]) (fits_mono (by omega) hcap)
    have hf : fits cap (out ++ [b]).length := fits_mono (by omega) hcap
    refine ⟨c', o', h1, ?_⟩
    rw [← h2, List.cons_append, walk, if_neg (hnz b (by simp)), hw, (overCap_eq_false _ _).2 hf]
    simp

/-- The walk fails in three ways, the last only with a limit (R107). -/
theorem walk_error {cap : Option Nat} {code : Byte} {out input : Bytes} {e : Status}
    (h : walk cap code out input = .error e) :
    e = .errTruncated ∨ e = .errUnterminated ∨ (e = .errCapacity ∧ cap ≠ none) := by
  induction input generalizing code out with
  | nil => cases h; simp
  | cons b r ih =>
    unfold walk at h
    split at h
    · split at h <;> cases h; simp
    · split at h
      · next hh =>
        cases h
        obtain ⟨c, hc, _⟩ := (overCap_eq_true _ _).1 hh
        simp [hc]
      · exact ih h

/-- COBS.DEC fails in five ways (R106). -/
theorem cobsDecode_error {c : Config} {cs : Bool} {input : Bytes} {e : Status} (h : cobsDecode c cs input = .error e) :
    e = .errTruncated ∨ e = .errUnterminated ∨ (e = .errCapacity ∧ c.bufCap ≠ none) ∨
      (cs = true ∧ (e = .errShort ∨ e = .errChecksum)) := by
  unfold cobsDecode at h
  split at h
  · next hh =>
    cases h
    obtain ⟨n, hn, _⟩ := (overCap_eq_true _ _).1 hh
    simp [hn]
  · split at h
    · next e' h' => cases h; rcases walk_error h' with h | h | h <;> simp [h]
    · unfold checkFrame at h
      split at h
      · split at h
        · cases h; simp_all
        · split at h <;> cases h; simp_all
      · cases h

/-- COBS.ENC fails for its limit alone (R103). -/
theorem cobsEncode_error {c : Config} {pre cs : Bool} {payload : Bytes} {e : Status}
    (h : cobsEncode c pre cs payload = .error e) : e = .errCapacity ∧ c.bufCap ≠ none := by
  unfold cobsEncode at h
  split at h
  · next hh =>
    cases h
    obtain ⟨n, hn, _⟩ := (overCap_eq_true _ _).1 hh
    simp [hn]
  · cases h

end Sys2Proof.Machine
end

