-- ==== Sys2Proof/Laws/Operands.lean ====
section
/-!
SUPPORT. What the operand functions of Machine/Operands.lean compute: the clamp, the 16-bit orders, the time.
-/

namespace Sys2Proof.Machine

/-! ### The clamp (R81) -/

/-- The byte clamp, as a number. -/
theorem clampByte_toNat (v : Int) : ((clampByte v).toNat : Int) = max 0 (min v 255) := by
  simp only [clampByte, clamp, BitVec.toNat_ofInt]
  omega

/-- The 16-bit clamp, as a number. -/
theorem clampU16_toNat (v : Int) : ((clampU16 v).toNat : Int) = max 0 (min v 65535) := by
  simp only [clampU16, clamp, BitVec.toNat_ofInt]
  omega

/-- A byte is its own clamp. -/
theorem clampByte_natCast (b : Byte) : clampByte (b.toNat : Int) = b := by
  apply BitVec.eq_of_toNat_eq
  have h := clampByte_toNat b.toNat
  have := b.isLt
  omega

/-- A 16-bit number is its own clamp. -/
theorem clampU16_natCast (v : U16) : clampU16 (v.toNat : Int) = v := by
  apply BitVec.eq_of_toNat_eq
  have h := clampU16_toNat v.toNat
  have := v.isLt
  omega

/-! ### Bytes of a 16-bit number (R12) -/

/-- The low and the high byte of a 16-bit number, as numbers, make it up. -/
theorem le16_toNat (v : U16) : (v.extractLsb' 0 8).toNat + 256 * (v.extractLsb' 8 8).toNat = v.toNat := by
  simp only [BitVec.extractLsb'_toNat, Nat.shiftRight_eq_div_pow]
  have := v.isLt
  omega

/-- `be16dec`, as a number. -/
theorem be16dec_eq (hi lo : Byte) : be16dec hi lo = BitVec.ofNat 16 (hi.toNat * 256 + lo.toNat) := by
  apply BitVec.eq_of_toNat_eq
  have h1 := hi.isLt
  have h2 := lo.isLt
  simp only [be16dec, BitVec.toNat_append, BitVec.toNat_ofNat]
  rw [← Nat.shiftLeft_add_eq_or_of_lt h2, Nat.shiftLeft_eq]
  omega

/-! ### Time (R190) -/

/-- A time operand that has TS_W bits is read as it is. -/
theorem timeOperand_of_lt {c : Config} {v : Nat} (h : v < 2 ^ c.tsW) : timeOperand c v = v := Nat.mod_eq_of_lt h

/-- Any time operand, as read, has TS_W bits. -/
theorem timeOperand_lt (c : Config) (v : Nat) : timeOperand c v < 2 ^ c.tsW := Nat.mod_lt _ (by positivity)

/-- The age of R190, in natural numbers: where `now` is below the stored time it wraps. -/
theorem age_eq {c : Config} {now ts : Nat} (hn : now < 2 ^ c.tsW) (ht : ts < 2 ^ c.tsW) :
    age c now ts = if ts ≤ now then now - ts else 2 ^ c.tsW - (ts - now) := by
  simp only [age, BitVec.toNat_sub, BitVec.toNat_ofNat, Nat.mod_eq_of_lt hn, Nat.mod_eq_of_lt ht]
  split
  · next h =>
    rw [show 2 ^ c.tsW - ts + now = (now - ts) + 2 ^ c.tsW by omega, Nat.add_mod_right, Nat.mod_eq_of_lt (by omega)]
  · next h => rw [Nat.mod_eq_of_lt (by omega)]; omega

end Sys2Proof.Machine
end

