-- ==== Sys2Proof/Laws/PerInstr.lean ====
section
/-!
SUPPORT. For each operation: decoding the request that issues it gives it back (R60, R62).
-/

namespace Sys2Proof.Laws.DecodeEncode

open Sys2Proof.Machine

/-- The request of an operation decodes to the operation, with every operand at every value. -/
def Statement (i : Instr) : Prop := decode (encode i) = .ok i

theorem cmdGetDev (cmdId : U16) (tableId startId maxCount : Byte) :
    Statement (.cmdGetDev cmdId tableId startId maxCount) := by
  simp [Statement, decode, encode, clampByte_natCast, clampU16_natCast]

theorem cmdGetMeta (cmdId : U16) (tableId startId maxCount : Byte) :
    Statement (.cmdGetMeta cmdId tableId startId maxCount) := by
  simp [Statement, decode, encode, clampByte_natCast, clampU16_natCast]

theorem cmdSwitch (cmdId : U16) (tableId : Byte) (on : Bool) (ids : Bytes) :
    Statement (.cmdSwitch cmdId tableId on ids) := by
  simp [Statement, decode, encode, clampByte_natCast, clampU16_natCast]

theorem cmdMove (cmdId : U16) (tableId deviceId command : Byte) :
    Statement (.cmdMove cmdId tableId deviceId command) := by
  simp [Statement, decode, encode, clampByte_natCast, clampU16_natCast]

theorem cmdGenie (cmdId : U16) (tableId deviceId : Byte) (on : Bool) :
    Statement (.cmdGenie cmdId tableId deviceId on) := by
  simp [Statement, decode, encode, clampByte_natCast, clampU16_natCast]

theorem cmdDim (cmdId : U16) (tableId deviceId mode brightness duration : Byte) (cycle1 cycle2 : U16) :
    Statement (.cmdDim cmdId tableId deviceId mode brightness duration cycle1 cycle2) := by
  simp [Statement, decode, encode, clampByte_natCast, clampU16_natCast]

theorem cmdRgb (cmdId : U16) (tableId deviceId mode r g b autoOff onInt offInt : Byte) (interval : U16) :
    Statement (.cmdRgb cmdId tableId deviceId mode r g b autoOff onInt offInt interval) := by
  simp [Statement, decode, encode, clampByte_natCast, clampU16_natCast]

theorem cmdHvac (cmdId : U16) (tableId deviceId command lowTrip highTrip : Byte) :
    Statement (.cmdHvac cmdId tableId deviceId command lowTrip highTrip) := by
  simp [Statement, decode, encode, clampByte_natCast, clampU16_natCast]

theorem csum8 (input : Bytes) : Statement (.csum8 input) := rfl

theorem cobsEnc (pre cs : Bool) (payload : Bytes) : Statement (.cobsEnc pre cs payload) := rfl

theorem cobsDec (cs : Bool) (stuffed : Bytes) : Statement (.cobsDec cs stuffed) := rfl

theorem teaEnc (key block : U64) : Statement (.teaEnc key block) := rfl

theorem teaDec (key block : U64) : Statement (.teaDec key block) := rfl

theorem teaDecBuf (key data : Bytes) : Statement (.teaDecBuf key data) := rfl

theorem stsRelay (event : Bytes) : Statement (.stsRelay event) := rfl

theorem stsDim (event : Bytes) : Statement (.stsDim event) := rfl

theorem stsRgb (event : Bytes) : Statement (.stsRgb event) := rfl

theorem chkPush2 (now : Nat) (fragment : Bytes) : Statement (.chkPush2 now fragment) := rfl

theorem chkEvict2 : Statement .chkEvict2 := rfl

theorem chkPushK (now : Nat) (fragment : Bytes) : Statement (.chkPushK now fragment) := rfl

theorem chkEvictK (key : Byte) : Statement (.chkEvictK key) := rfl

theorem chkSetTmo (timeout : Nat) : Statement (.chkSetTmo timeout) := rfl

theorem qrdDecode (cs decrypt : Bool) (key : Bytes) (fragments : List Bytes) : Statement (.qrdDecode cs decrypt key fragments) := rfl

theorem chkReset : Statement .chkReset := rfl

theorem chkPeek (keyed : Bool) (key : Byte) : Statement (.chkPeek keyed key) := rfl

end Sys2Proof.Laws.DecodeEncode
end

