-- ==== Sys2Proof/Laws/Reassembly.lean ====
section
/-!
SUPPORT. What the operations of Machine/Reassembly.lean can do, case by case, and what joining payloads gives.
-/

namespace Sys2Proof.Machine

/-! ### CHK.PUSH2 (R195) -/

/-- All that CHK.PUSH2 can do: its own two failures; then the capacity test, where it binds (log 16); then the other
rows of the table of R195. -/
theorem execChkPush2_cases (now : Nat) (f : Bytes) (s : State) :
    let bound : Prop := capBinds s.cfg = true → fits s.cfg.bufCap f.length
    (f.length ≠ chunkSize ∧ execChkPush2 now f s = .next (s.fail .errLength)) ∨
    (f.length = chunkSize ∧ s.fix ≠ none ∧ s.timeoutMs = none ∧ execChkPush2 now f s = .next (s.fail .errUnconfigured)) ∨
    (f.length = chunkSize ∧ (s.fix = none ∨ s.timeoutMs ≠ none) ∧ ¬ bound ∧
      execChkPush2 now f s = .next (s.fail .errCapacity)) ∨
    (f.length = chunkSize ∧ s.fix = none ∧ bound ∧ execChkPush2 now f s =
      .next ((s.setFix (some { data := f, ts := timeOperand s.cfg now })).respond .okPending emptyOut)) ∨
    (f.length = chunkSize ∧ bound ∧ ∃ held limit, s.fix = some held ∧ s.timeoutMs = some limit ∧
      limit < age s.cfg (timeOperand s.cfg now) held.ts ∧ execChkPush2 now f s =
        .next ((s.setFix (some { data := f, ts := timeOperand s.cfg now })).respond .okResync emptyOut)) ∨
    (f.length = chunkSize ∧ bound ∧ ∃ held limit, s.fix = some held ∧ s.timeoutMs = some limit ∧
      age s.cfg (timeOperand s.cfg now) held.ts ≤ limit ∧ execChkPush2 now f s =
        .next ((s.setFix none).respond .ok (.bytes (held.data ++ f)))) := by
  intro bound
  have hover (hb : ¬ bound) (t : State) : s.withinInputCap f.length t = s.fail .errCapacity :=
    State.withinInputCap_of_over (Classical.not_imp.1 hb).1 (Classical.not_imp.1 hb).2 t
  have hfit (hb : bound) (t : State) : s.withinInputCap f.length t = t := State.withinInputCap_of_fits hb t
  unfold execChkPush2
  by_cases hl : f.length = chunkSize
  · rw [hl] at hover hfit
    rcases hf : s.fix with _ | held
    · by_cases hb : bound
      · simp [hl, hb, hfit hb]
      · simp [hl, hb, hover hb]
    · rcases ht : s.timeoutMs with _ | limit
      · simp [hl]
      · by_cases ha : limit < age s.cfg (timeOperand s.cfg now) held.ts <;> by_cases hb : bound
        · simp [hl, ha, hb, hfit hb]
        · simp [hl, ha, hb, hover hb]
        · simp [hl, ha, hb, hfit hb, Nat.le_of_not_lt ha]
        · simp [hl, ha, hb, hover hb]
  · simp [hl]

/-! ### CHK.PUSHK (R199) -/

/-- All that CHK.PUSHK can do: two refusals of the fragment, two limits, completion, and storing. -/
theorem execChkPushK_cases (now : Nat) (f : Bytes) (s : State) :
    let e := appendFragment (kpendFind s.kpend (fragQid s.cfg f)) (timeOperand s.cfg now) f
    (¬ fits s.cfg.bufCap f.length ∧ execChkPushK now f s = .next (s.fail .errCapacity)) ∨
    (fits s.cfg.bufCap f.length ∧ kdet s.cfg f = false ∧ execChkPushK now f s = .next (s.fail .errNotRecognised)) ∨
    (fits s.cfg.bufCap f.length ∧ kdet s.cfg f = true ∧ ¬ fits s.cfg.kfrags e.frags.length ∧
      execChkPushK now f s = .next (s.fail .errCapacity)) ∨
    (fits s.cfg.bufCap f.length ∧ kdet s.cfg f = true ∧ fits s.cfg.kfrags e.frags.length ∧ fragType s.cfg f = finalMark ∧
      execChkPushK now f s = .next ((s.setKpend (kpendRemove s.kpend (fragQid s.cfg f))).respond .ok
        (.completed { key := fragQid s.cfg f, complete := true, frags := e.frags, ts := e.ts }))) ∨
    (fits s.cfg.bufCap f.length ∧ kdet s.cfg f = true ∧ fits s.cfg.kfrags e.frags.length ∧ fragType s.cfg f ≠ finalMark ∧
      kpendFind s.kpend (fragQid s.cfg f) = none ∧ atCap s.cfg.kslots s.kpend.length = true ∧
      execChkPushK now f s = .next (s.fail .errCapacity)) ∨
    (fits s.cfg.bufCap f.length ∧ kdet s.cfg f = true ∧ fits s.cfg.kfrags e.frags.length ∧ fragType s.cfg f ≠ finalMark ∧
      ¬ (kpendFind s.kpend (fragQid s.cfg f) = none ∧ atCap s.cfg.kslots s.kpend.length = true) ∧
      execChkPushK now f s = .next ((s.setKpend (kpendInsert s.kpend (fragQid s.cfg f) e)).respond .okPending emptyOut)) := by
  intro e
  unfold execChkPushK
  have hno : ∀ l n, overCap l n = true → ¬ fits l n := fun l n h hf => by
    rw [(overCap_eq_false l n).2 hf] at h; cases h
  by_cases h1 : overCap s.cfg.bufCap f.length = true
  · exact .inl ⟨hno _ _ h1, if_pos h1⟩
  · have f1 := (overCap_eq_false _ _).1 (Bool.eq_false_iff.2 h1)
    refine .inr ?_
    rw [if_neg h1]
    by_cases h2 : kdet s.cfg f = false
    · exact .inl ⟨f1, h2, if_pos h2⟩
    · have f2 : kdet s.cfg f = true := by simpa using h2
      refine .inr ?_
      rw [if_neg h2]
      by_cases h3 : overCap s.cfg.kfrags e.frags.length = true
      · exact .inl ⟨f1, f2, hno _ _ h3, if_pos h3⟩
      · have f3 := (overCap_eq_false _ _).1 (Bool.eq_false_iff.2 h3)
        refine .inr ?_
        by_cases h4 : fragType s.cfg f = finalMark
        · exact .inl ⟨f1, f2, f3, h4, (if_neg h3).trans (if_pos h4)⟩
        · refine .inr ?_
          by_cases h5 : kpendFind s.kpend (fragQid s.cfg f) = none ∧ atCap s.cfg.kslots s.kpend.length = true
          · exact .inl ⟨f1, f2, f3, h4, h5.1, h5.2, (if_neg h3).trans ((if_neg h4).trans (if_pos h5))⟩
          · exact .inr ⟨f1, f2, f3, h4, h5, (if_neg h3).trans ((if_neg h4).trans (if_neg h5))⟩

/-! ### Payloads (R204) -/

/-- Joining fragments whose headers are cut off by their length gives the payloads in order. -/
theorem joinPayloads_parts (c : Config) (parts : List (Bytes × Bytes)) (h : ∀ p ∈ parts, p.1.length = c.khdrLen) :
    joinPayloads c (parts.map fun p => p.1 ++ p.2) = some (parts.flatMap Prod.snd) := by
  induction parts with
  | nil => rfl
  | cons p rest ih =>
    have hp := h p (by simp)
    simp only [List.map_cons, joinPayloads, ih (fun x hx => h x (by simp [hx])), List.flatMap_cons, fragPayload]
    rw [if_neg (by simp [hp]), List.drop_left' hp]

/-- A fragment shorter than its header makes the join fail. -/
theorem joinPayloads_short (c : Config) (fragments : List Bytes) (h : ∃ f ∈ fragments, f.length < c.khdrLen) :
    joinPayloads c fragments = none := by
  induction fragments with
  | nil => simp at h
  | cons f rest ih =>
    unfold joinPayloads
    split
    · rfl
    · next hf =>
      obtain ⟨f', hf', hl⟩ := h
      rcases List.mem_cons.1 hf' with rfl | hf'
      · exact absurd hl hf
      · rw [ih ⟨f', hf', hl⟩]

/-- The cause of a failed query is a failure code, and ERR_CAPACITY only with a limit (R204). -/
theorem queryFrame_error {c : Config} {cs decrypt : Bool} {key : Bytes} {fragments : List Bytes} {e : Status}
    (h : queryFrame c cs decrypt key fragments = .error e) : isFailure e.code = true ∧ (e = .errCapacity → c.bufCap ≠ none) := by
  unfold queryFrame at h
  split at h
  · cases h; exact ⟨by decide, by simp⟩
  · split at h
    · next e' h' => cases h; rcases cobsDecode_error h' with h | h | h | ⟨_, h | h⟩ <;> simp [h] <;> decide
    · split at h
      · rcases decryptBuffer_error h with h | h <;> simp [h] <;> decide
      · cases h

/-- All that QRD.DECODE can do: the failure of a stage, an empty frame, the capacity test where it binds (log 16), and a
reading. -/
theorem execQrdDecode_cases (cs decrypt : Bool) (key : Bytes) (fragments : List Bytes) (s : State) :
    let bound : Prop := capBinds s.cfg = true → fits s.cfg.bufCap fragments.flatten.length
    (∃ cause, queryFrame s.cfg cs decrypt key fragments = .error cause ∧
      execQrdDecode cs decrypt key fragments s = .next (s.failWithCause .errNoReading cause)) ∨
    (queryFrame s.cfg cs decrypt key fragments = .ok [] ∧
      execQrdDecode cs decrypt key fragments s = .next (s.failWithCause .errNoReading .errShort)) ∨
    (∃ b rest, queryFrame s.cfg cs decrypt key fragments = .ok (b :: rest) ∧ ¬ bound ∧
      execQrdDecode cs decrypt key fragments s = .next (s.fail .errCapacity)) ∨
    (∃ b rest, queryFrame s.cfg cs decrypt key fragments = .ok (b :: rest) ∧ bound ∧
      execQrdDecode cs decrypt key fragments s = .next (s.respond .ok (.u8 (clampLevel b)))) := by
  intro bound
  unfold execQrdDecode
  rcases hq : queryFrame s.cfg cs decrypt key fragments with e | _ | ⟨b, rest⟩
  · exact .inl ⟨e, rfl, rfl⟩
  · exact .inr (.inl ⟨rfl, rfl⟩)
  · by_cases hb : bound
    · exact .inr (.inr (.inr ⟨b, rest, rfl, hb, by simp only [State.withinInputCap_of_fits hb]⟩))
    · have h := Classical.not_imp.1 hb
      exact .inr (.inr (.inl ⟨b, rest, rfl, hb, by simp only [State.withinInputCap_of_over h.1 h.2]⟩))

end Sys2Proof.Machine
end

