-- ==== Sys2Proof/Laws/StatusDecoder.lean ====
section
/-!
SUPPORT. What the record walk of Machine/StatusDecoder.lean does: whole records one after another, then a tail
too short for another.
-/

namespace Sys2Proof.Machine

/-- Nothing to walk gives no record. -/
theorem walkRecords_nil {α : Type} (n : Nat) (mk : Byte → Bytes → α) (fuel : Nat) : walkRecords n mk fuel [] = [] := by
  cases fuel <;> rfl

/-- The walk over records of `n` raw bytes each, and a tail shorter than a record, gives one result for each record
and drops the tail (R170). -/
theorem walkRecords_records {α β : Type} (n : Nat) (mk : Byte → Bytes → α) (id : β → Byte) (raw : β → Bytes) (recs : List β)
    (hraw : ∀ r ∈ recs, (raw r).length = n) (tail : Bytes) (htail : tail.length < n + 1) (fuel : Nat)
    (hfuel : (recs.flatMap (fun r => id r :: raw r) ++ tail).length ≤ fuel) :
    walkRecords n mk fuel (recs.flatMap (fun r => id r :: raw r) ++ tail) = recs.map fun r => mk (id r) (raw r) := by
  induction recs generalizing fuel with
  | nil =>
    cases tail with
    | nil => exact walkRecords_nil n mk fuel
    | cons d rest =>
      obtain ⟨fuel, rfl⟩ : ∃ k, fuel = k + 1 := ⟨fuel - 1, by simp at hfuel; omega⟩
      simp only [List.length_cons] at htail
      simp only [List.flatMap_nil, List.nil_append, walkRecords, List.map_nil]
      rw [if_neg (by omega)]
  | cons r recs ih =>
    have hr := hraw r (by simp)
    simp only [List.flatMap_cons, List.cons_append, List.append_assoc, List.length_cons] at hfuel ⊢
    obtain ⟨fuel, rfl⟩ : ∃ k, fuel = k + 1 := ⟨fuel - 1, by omega⟩
    simp only [walkRecords, List.map_cons]
    rw [if_pos (by simp [hr]), List.take_left' hr, List.drop_left' hr,
      ih (fun x hx => hraw x (by simp [hx])) fuel (by rw [List.length_append] at hfuel; omega)]

/-- The walk of a whole event buffer: its two leading bytes, its records, its tail (R170). -/
theorem walkEvent_records {α β : Type} (n : Nat) (mk : Byte → Byte → Bytes → α) (id : β → Byte) (raw : β → Bytes) (recs : List β)
    (hraw : ∀ r ∈ recs, (raw r).length = n) (tail : Bytes) (htail : tail.length < n + 1) (event tableId : Byte) :
    walkEvent n mk ([event, tableId] ++ recs.flatMap (fun r => id r :: raw r) ++ tail) =
      recs.map fun r => mk tableId (id r) (raw r) :=
  walkRecords_records n (mk tableId) id raw recs hraw tail htail _ le_rfl

/-- A buffer of fewer than two bytes has no record (R170). -/
theorem walkEvent_short {α : Type} (n : Nat) (mk : Byte → Byte → Bytes → α) (event : Bytes) (h : event.length < 2) :
    walkEvent n mk event = [] := by
  match event, h with
  | [], _ => rfl
  | [_], _ => rfl

end Sys2Proof.Machine
end

