-- ==== Sys2Proof/Tests/Slice0.lean ====
section
/-!
SUPPORT. Tests: ill-formed terms the checks refuse; every selector's word written out from R62; at most two vectors of
95_test_vectors.md for each operation; and for each statement with hypotheses a concrete state and operands that meet
them. Expected values are the spec's own (V-<family> <row>); they are not taken from the model.
-/

namespace Sys2Proof.Tests

open Sys2Proof.Machine

/-! ### Helpers -/

/-- The state of the spec's vectors: reset, with REF and T0. -/
def start : State := { State.reset with cfg := Config.vectors }

/-- What an operation answers: STATUS and OUT. -/
def answer (i : Instr) (s : State) : Option (Byte × Out) :=
  match exec i s with
  | .next t => some (t.status, t.out)
  | _ => none

/-- The state after an operation. -/
def after (i : Instr) (s : State) : Option State :=
  match exec i s with
  | .next t => some t
  | _ => none

/-- Two 20-byte fragments and the keyed fragments of V-CHK 14 and 15. -/
def fragA : Bytes := List.replicate 20 0x41#8
def fragB : Bytes := List.replicate 20 0x42#8
def keyed1 : Bytes := [0x00, 0x01, 0x02, 0xE0, 0xAA, 0xBB]
def keyedFinal : Bytes := [0x00, 0x0A, 0x02, 0xE0, 0xCC]

/-- HELD(A, 100) with TIMEOUT_MS = 1000, and one pending query, in the standard configuration. -/
def busy : State :=
  { State.reset with
    timeoutMs := some 1000, fix := some { data := fragA, ts := 100 },
    kpend := [(0xE0#8, { frags := [keyed1], ts := 5 })] }

/-- `busy` with every limit set, and BUF_CAP binding every operation. -/
def limited : State :=
  { busy with
    cfg := { Config.standard with bufCap := some 6, capScope := .everyOperation, kslots := some 1, kfrags := some 1 } }

theorem fits_some {c n : Nat} (h : n ≤ c) : fits (some c) n := fun _ hc => Option.some.inj hc ▸ h

/-! ### Well-formedness -/

theorem test_wf_push2_refused : Instr.wf 64 (.chkPush2 (2 ^ 64) fragA) = false := by decide
theorem test_wf_pushK_refused : Instr.wf 64 (.chkPushK (2 ^ 64) keyed1) = false := by decide
theorem test_wf_setTmo_refused : Instr.wf 64 (.chkSetTmo (2 ^ 64)) = false := by decide
theorem test_wf_setTmo_accepted : Instr.wf 64 (.chkSetTmo (2 ^ 64 - 1)) = true := by decide
theorem test_config_rounds_refused :
    Config.wf { Config.standard with tea := .given { rounds := 0, delta := 1, c0 := 0, c1 := 0, c2 := 0, c3 := 0 } } = false := by
  decide
theorem test_config_timeout_refused :
    Config.wf { Config.standard with timeoutReset := some (2 ^ 64) } = false := by decide

/-! ### Decoding: every selector of R62, bit by bit -/

theorem test_decode_command :
    decodeTableWord 8 0b00000001 = some (.cmdGetDev 0 0 0 0) ∧
    decodeTableWord 8 0b00000010 = some (.cmdGetMeta 0 0 0 0) ∧
    decodeTableWord 8 0b01000000 = some (.cmdSwitch 0 0 false []) ∧
    decodeTableWord 8 0b01000001 = some (.cmdMove 0 0 0 0) ∧
    decodeTableWord 8 0b01000010 = some (.cmdGenie 0 0 0 false) ∧
    decodeTableWord 8 0b01000011 = some (.cmdDim 0 0 0 0 0 0 0 0) ∧
    decodeTableWord 8 0b01000100 = some (.cmdRgb 0 0 0 0 0 0 0 0 0 0 0) ∧
    decodeTableWord 8 0b01000101 = some (.cmdHvac 0 0 0 0 0 0) := by decide

theorem test_decode_codec_cipher_status :
    decodeTableWord 8 0b10000000 = some (.csum8 []) ∧
    decodeTableWord 8 0b10000001 = some (.cobsEnc true true []) ∧
    decodeTableWord 8 0b10000010 = some (.cobsDec true []) ∧
    decodeTableWord 8 0b10010000 = some (.teaEnc 0 0) ∧
    decodeTableWord 8 0b10010001 = some (.teaDec 0 0) ∧
    decodeTableWord 8 0b10010010 = some (.teaDecBuf [] []) ∧
    decodeTableWord 8 0b10100000 = some (.stsRelay []) ∧
    decodeTableWord 8 0b10100001 = some (.stsDim []) ∧
    decodeTableWord 8 0b10100010 = some (.stsRgb []) := by decide

theorem test_decode_chunks :
    decodeTableWord 8 0b10110000 = some (.chkPush2 0 []) ∧
    decodeTableWord 8 0b10110001 = some .chkEvict2 ∧
    decodeTableWord 8 0b10110010 = some (.chkPushK 0 []) ∧
    decodeTableWord 8 0b10110011 = some (.chkEvictK 0) ∧
    decodeTableWord 8 0b10110100 = some (.chkSetTmo 0) ∧
    decodeTableWord 8 0b10110101 = some (.qrdDecode true false [] []) ∧
    decodeTableWord 8 0b10110110 = some .chkReset ∧
    decodeTableWord 8 0b10110111 = some (.chkPeek false 0) := by decide

/-- V-OP 1 to 6. -/
theorem test_decode_unassigned :
    ([0x00, 0x03, 0x46, 0x83, 0xB8, 0xFF].map (decodeTableWord 8)).all (· = none) = true := by decide

/-- R62 and V-CMD 9: the fields reach their operands, each under its own name. -/
theorem test_decode_fields :
    decode { opsel := 0x43#8, fields :=
      { cmdId := 1, tableId := 2, deviceId := 3, mode := 4, brightness := 5, duration := 6, cycle1 := 7, cycle2 := 8 } } =
        .ok (.cmdDim 1 2 3 4 5 6 7 8) ∧
    decode { opsel := 0x44#8, fields :=
      { cmdId := 1, tableId := 2, deviceId := 3, mode := 4, r := 5, g := 6, b := 7, autoOff := 8, onInt := 9, offInt := 10,
        interval := 11 } } = .ok (.cmdRgb 1 2 3 4 5 6 7 8 9 10 11) ∧
    decode { opsel := 0x45#8, fields := { cmdId := 1, tableId := 2, deviceId := 3, command := 4, lowTrip := 5, highTrip := 6 } } =
        .ok (.cmdHvac 1 2 3 4 5 6) := by decide

/-- R81: a field below or above its range is clamped, not wrapped. -/
theorem test_decode_clamps :
    decode { opsel := 0x41#8, fields := { cmdId := 70000, tableId := -1, deviceId := 256, command := 255 } } =
      .ok (.cmdMove 0xFFFF 0 0xFF 0xFF) := by decide

/-- The word as the first request after reset: its step runs CHK.RESET, and the host's list is used up. -/
theorem test_fetch_word :
    step (State.reset.withFetchWord 8 0b10110110) = .next State.reset := by rfl

/-! ### The command encoder -/

/-- V-CMD 1. -/
theorem test_getDev : answer (.cmdGetDev 0x1234 1 0 255) start = some (0x00, .bytes [0x34, 0x12, 0x01, 0x01, 0x00, 0xFF]) := by
  decide
/-- V-CMD 3. -/
theorem test_getMeta : answer (.cmdGetMeta 2 3 16 8) start = some (0x00, .bytes [0x02, 0x00, 0x02, 0x03, 0x10, 0x08]) := by
  decide
/-- V-CMD 5: duplicates kept. -/
theorem test_switch :
    answer (.cmdSwitch 0xFFFF 0 false [1, 2, 2]) start = some (0x00, .bytes [0xFF, 0xFF, 0x40, 0, 0, 1, 2, 2]) := by decide
/-- V-CMD 8; and R228, where BUF_CAP is 6: ERR_PRECONDITION is tested before it. -/
theorem test_switch_256 :
    answer (.cmdSwitch 1 8 true (List.replicate 256 1)) start = some (0x85, .bytes []) ∧
    answer (.cmdSwitch 1 8 true (List.replicate 256 1)) limited = some (0x85, .bytes []) := by
  decide +kernel
/-- V-CMD 10. -/
theorem test_move : answer (.cmdMove 0x0100 3 7 0xFF) start = some (0x00, .bytes [0x00, 0x01, 0x41, 0x03, 0x07, 0xFF]) := by
  decide
/-- V-CMD 12. -/
theorem test_genie : answer (.cmdGenie 0x00FF 2 9 true) start = some (0x00, .bytes [0xFF, 0x00, 0x42, 0x02, 0x09, 0x01]) := by
  decide
/-- V-CMD 16: one zero cycle time replaces both. -/
theorem test_dim_cycle_default :
    answer (.cmdDim 3 4 6 2 255 5 500 0) start =
      some (0x00, .bytes [0x03, 0x00, 0x43, 0x04, 0x06, 0x02, 0xFF, 0x05, 0x00, 0xDC, 0x00, 0xDC]) := by decide
/-- V-CMD 18: big-endian cycle times. -/
theorem test_dim_cycles :
    answer (.cmdDim 3 4 6 3 16 0 300 400) start =
      some (0x00, .bytes [0x03, 0x00, 0x43, 0x04, 0x06, 0x03, 0x10, 0x00, 0x01, 0x2C, 0x01, 0x90]) := by decide
/-- V-CMD 25. -/
theorem test_rgb_blink :
    answer (.cmdRgb 5 1 2 2 0xFF 0x80 0 10 5 6 0) start =
      some (0x00, .bytes [0x05, 0x00, 0x44, 0x01, 0x02, 0x02, 0xFF, 0x80, 0x00, 0x0A, 0x05, 0x06]) := by decide
/-- V-CMD 29. -/
theorem test_rgb_unlisted : answer (.cmdRgb 5 1 2 3 0 0 0 0 0 0 0) start = some (0x85, .bytes []) := by decide
/-- V-CMD 32. -/
theorem test_hvac :
    answer (.cmdHvac 0x0A0B 1 4 0x21 68 76) start =
      some (0x00, .bytes [0x0B, 0x0A, 0x45, 0x01, 0x04, 0x21, 0x44, 0x4C]) := by decide

/-! ### Checksum and stuffing -/

/-- V-CS 9. -/
theorem test_csum8 : answer (.csum8 [1, 2, 3]) start = some (0x00, .u8 0x96) := by decide +kernel
/-- V-CS 12. -/
theorem test_csum8_digits :
    answer (.csum8 [0x31, 0x32, 0x33, 0x34, 0x35, 0x36, 0x37, 0x38, 0x39]) start = some (0x00, .u8 0xC7) := by decide +kernel
/-- V-ENC 16: the longest run, the largest fold. -/
theorem test_cobsEnc_long :
    answer (.cobsEnc true false (List.replicate 63 7 ++ [0, 0, 0, 9])) start =
      some (0x00, .bytes ([0x00, 0xFF] ++ List.replicate 63 7 ++ [0x01, 0x09, 0x00])) := by decide +kernel
/-- V-ENC 26: four zeros, and the checksum. -/
theorem test_cobsEnc_checksum :
    answer (.cobsEnc true true [0x08, 0x02, 0x05, 0x01, 0xFF, 0x00, 0x4B, 0x00, 0x00, 0x00, 0x00]) start =
      some (0x00, .bytes [0x00, 0x45, 0x08, 0x02, 0x05, 0x01, 0xFF, 0xC1, 0x4B, 0x40, 0x01, 0x51, 0x00]) := by decide +kernel
/-- V-DEC 19: leading and trailing bytes. -/
theorem test_cobsDec :
    answer (.cobsDec true [0x00, 0x41, 0x01, 0x05, 0x40, 0x08, 0x01, 0x05, 0xCC, 0x00, 0x99, 0x99]) start =
      some (0x00, .bytes [0x01, 0x00, 0x40, 0x08, 0x01, 0x05]) := by decide +kernel
/-- V-DEC 11: a delimiter where a literal is owed. -/
theorem test_cobsDec_truncated :
    answer (.cobsDec false [0x02, 0x01, 0x00, 0xBA, 0x00]) start = some (0x81, .bytes []) := by decide

/-! ### The block cipher -/

/-- V-TEA 8. -/
theorem test_teaEnc :
    answer (.teaEnc 0x0123456789ABCDEF 0x0011223344556677) start = some (0x00, .u64 0x10B99B86E6FF5C6C) := by decide +kernel
/-- V-TEA 2: one round, traced by hand in the spec. -/
theorem test_teaEnc_oneRound :
    answer (.teaEnc 0x0123456789ABCDEF 0x0011223344556677)
      { start with cfg := { Config.vectors with
          tea := .given { rounds := 1, delta := 0x9E3779B9, c0 := 0, c1 := 0, c2 := 0, c3 := 0 } } } =
      some (0x00, .u64 0x2F4C57F8F7A28C6F) := by decide +kernel
/-- V-TEA, the vectors of TEA.DEC. -/
theorem test_teaDec :
    answer (.teaDec 0x0123456789ABCDEF 0x0011223344556677) start = some (0x00, .u64 0xA308358D70D28C61) := by decide +kernel
/-- V-TEA 12, with four different constants, decrypted. -/
theorem test_teaDec_constants :
    answer (.teaDec 0xFFFFFFFFFFFFFFFF 0xC50B7359B45B6022)
      { start with cfg := { Config.vectors with
          tea := .given { rounds := 32, delta := 0x9E3779B9, c0 := 0x11111111, c1 := 0x22222222, c2 := 0x33333333,
                          c3 := 0x44444444 } } } =
      some (0x00, .u64 0xFFFFFFFFFFFFFFFF) := by decide +kernel
/-- V-TEA 16. -/
theorem test_teaDecBuf :
    answer (.teaDecBuf [0x01, 0x23, 0x45, 0x67, 0x89, 0xAB, 0xCD, 0xEF]
      [0x10, 0xB9, 0x9B, 0x86, 0xE6, 0xFF, 0x5C, 0x6C, 0x64, 0xB7, 0xCA, 0x4A, 0x23, 0x74, 0x9C, 0x9F]) start =
      some (0x00, .bytes [0x00, 0x11, 0x22, 0x33, 0x44, 0x55, 0x66, 0x77, 0x88, 0x99, 0xAA, 0xBB, 0xCC, 0xDD, 0xEE, 0xFF]) := by
  decide +kernel
/-- V-TEA 21. -/
theorem test_teaDecBuf_lengths :
    answer (.teaDecBuf (List.replicate 9 1) (List.replicate 7 1)) start = some (0x89, .bytes []) := by decide

/-! ### The status decoder -/

/-- V-STS 7. -/
theorem test_stsRelay :
    answer (.stsRelay [0x05, 0x02, 0x0A, 0xFE, 0x0B, 0x03]) start = some (0x00, .relays
      [{ tableId := 2, deviceId := 0x0A, raw := [0xFE], isOn := false },
       { tableId := 2, deviceId := 0x0B, raw := [0x03], isOn := true }]) := by decide
/-- V-STS 8, the source's own scenario. -/
theorem test_stsDim :
    answer (.stsDim [0x08, 0x02, 0x05, 0x01, 0xFF, 0x00, 0x4B, 0x00, 0x00, 0x00, 0x00]) start = some (0x00, .dims
      [{ tableId := 2, deviceId := 5, raw := [0x01, 0xFF, 0x00, 0x4B, 0x00, 0x00, 0x00, 0x00], isOn := true,
         brightness := 0x4B }]) := by decide
/-- V-STS 11. -/
theorem test_stsRgb :
    answer (.stsRgb [0x09, 0x01, 0x07, 0x06, 0xFF, 0x80, 0x00, 0x0A, 0x03, 0xE8, 0x00]) start = some (0x00, .rgbs
      [{ tableId := 1, deviceId := 7, raw := [0x06, 0xFF, 0x80, 0x00, 0x0A, 0x03, 0xE8, 0x00], mode := 6, red := 0xFF,
         green := 0x80, blue := 0, autoOff := 10, interval := 1000, isOn := true, effect := .fade3 }]) := by decide

/-! ### Reassembly -/

/-- V-CHK 6: a clock that went back makes the stored fragment stale. -/
theorem test_push2_clockBack :
    after (.chkPush2 50 fragB) busy =
      some { busy with fix := some { data := fragB, ts := 50 }, status := 0x02, out := .bytes [] } := by decide +kernel
/-- V-CHK 3, with TIMEOUT_MS = 0: age 0 is not greater than 0. -/
theorem test_push2_inTime :
    after (.chkPush2 100 fragB) { busy with timeoutMs := some 0 } =
      some { busy with timeoutMs := some 0, fix := none, status := 0x00, out := .bytes (fragA ++ fragB) } := by decide +kernel
/-- V-CHK 12. -/
theorem test_evict2 : after .chkEvict2 busy = some { busy with fix := none, status := 0x00 } := by decide +kernel
/-- V-CHK 15. -/
theorem test_pushK_final :
    after (.chkPushK 9 keyedFinal) busy =
      some { busy with
        kpend := [], status := 0x00,
        out := .completed { key := 0xE0, complete := true, frags := [keyed1, keyedFinal], ts := 5 } } := by decide +kernel
/-- V-CHK 17: a query id out of range. -/
theorem test_pushK_unrecognised :
    answer (.chkPushK 5 [0x00, 0x01, 0x02, 0xEA, 0x01]) start = some (0x86, .bytes []) := by decide
/-- V-CHK 25. -/
theorem test_evictK : after (.chkEvictK 0xE0) busy = some { busy with kpend := [], status := 0x00 } := by decide +kernel
/-- V-CHK 31. -/
theorem test_setTmo : after (.chkSetTmo 0) State.reset = some { State.reset with timeoutMs := some 0 } := by decide +kernel
/-- V-CHK 30. -/
theorem test_reset : after .chkReset busy = some { busy with fix := none, kpend := [] } := by decide +kernel
/-- V-CHK 10 and 23. -/
theorem test_peek :
    answer (.chkPeek false 0) busy = some (0x00, .peek true 100 1) ∧
    answer (.chkPeek true 0xE0) busy = some (0x00, .peek true 5 1) := by decide
/-- V-QRD 1; and R47, where BUF_CAP is 6: the 11 bytes of the list are over it, though the 3 of its payloads are not. -/
theorem test_qrd :
    let request : Instr :=
      .qrdDecode false false [] [[0x00, 0x01, 0x02, 0xE0, 0x01], [0x00, 0x0A, 0x02, 0xE0, 0x7F, 0x00]]
    answer request start = some (0x00, .u8 100) ∧ answer request limited = some (0x87, .bytes []) := by decide
/-- V-QRD 9. -/
theorem test_qrd_short :
    answer (.qrdDecode false false [] [[0x00, 0x0A, 0x02]]) start = some (0x88, .bytes [0x86]) := by decide

/-! ### Witnesses: the hypotheses of each statement, met by a concrete state and operands -/

theorem witness_UnassignedSelectorIsBadOp :
    ({ start with host := [.issue { opsel := 0xB8#8 }] } : State).host = .issue { opsel := 0xB8#8 } :: [] ∧
    (0xB8#8 : Byte) ∉ ([0x01, 0x02, 0x40, 0x41, 0x42, 0x43, 0x44, 0x45, 0x80, 0x81, 0x82, 0x90, 0x91, 0x92, 0xA0, 0xA1, 0xA2,
      0xB0, 0xB1, 0xB2, 0xB3, 0xB4, 0xB5, 0xB6, 0xB7] : List Byte) ∧
    (0xB7#8 : Byte) ∈ ([0x01, 0x02, 0x40, 0x41, 0x42, 0x43, 0x44, 0x45, 0x80, 0x81, 0x82, 0x90, 0x91, 0x92, 0xA0, 0xA1, 0xA2,
      0xB0, 0xB1, 0xB2, 0xB3, 0xB4, 0xB5, 0xB6, 0xB7] : List Byte) := ⟨rfl, by decide, by decide⟩

theorem witness_AbsentOptionalFieldsAreOne :
    ({ start with host := [.issue { opsel := 0x82#8, input := [0x00] }] } : State).host =
      .issue { opsel := 0x82#8, input := [0x00] } :: [] := rfl

theorem witness_EachStepTakesOneHostAction :
    start.host = [] ∧ ({ start with host := [.hardReset, .hardReset] } : State).host = .hardReset :: [.hardReset] := ⟨rfl, rfl⟩

/-- One request of each command, with a field outside its range; and the one that is stepped. -/
theorem witness_WideCommandFieldsAreClamped :
    ({ start with host := [.issue { opsel := 0x41#8, fields :=
      { cmdId := 65536, tableId := -1, deviceId := 256, command := 255 } }] } : State).host =
      .issue { opsel := 0x41#8, fields := { cmdId := 65536, tableId := -1, deviceId := 256, command := 255 } } :: [] ∧
    ([0x01, 0x02, 0x40, 0x41, 0x42, 0x43, 0x44, 0x45] : List Byte).map
      (fun o => ({ opsel := o, fields := { cycle1 := -1, cycle2 := 65536, interval := 70000 } } : Request).opsel) =
      [0x01#8, 0x02#8, 0x40#8, 0x41#8, 0x42#8, 0x43#8, 0x44#8, 0x45#8] := ⟨rfl, rfl⟩

theorem witness_StepRunsTheDecodedRequest :
    let q : Request := { opsel := 0xB4#8, fields := { timeout := 2 ^ 64 - 1 } }
    ({ start with host := [.issue q] } : State).host = .issue q :: [] ∧ decode q = .ok (.chkSetTmo (2 ^ 64 - 1)) ∧
      (Instr.chkSetTmo (2 ^ 64 - 1)).wf start.cfg.tsW = true := ⟨rfl, by decide, by decide⟩

theorem witness_HardResetGivesTheResetState :
    ({ busy with host := [.hardReset] } : State).host = .hardReset :: [] := rfl

/-- `busy`, with a request to come, meets the invariant, and its step answers a next state. -/
theorem busy_inv : ({ busy with host := [.issue { opsel := 0xB6#8 }] } : State).Inv := by
  refine ⟨by decide +kernel, ?_, ?_, ?_, ?_, ?_, ?_, ?_, ?_, ?_, ?_, ?_, ⟨.ok, rfl⟩⟩
  · intro t ht; cases ht; decide
  · intro f hf; cases hf; rfl
  · intro f hf; cases hf; decide
  · simp [busy, kpendWf]
  · intro p hp; rw [List.mem_singleton.1 hp]; decide
  · intro p hp; rw [List.mem_singleton.1 hp]; simp
  · intro p hp f hf; rw [List.mem_singleton.1 hp] at hf; rw [List.mem_singleton.1 hf]; exact ⟨by decide, by decide⟩
  · intro p hp f hf; rw [List.mem_singleton.1 hp] at hf ⊢; rw [List.mem_singleton.1 hf]; decide
  · intro p hp f hf; rw [List.mem_singleton.1 hp] at hf; rw [List.mem_singleton.1 hf]; decide
  · intro c hc; cases hc
  · intro p hp c hc; cases hc

theorem witness_EveryStepKeepsTheInvariant :
    let s : State := { busy with host := [.issue { opsel := 0xB6#8 }] }
    s.Inv ∧ step s = .next { s with host := [], fix := none, kpend := [], status := 0x00, out := .bytes [] } :=
  ⟨busy_inv, rfl⟩

/-- A plain failure, and one with a cause. -/
theorem witness_FailureChangesNothing :
    exec (.chkPush2 7 []) busy = .next { busy with status := 0x80, out := .bytes [] } ∧ (0x80#8).getLsbD 7 = true ∧
    exec (.qrdDecode false false [] []) busy = .next { busy with status := 0x88, out := .bytes [0x84] } ∧
    (0x88#8).getLsbD 7 = true := ⟨rfl, by decide, rfl, by decide⟩

theorem witness_PureOperationsDependOnOperandsAlone :
    pureOperation (.cobsDec true []) = true ∧ State.reset.cfg = busy.cfg ∧ State.reset ≠ busy := ⟨rfl, rfl, by decide +kernel⟩

theorem witness_NoCapacityErrorWithoutLimits :
    busy.cfg.bufCap = none ∧ busy.cfg.kslots = none ∧ busy.cfg.kfrags = none ∧
    exec .chkEvict2 busy = .next { busy with fix := none, status := 0x00, out := .bytes [] } := ⟨rfl, rfl, rfl, rfl⟩

/-- One byte over the limit; a payload that only its checksum takes over it; 7 and 255 ids; 20 bytes, with FIX empty and
with FIX and TIMEOUT_MS held; a list that its headers alone take over the limit; and the joined payloads of two whole
fragments, where no single one is over it. -/
theorem witness_InputOverBufCapIsRefused :
    let parts : List (Bytes × Bytes) :=
      [([0x00, 0x01, 0x02, 0xE0], List.replicate 4 0x01), ([0x00, 0x0A, 0x02, 0xE0], List.replicate 3 0x01)]
    limited.cfg.bufCap = some 6 ∧ 6 < (List.replicate 7 (1 : Byte)).length ∧
    6 < (List.replicate 6 (1 : Byte)).length + true.toNat ∧ capBinds limited.cfg = true ∧
    (List.replicate 7 (1 : Byte)).length ≤ 255 ∧ (6 < List.length (List.replicate 255 (1 : Byte)) ∧
      List.length (List.replicate 255 (1 : Byte)) ≤ 255) ∧
    fragA.length = 20 ∧ 6 < fragA.length ∧ (limited.fix = none ∨ limited.timeoutMs ≠ none) ∧
    (({ limited with fix := none } : State).fix = none ∨ limited.timeoutMs ≠ none) ∧
    6 < ([[0x00, 0x0A, 0x02, 0xE0, 0x01, 0x7F, 0x00]] : List Bytes).flatten.length ∧
    (∀ p ∈ parts, p.1.length = limited.cfg.khdrLen) ∧ 6 < (parts.flatMap Prod.snd).length := by decide +kernel

/-- Seven ids, over a limit of six, in each of the two readings. -/
theorem witness_BothReadingsOfBufCap :
    let i : Instr := .cmdSwitch 1 8 true (List.replicate 7 1)
    let listed : State := { limited with cfg := { limited.cfg with capScope := .listedOperations } }
    (∃ (cmdId : U16) (tableId : Byte) (on : Bool), i = .cmdSwitch cmdId tableId on (List.replicate 7 1)) ∧
    limited.cfg.capScope = .everyOperation ∧ ¬ fits limited.cfg.bufCap (List.replicate 7 (1 : Byte)).length ∧
    answer i limited = some (0x87, .bytes []) ∧ listed.cfg.capScope = .listedOperations ∧
    answer i listed = some (0x00, .bytes [0x01, 0x00, 0x40, 0x08, 0x01, 1, 1, 1, 1, 1, 1, 1]) :=
  ⟨⟨1, 8, true, rfl⟩, rfl, fun h => absurd (h 6 rfl) (by decide), by decide, rfl, by decide⟩

theorem witness_FixedAndKeyedModesDoNotMeet :
    (∃ now f, Instr.chkPush2 7 fragA = .chkPush2 now f) ∧ (∃ now f, Instr.chkPushK 7 keyed1 = .chkPushK now f) :=
  ⟨⟨7, fragA, rfl⟩, ⟨7, keyed1, rfl⟩⟩

/-- No limit; a limit that is met exactly; and a limit that does not bind CMD.SWITCH. -/
theorem witness_CmdSwitch :
    (capBinds start.cfg = true → fits start.cfg.bufCap (List.replicate 255 (1 : Byte)).length) ∧
    (capBinds limited.cfg = true → fits limited.cfg.bufCap (List.replicate 6 (1 : Byte)).length) ∧
    (capBinds { limited.cfg with capScope := .listedOperations } = true →
      fits limited.cfg.bufCap (List.replicate 255 (1 : Byte)).length) ∧
    (1 ≤ (List.replicate 255 (1 : Byte)).length ∧ (List.replicate 255 (1 : Byte)).length ≤ 255) ∧
    (1 ≤ [(1 : Byte)].length ∧ [(1 : Byte)].length ≤ 255) ∧
    (([] : Bytes).length = 0 ∨ 256 ≤ ([] : Bytes).length) ∧
    ((List.replicate 256 (1 : Byte)).length = 0 ∨ 256 ≤ (List.replicate 256 (1 : Byte)).length) := by
  simp only [List.length_replicate]
  exact ⟨fun _ => fits_none _, fun _ => fits_some (by decide), fun h => (by cases h), by decide, by decide, by decide, by decide⟩

theorem witness_CmdDim :
    (0x7F#8 = 0x00#8 ∨ 0x7F#8 = 0x7F#8) ∧
    ((0x02#8 = 0x02#8 ∨ 0x02#8 = 0x03#8) ∧ (500#16 = 0#16 ∨ 0#16 = 0#16)) ∧
    ((0x03#8 = 0x02#8 ∨ 0x03#8 = 0x03#8) ∧ 65535#16 ≠ 0#16 ∧ 1#16 ≠ 0#16) ∧
    (0x01#8 : Byte) ∉ ([0x00, 0x02, 0x03, 0x7F] : List Byte) ∧
    (0x04#8 : Byte) ∉ ([0x00, 0x02, 0x03, 0x7F] : List Byte) := by decide

theorem witness_CmdRgb :
    (0x00#8 = 0x00#8 ∨ 0x00#8 = 0x7F#8) ∧ (0x04#8 : Byte) ∈ ([0x04, 0x05, 0x06, 0x07, 0x08] : List Byte) ∧
    (0x08#8 : Byte) ∈ ([0x04, 0x05, 0x06, 0x07, 0x08] : List Byte) ∧
    (0x03#8 : Byte) ∉ ([0x00, 0x01, 0x02, 0x04, 0x05, 0x06, 0x07, 0x08, 0x7F] : List Byte) ∧
    (0x09#8 : Byte) ∉ ([0x00, 0x01, 0x02, 0x04, 0x05, 0x06, 0x07, 0x08, 0x7F] : List Byte) := by decide

theorem witness_EveryCommandBeginsWithIdAndOpcode :
    (encode (.cmdSwitch 1 8 true [5])).opsel ∈ ([0x01, 0x02, 0x40, 0x41, 0x42, 0x43, 0x44, 0x45] : List Byte) ∧
    answer (.cmdSwitch 1 8 true [5]) busy = some (0x00, .bytes [0x01, 0x00, 0x40, 0x08, 0x01, 0x05]) := by decide

/-- Exactly at the limit, and with no limit. -/
theorem witness_ChecksumFollowsTheTable :
    start.cfg.checksum = .table 0x55#8 Config.refTable ∧ fits start.cfg.bufCap ([1, 2, 3] ++ [4] : Bytes).length ∧
    ({ limited.cfg with checksum := Config.refChecksum }).checksum = .table 0x55#8 Config.refTable ∧
    fits ({ limited.cfg with checksum := Config.refChecksum }).bufCap ([1, 2, 3, 4, 5] ++ [6] : Bytes).length :=
  ⟨rfl, fits_none _, rfl, fits_some (by decide)⟩

/-- Exactly at the limit, for CSUM8 alone and with the appended byte; and with no limit. -/
theorem witness_ChecksumIsTheByteTheCodecAppends :
    fits limited.cfg.bufCap ([1, 2, 3, 4, 5, 6] : Bytes).length ∧ fits limited.cfg.bufCap ([1, 2, 3, 4, 5] : Bytes).length ∧
    fits limited.cfg.bufCap (([1, 2, 3, 4, 5] : Bytes).length + 1) ∧ fits busy.cfg.bufCap (([1, 2, 3] : Bytes).length + 1) :=
  ⟨fits_some (by decide), fits_some (by decide), fits_some (by decide), fits_none _⟩

/-- Exactly at the limit with a checksum, and with no limit. -/
theorem witness_CobsEncEmitsGreedyGroups :
    fits limited.cfg.bufCap ([1, 0, 0, 4, 5].length + true.toNat) ∧ fits busy.cfg.bufCap ([1, 2, 3].length + false.toNat) :=
  ⟨fits_some (by decide), fits_none _⟩

/-- Exactly at the limit without a checksum, and the empty buffer. -/
theorem witness_CobsFrameShape :
    fits limited.cfg.bufCap ([1, 0, 0, 4, 5, 6].length + false.toNat) ∧ fits busy.cfg.bufCap (([] : Bytes).length + false.toNat) :=
  ⟨fits_some (by decide), fits_none _⟩

/-- A payload and its frame, both within a set limit: the frame is exactly as long as the limit. -/
theorem witness_CobsRoundTrip :
    ({ busy with fix := none, cfg := limited.cfg } : State).cfg = limited.cfg ∧
    fits limited.cfg.bufCap ([0xAB, 0xCD, 0xEF].length + false.toNat) ∧
    exec (.cobsEnc true false [0xAB, 0xCD, 0xEF]) limited =
      .next { limited with status := 0x00, out := .bytes [0x00, 0x03, 0xAB, 0xCD, 0xEF, 0x00] } ∧
    fits limited.cfg.bufCap ([0x00, 0x03, 0xAB, 0xCD, 0xEF, 0x00] : Bytes).length :=
  ⟨rfl, fits_some (by decide), rfl, fits_some (by decide)⟩

/-- Groups of every kind: literals with a fold, no literal, the largest code byte; and a non-greedy grouping. -/
theorem groups_legal :
    ∀ g ∈ ([⟨[0x01], 1⟩, ⟨[], 3⟩, ⟨List.replicate 63 7, 3⟩, ⟨[0x01], 0⟩, ⟨[0xBA], 0⟩] : List CobsGroup), g.legal := by
  intro g hg
  simp only [List.mem_cons, List.not_mem_nil, or_false] at hg
  rcases hg with rfl | rfl | rfl | rfl | rfl <;> simp [CobsGroup.legal]

/-- Without a limit; and with one that both IN, `00 41 01 C0 00 99`, and its five unstuffed bytes fit, IN exactly. -/
theorem witness_CobsDecAcceptsEveryGrouping :
    (∀ g ∈ ([⟨[0x01], 1⟩, ⟨[], 3⟩, ⟨List.replicate 63 7, 3⟩, ⟨[0x01], 0⟩, ⟨[0xBA], 0⟩] : List CobsGroup), g.legal) ∧
    (([⟨[0x01], 1⟩] : List CobsGroup) ≠ [] ∨ ([0x99] : Bytes) = []) ∧ (([] : List CobsGroup) ≠ [] ∨ ([] : Bytes) = []) ∧
    fits busy.cfg.bufCap (List.replicate 2 0x00#8 ++ streamOf ([⟨[0x01], 1⟩, ⟨[], 3⟩, ⟨List.replicate 63 7, 3⟩, ⟨[0x01], 0⟩, ⟨[0xBA], 0⟩] : List CobsGroup) ++
      [0x00#8] ++ [0x99]).length ∧
    fits busy.cfg.bufCap (plainOf ([⟨[0x01], 1⟩, ⟨[], 3⟩, ⟨List.replicate 63 7, 3⟩, ⟨[0x01], 0⟩, ⟨[0xBA], 0⟩] : List CobsGroup)).length ∧
    fits limited.cfg.bufCap (List.replicate 1 0x00#8 ++ streamOf [⟨[0x01], 1⟩, ⟨[], 3⟩] ++ [0x00#8] ++ [0x99]).length ∧
    fits limited.cfg.bufCap (plainOf [⟨[0x01], 1⟩, ⟨[], 3⟩]).length :=
  ⟨groups_legal, .inl (by simp), .inr rfl, fits_none _, fits_none _, fits_some (by decide), fits_some (by decide)⟩

/-- A code byte that owes two literals and gets one, and one that owes one and gets none; groups without a terminator.
Without a limit, and exactly at one of six bytes: `41 01 C2 01 00 99` and what it unstuffs to. -/
theorem witness_CobsDecMalformedStreams :
    (∀ g ∈ ([⟨[0x01], 1⟩, ⟨[], 3⟩, ⟨List.replicate 63 7, 3⟩, ⟨[0x01], 0⟩, ⟨[0xBA], 0⟩] : List CobsGroup), g.legal) ∧
    (0xC2#8 : Byte) ≠ 0x00#8 ∧ (∀ b ∈ ([0x01] : Bytes), b ≠ 0x00#8) ∧ ([0x01] : Bytes).length < (0xC2#8).toNat % 64 ∧
    ([] : Bytes).length < (0x41#8).toNat % 64 ∧
    fits busy.cfg.bufCap (plainOf ([⟨[0x01], 1⟩, ⟨[], 3⟩, ⟨List.replicate 63 7, 3⟩, ⟨[0x01], 0⟩, ⟨[0xBA], 0⟩] : List CobsGroup) ++ [0x01]).length ∧
    fits limited.cfg.bufCap (plainOf [⟨[0x01], 1⟩] ++ [0x01]).length ∧
    fits limited.cfg.bufCap
      ((List.replicate 0 0x00#8 ++ streamOf [⟨[0x01], 1⟩] ++ 0xC2#8 :: [0x01]) ++ [0x00#8] ++ [0x99]).length ∧
    fits limited.cfg.bufCap (List.replicate 0 0x00#8 ++ streamOf [⟨[0x01], 1⟩] ++ 0xC2#8 :: [0x01]).length ∧
    ([⟨[0x01], 1⟩] : List CobsGroup) ≠ [] ∧ fits limited.cfg.bufCap (plainOf [⟨[0x01], 1⟩]).length ∧
    fits limited.cfg.bufCap (List.replicate 4 0x00#8 ++ streamOf [⟨[0x01], 1⟩]).length :=
  ⟨groups_legal, by decide, by decide, by decide, by decide, fits_none _, fits_some (by decide), fits_some (by decide),
    fits_some (by decide), by simp, fits_some (by decide), fits_some (by decide)⟩

/-- `00 C0 C0 40`, then any byte: five bytes of IN, and seven unstuffed, one over the limit. -/
theorem witness_CobsDecOutputOverBufCapIsRefused :
    let gs : List CobsGroup := [⟨[], 3⟩, ⟨[], 3⟩, ⟨[], 1⟩]
    limited.cfg.bufCap = some 6 ∧ (∀ g ∈ gs, g.legal) ∧ 6 < (plainOf gs).length ∧
    (List.replicate 1 0x00#8 ++ streamOf gs ++ [0x99]).length ≤ 6 := by
  refine ⟨rfl, ?_, by decide, by decide⟩
  intro g hg
  simp only [List.mem_cons, List.not_mem_nil, or_false] at hg
  rcases hg with rfl | rfl | rfl <;> simp [CobsGroup.legal]

/-- V-DEC 2, 8 and 9: an empty output; a checksum that agrees; one that does not. -/
theorem witness_CobsDecVerifiesTheChecksum :
    answer (.cobsDec false [0x00]) start = some (0x00, .bytes []) ∧
    answer (.cobsDec false [0x02, 0x01, 0xBA, 0x00]) start = some (0x00, .bytes ([0x01] ++ [0xBA])) ∧
    checksum8 start.cfg [0x01] = 0xBA#8 ∧
    answer (.cobsDec false [0x02, 0x01, 0xBB, 0x00]) start = some (0x00, .bytes ([0x01] ++ [0xBB])) ∧
    checksum8 start.cfg [0x01] ≠ 0xBB#8 ∧ answer (.cobsDec false []) start = some (0x84, .bytes []) := by decide +kernel

/-- With the identity table, a permutation, the checksum is the XOR of the bytes and the seed: by hand,
0x55 ^ 0x11 ^ 0x22 ^ 0x00 ^ 0x33 = 0x55. The literal 0x22 is changed to 0x23, and to 0x00. The frame, without leading
delimiters, is `42 11 22 02 33 55 00`; BUF_CAP is its length. -/
theorem witness_CobsLiteralChangeIsDetected :
    let entries : Vector Byte 256 := Vector.ofFn fun i => BitVec.ofNat 8 i.val
    let s : State := { busy with cfg := { Config.standard with checksum := .table 0x55#8 entries, bufCap := some 7 } }
    s.cfg.checksum = .table 0x55#8 entries ∧ entries.toList.Nodup ∧
    fits s.cfg.bufCap (List.replicate 0 0x00#8 ++ streamOf [] ++
      BitVec.ofNat 8 (([0x11] ++ 0x22 :: [] : Bytes).length + 64 * 1) :: ([0x11] ++ 0x22 :: []) ++
      streamOf [{ lits := [0x33, 0x55], zeros := 0 }] ++ [0x00#8]).length ∧
    fits s.cfg.bufCap (([0x11, 0x22, 0x00, 0x33] : Bytes).length + 1) ∧
    (∀ g ∈ ([] ++ { lits := [0x11] ++ 0x22 :: [], zeros := 1 } :: [{ lits := [0x33, 0x55], zeros := 0 }] : List CobsGroup), g.legal) ∧
    plainOf ([] ++ { lits := [0x11] ++ 0x22 :: [], zeros := 1 } :: [{ lits := [0x33, 0x55], zeros := 0 }]) =
      [0x11, 0x22, 0x00, 0x33] ++ [checksum8 s.cfg [0x11, 0x22, 0x00, 0x33]] ∧
    (0x23#8 : Byte) ≠ 0x22#8 ∧ (0x00#8 : Byte) ≠ 0x22#8 := by
  refine ⟨rfl, ?_, fits_some (by decide), fits_some (by decide), ?_, by decide +kernel, by decide, by decide⟩
  · simp only [Vector.toList_ofFn, List.nodup_ofFn]
    intro a b h
    have := congrArg BitVec.toNat h
    simp only [BitVec.toNat_ofNat] at this
    exact Fin.ext (by omega)
  · intro g hg
    simp only [List.nil_append, List.mem_cons, List.not_mem_nil, or_false] at hg
    rcases hg with rfl | rfl <;> simp [CobsGroup.legal]

theorem witness_CipherRoundTrip : busy.cfg = State.reset.cfg := rfl

theorem witness_CipherIteratesOneRound :
    start.cfg.tea = .given { rounds := 32, delta := 0x9E3779B9, c0 := 0, c1 := 0, c2 := 0, c3 := 0 } ∧
    start.cfg.subkey = .additive ∧ start.cfg.mix = .classic := ⟨rfl, rfl, rfl⟩

/-- Bad data with a good key; good data with a bad key, each on both sides of the length. -/
theorem witness_DecBufPrecondition :
    fits start.cfg.bufCap (List.replicate 15 (1 : Byte)).length ∧
    ((List.replicate 15 (1 : Byte)).length % 8 ≠ 0 ∨ (List.replicate 8 (1 : Byte)).length ≠ 8) ∧
    (([] : Bytes).length % 8 ≠ 0 ∨ (List.replicate 7 (1 : Byte)).length ≠ 8) ∧
    ((List.replicate 16 (1 : Byte)).length % 8 ≠ 0 ∨ (List.replicate 9 (1 : Byte)).length ≠ 8) :=
  ⟨fits_none _, by simp, by simp, by simp⟩

theorem witness_DecBufDecryptsBlockByBlock :
    fits start.cfg.bufCap (8 * ([0, 1] : List U64).length) ∧
    fits ({ busy with cfg := { Config.standard with bufCap := some 16 } } : State).cfg.bufCap (8 * ([0, 1] : List U64).length) :=
  ⟨fits_none _, fits_some (by decide)⟩

theorem witness_StsRelayRecords :
    ([0x0C] : Bytes).length < 2 ∧ fits limited.cfg.bufCap (2 + 2 * [(0x0A#8, 0x01#8)].length + ([0x0C] : Bytes).length) ∧
    fits limited.cfg.bufCap ([0x05] : Bytes).length ∧ ¬ fits limited.cfg.bufCap (List.replicate 7 (1 : Byte)).length :=
  ⟨by decide, fits_some (by decide), fits_some (by decide), fun h => absurd (h 6 rfl) (by decide)⟩

theorem witness_StsDimRecords :
    (List.replicate 8 (1 : Byte)).length < 9 ∧
    fits start.cfg.bufCap (2 + 9 * [(0x05#8, Vector.replicate 8 (1 : Byte))].length + (List.replicate 8 (1 : Byte)).length) ∧
    ([0x05] : Bytes).length < 2 ∧ fits start.cfg.bufCap ([0x05] : Bytes).length ∧
    ¬ fits limited.cfg.bufCap (List.replicate 7 (1 : Byte)).length :=
  ⟨by decide, fits_none _, by decide, fits_none _, fun h => absurd (h 6 rfl) (by decide)⟩

theorem witness_StsRgbRecords :
    ([] : Bytes).length < 9 ∧
    fits start.cfg.bufCap (2 + 9 * [(0x05#8, Vector.replicate 8 (1 : Byte))].length + ([] : Bytes).length) ∧
    ([] : Bytes).length < 2 ∧ fits start.cfg.bufCap ([] : Bytes).length ∧
    ¬ fits limited.cfg.bufCap (List.replicate 7 (1 : Byte)).length :=
  ⟨by decide, fits_none _, by decide, fits_none _, fun h => absurd (h 6 rfl) (by decide)⟩

theorem witness_EffectLabelTable :
    (3 : Byte) ∉ ([0, 1, 2, 4, 5, 6, 7, 8] : List Byte) ∧ (9 : Byte) ∉ ([0, 1, 2, 4, 5, 6, 7, 8] : List Byte) := by decide

theorem witness_SetTimeout : 2 ^ 64 - 1 < 2 ^ start.cfg.tsW := by decide

/-- Every row: 19 bytes; the first fragment; no timeout; an age just above, and just at, the timeout; a wrapped age.
Without a limit, with one of exactly 20 bytes, and with a smaller one that does not bind CHK.PUSH2. -/
theorem witness_PushFixedFragment :
    1101 < 2 ^ busy.cfg.tsW ∧ (List.replicate 19 (1 : Byte)).length ≠ 20 ∧ fragB.length = 20 ∧ start.fix = none ∧
    busy.fix ≠ none ∧ ({ busy with timeoutMs := none } : State).timeoutMs = none ∧
    busy.fix = some { data := fragA, ts := 100 } ∧ 100 < 2 ^ busy.cfg.tsW ∧ busy.timeoutMs = some 1000 ∧
    1000 < 1101 - 100 ∧ 1100 - 100 ≤ 1000 ∧ 1000 < 2 ^ busy.cfg.tsW - (100 - 50) := by decide +kernel

theorem witness_PushFixedFragment_capacity :
    (capBinds busy.cfg = true → fits busy.cfg.bufCap fragB.length) ∧
    (capBinds start.cfg = true → fits start.cfg.bufCap fragB.length) ∧
    (capBinds { Config.standard with capScope := .everyOperation } = true → fits (some 20) fragB.length) ∧
    (capBinds { limited.cfg with capScope := .listedOperations } = true → fits limited.cfg.bufCap fragB.length) :=
  ⟨fun _ => fits_none _, fun _ => fits_none _, fun _ => fits_some (by decide), fun h => (by cases h)⟩

/-- With BUF_CAP at 20, which binds CHK.PUSH2. -/
theorem witness_ReassemblyTimeout :
    let s : State := { start with cfg := { Config.vectors with bufCap := some 20, capScope := .everyOperation }, timeoutMs := some 1000 }
    s.fix = none ∧ s.timeoutMs = some 1000 ∧ 1000 + 1 < 2 ^ s.cfg.tsW ∧ fragA.length = 20 ∧ fragB.length = 20 ∧
      (capBinds s.cfg = true → fits s.cfg.bufCap 20) ∧ 1000 ≤ 1000 :=
  ⟨rfl, rfl, by decide, rfl, rfl, fun _ => fits_some (by decide), by decide⟩

/-- A fragment of each kind: at the end of the id range, and one beyond it; and, with every limit set and another
header, one that is rejected and one that is accepted. -/
theorem witness_KeyedDetection :
    let c : Config := { limited.cfg with khdrLen := 2, kmarkOff := 0, kqidOff := 1, kmark := 0x00#8, kqidLo := 0x10#8, kqidHi := 0x10#8 }
    (fits limited.cfg.bufCap ([0x00, 0x01, 0x02] : Bytes).length ∧ kdet limited.cfg [0x00, 0x01, 0x02] = false) ∧
    (fits c.bufCap ([0x00, 0x11] : Bytes).length ∧ kdet c [0x00, 0x11] = false ∧ kdet c [0x00, 0x10] = true ∧ c.kdet = .header) ∧
    start.cfg = { start.cfg with
      kdet := .header, khdrLen := 4, ktypeOff := 1, kmarkOff := 2, kqidOff := 3, kmark := 0x02#8, kqidLo := 0xE0#8,
      kqidHi := 0xE9#8, bufCap := none, kslots := none, kfrags := none } ∧
    (∃ (type q : Byte) (payload : Bytes), ([0x00, 0x0A, 0x02, 0xE9] : Bytes) = 0x00#8 :: type :: 0x02#8 :: q :: payload ∧
      0xE0 ≤ q.toNat ∧ q.toNat ≤ 0xE9) ∧
    (¬ ∃ (type q : Byte) (payload : Bytes), ([0x00, 0x0A, 0x02, 0xEA] : Bytes) = 0x00#8 :: type :: 0x02#8 :: q :: payload ∧
      0xE0 ≤ q.toNat ∧ q.toNat ≤ 0xE9) := by
  refine ⟨⟨fits_some (by decide), by decide⟩, ⟨fits_some (by decide), by decide, by decide, rfl⟩, rfl,
    ⟨0x0A, 0xE9, [], rfl, by decide, by decide⟩, ?_⟩
  rintro ⟨type, q, payload, h, -, hq⟩
  simp only [List.cons.injEq] at h
  rw [← h.2.2.2.1] at hq
  exact absurd hq (by decide)

/-- A second fragment of a pending query, where KFRAGS allows exactly two; and a new query, where KSLOTS allows it. -/
theorem witness_PushKeyedFragment :
    let s : State := { busy with cfg := { Config.standard with bufCap := some 6, capScope := .everyOperation, kslots := some 2, kfrags := some 2 } }
    7 < 2 ^ s.cfg.tsW ∧ kdet s.cfg keyed1 = true ∧ fits s.cfg.bufCap keyed1.length ∧ fragType s.cfg keyed1 ≠ 0x0A#8 ∧
    fits s.cfg.kfrags ([keyed1] ++ [keyed1]).length ∧ kpendFind s.kpend (fragQid s.cfg keyed1) ≠ none ∧
    kdet s.cfg [0x00, 0x01, 0x02, 0xE1] = true ∧ fragType s.cfg [0x00, 0x01, 0x02, 0xE1] ≠ 0x0A#8 ∧
    kpendFind s.kpend (fragQid s.cfg [0x00, 0x01, 0x02, 0xE1]) = none ∧ (∀ n, s.cfg.kslots = some n → s.kpend.length < n) :=
  ⟨by decide, by decide, fits_some (by decide), by decide, fits_some (by decide), by decide, by decide, by decide, by decide,
   fun _ h => Option.some.inj h ▸ by decide⟩

/-- The final fragment of a pending query, and of one that is not (V-CHK 29). -/
theorem witness_FinalKeyedFragmentCompletes :
    9 < 2 ^ busy.cfg.tsW ∧ kdet busy.cfg keyedFinal = true ∧ fits busy.cfg.bufCap keyedFinal.length ∧
    fragType busy.cfg keyedFinal = 0x0A#8 ∧ fits busy.cfg.kfrags ([keyed1] ++ [keyedFinal]).length ∧
    kpendFind busy.kpend (fragQid busy.cfg keyedFinal) ≠ none ∧
    kpendFind start.kpend (fragQid start.cfg keyedFinal) = none ∧
    fits limited.cfg.kfrags [keyedFinal].length :=
  ⟨by decide, by decide, fits_none _, by decide, fits_none _, by decide, by decide, fits_some (by decide)⟩

/-- V-CHK 27 and 28. -/
theorem witness_KeyedLimits :
    kdet limited.cfg keyed1 = true ∧ fits limited.cfg.bufCap keyed1.length ∧ limited.cfg.kfrags = some 1 ∧
    kpendFind limited.kpend (fragQid limited.cfg keyed1) = some { frags := [keyed1], ts := 5 } ∧ 1 ≤ [keyed1].length ∧
    kdet limited.cfg [0x00, 0x01, 0x02, 0xE1, 0x01] = true ∧
    fits limited.cfg.bufCap ([0x00, 0x01, 0x02, 0xE1, 0x01] : Bytes).length ∧ limited.cfg.kslots = some 1 ∧
    1 ≤ limited.kpend.length ∧ kpendFind limited.kpend (fragQid limited.cfg [0x00, 0x01, 0x02, 0xE1, 0x01]) = none ∧
    fragType limited.cfg [0x00, 0x01, 0x02, 0xE1, 0x01] ≠ 0x0A#8 :=
  ⟨by decide, fits_some (by decide), rfl, by decide, by decide, by decide, fits_some (by decide), rfl, by decide, by decide,
   by decide⟩

theorem witness_KeyedTimeIsUsedOnceOnly : kpendFind busy.kpend (fragQid busy.cfg keyedFinal) ≠ none := by decide

theorem witness_KeyedQueryRunsToCompletion :
    kpendFind start.kpend 0xE0#8 = none ∧ start.cfg.bufCap = none ∧ start.cfg.kslots = none ∧ start.cfg.kfrags = none ∧
    5 < 2 ^ start.cfg.tsW ∧
    (∀ f ∈ keyed1 :: keyedFinal :: [(6, keyed1), (7, keyed1)].map Prod.snd,
      kdet start.cfg f = true ∧ fragQid start.cfg f = 0xE0#8) ∧
    (∀ f ∈ keyed1 :: [(6, keyed1), (7, keyed1)].map Prod.snd, fragType start.cfg f ≠ 0x0A#8) ∧
    fragType start.cfg keyedFinal = 0x0A#8 := by decide

/-- A key that is absent, in a state that holds another. -/
theorem witness_EvictKey : kpendFind busy.kpend 0xE1#8 = none ∧ kpendFind busy.kpend 0xE0#8 ≠ none := by decide

/-- Both answers of each form of CHK.PEEK. -/
theorem witness_PeekReportsWhatIsPending :
    start.fix = none ∧ busy.fix = some { data := fragA, ts := 100 } ∧ kpendFind busy.kpend 0xE1#8 = none ∧
    kpendFind busy.kpend 0xE0#8 = some { frags := [keyed1], ts := 5 } := by decide

/-- A fragment one byte short of its header; whole fragments whose stage fails, whose frame is empty, and whose frame
has a level, without and with decryption. -/
theorem witness_QueryDecodeChainsItsStages :
    (∃ f ∈ ([[0x00, 0x0A, 0x02]] : List Bytes), f.length < start.cfg.khdrLen) ∧
    (∀ p ∈ ([([0x00, 0x01, 0x02, 0xE0], [0x01]), ([0x00, 0x0A, 0x02, 0xE0], [0x7F, 0x00])] : List (Bytes × Bytes)),
      p.1.length = start.cfg.khdrLen) ∧
    answer (.cobsDec false []) start = some (0x84, .bytes []) ∧ answer (.cobsDec false [0x00]) start = some (0x00, .bytes []) ∧
    answer (.cobsDec false [0x01, 0x7F, 0x00]) start = some (0x00, .bytes [0x7F]) ∧
    answer (.teaDecBuf [] [0x7F]) start = some (0x89, .bytes []) ∧
    answer (.teaDecBuf [0x01, 0x23, 0x45, 0x67, 0x89, 0xAB, 0xCD, 0xEF] [0x10, 0xB9, 0x9B, 0x86, 0xE6, 0xFF, 0x5C, 0x6C]) start =
      some (0x00, .bytes [0x00, 0x11, 0x22, 0x33, 0x44, 0x55, 0x66, 0x77]) := by decide +kernel

/-- A list of 11 bytes: without a limit, exactly at one, and over one that its body fits. -/
theorem witness_QueryDecodeChainsItsStages_capacity :
    let parts : List (Bytes × Bytes) := [([0x00, 0x01, 0x02, 0xE0], [0x01]), ([0x00, 0x0A, 0x02, 0xE0], [0x7F, 0x00])]
    (capBinds start.cfg = true → fits start.cfg.bufCap (parts.map fun p => p.1 ++ p.2).flatten.length) ∧
    (capBinds { Config.standard with capScope := .everyOperation } = true → fits (some 11) (parts.map fun p => p.1 ++ p.2).flatten.length) ∧
    ¬ (capBinds limited.cfg = true → fits limited.cfg.bufCap (parts.map fun p => p.1 ++ p.2).flatten.length) ∧
    answer (.cobsDec false (parts.flatMap Prod.snd)) limited = some (0x00, .bytes [0x7F]) :=
  ⟨fun _ => fits_none _, fun _ => fits_some (by decide), fun h => absurd (h rfl 6 rfl) (by decide), by decide⟩

/-- Exactly at a set limit: body `00 01 7F 00`, cut after the code byte; the 12 bytes of the whole list, where the limit
binds QRD.DECODE itself, and the 4 of the body, where it does not. -/
theorem witness_QueryDecodeReadsAFragmentedFrame :
    let gs : List CobsGroup := [{ lits := [0x7F], zeros := 0 }]
    let parts : List (Bytes × Bytes) := [([0x00, 0x01, 0x02, 0xE0], [0x00, 0x01]), ([0x00, 0x0A, 0x02, 0xE0], [0x7F, 0x00])]
    let s : State := { busy with cfg := { Config.standard with bufCap := some 12, capScope := .everyOperation } }
    let s' : State := { busy with cfg := { Config.standard with bufCap := some 4, capScope := .listedOperations } }
    (∀ g ∈ gs, g.legal) ∧ plainOf gs = 0x7F :: [] ++ (if false then [checksum8 s.cfg [0x7F]] else []) ∧
    (∀ p ∈ parts, p.1.length = s.cfg.khdrLen) ∧
    parts.flatMap Prod.snd = List.replicate 1 0x00#8 ++ streamOf gs ++ [0x00#8] ∧
    fits s.cfg.bufCap (1 + (streamOf gs).length + 1) ∧ fits s.cfg.bufCap (plainOf gs).length ∧
    (capBinds s.cfg = true → fits s.cfg.bufCap (parts.map fun p => p.1 ++ p.2).flatten.length) ∧
    fits s'.cfg.bufCap (1 + (streamOf gs).length + 1) ∧ fits s'.cfg.bufCap (plainOf gs).length ∧
    (capBinds s'.cfg = true → fits s'.cfg.bufCap (parts.map fun p => p.1 ++ p.2).flatten.length) := by
  refine ⟨?_, rfl, by decide, rfl, fits_some (by decide), fits_some (by decide), fun _ => fits_some (by decide),
    fits_some (by decide), fits_some (by decide), fun h => (by cases h)⟩
  intro g hg
  rw [List.mem_singleton.1 hg]
  simp [CobsGroup.legal]

end Sys2Proof.Tests
end

section
/-!
SUPPORT. What an operation may write besides the latches, said once for all 25 operations; and the settled statements
about requests, steps and the state after reset.
-/

namespace Sys2Proof.Machine

/-! ### Operations that write the latches only (R45) -/

/-- The outcome is the state `s` with a response in its latches. -/
def Responds (s : State) (r : Host.Outcome State Fault Refusal) : Prop :=
  ∃ st o, r = .next (s.respond st o)

theorem responds_ite {s : State} {p : Prop} [Decidable p] {x y : Host.Outcome State Fault Refusal}
    (hx : Responds s x) (hy : Responds s y) : Responds s (if p then x else y) := by
  split
  · exact hx
  · exact hy

theorem responds_finish (s : State) (r : Except Status Bytes) : Responds s (.next (s.finish r)) := by
  cases r with
  | ok b => exact ⟨.ok, .bytes b, rfl⟩
  | error e => exact ⟨e, emptyOut, rfl⟩

/-- The capacity test of log 16 before a response is itself a response. -/
theorem responds_withinInputCap (s : State) (n : Nat) (st : Status) (o : Out) :
    Responds s (.next (s.withinInputCap n (s.respond st o))) := by
  by_cases h : capBinds s.cfg = true → fits s.cfg.bufCap n
  · exact ⟨st, o, by rw [State.withinInputCap_of_fits h]⟩
  · obtain ⟨hbinds, hover⟩ := Classical.not_imp.1 h
    exact ⟨.errCapacity, emptyOut, by rw [State.withinInputCap_of_over hbinds hover]; rfl⟩

theorem responds_cmdRgb (cmdId : U16) (tableId deviceId mode r g b autoOff onInt offInt : Byte) (interval : U16)
    (s : State) :
    Responds s (execCmdRgb cmdId tableId deviceId mode r g b autoOff onInt offInt interval s) := by
  unfold execCmdRgb
  split
  · exact ⟨_, _, rfl⟩
  · exact ⟨_, _, rfl⟩

theorem responds_qrdDecode (cs decrypt : Bool) (key : Bytes) (fragments : List Bytes) (s : State) :
    Responds s (execQrdDecode cs decrypt key fragments s) := by
  obtain ⟨_, _, h⟩ | ⟨_, h⟩ | ⟨_, _, _, _, h⟩ | ⟨_, _, _, _, h⟩ := execQrdDecode_cases cs decrypt key fragments s
  all_goals exact ⟨_, _, h⟩

/-- R45: the pure operations write the latches and nothing else. -/
theorem responds_of_pureOperation {i : Instr} (h : pureOperation i = true) (s : State) : Responds s (exec i s) := by
  cases i with
  | cmdGetDev | cmdGetMeta | cmdMove | cmdGenie | cmdDim | cmdHvac | teaEnc | teaDec => exact ⟨_, _, rfl⟩
  | cmdSwitch => exact responds_ite ⟨_, _, rfl⟩ (responds_withinInputCap ..)
  | cmdRgb => exact responds_cmdRgb ..
  | csum8 | stsRelay | stsDim | stsRgb => exact responds_ite ⟨_, _, rfl⟩ ⟨_, _, rfl⟩
  | cobsEnc | cobsDec | teaDecBuf => exact responds_finish ..
  | qrdDecode => exact responds_qrdDecode ..
  | chkPush2 | chkEvict2 | chkPushK | chkEvictK | chkSetTmo | chkReset | chkPeek => cases h

/-! ### What an operation may write besides the latches -/

/-- The states that differ from `s` by what one operation may write, the latches aside: TIMEOUT_MS (R191), FIX (R192 to
R196), an entry of KPEND (R199 to R201), or FIX and KPEND together (R203). A fragment is stored in FIX or KPEND only
after its tests. -/
inductive Updates (s : State) : State → Prop where
  | nothing : Updates s s
  | timeout (v : Nat) : Updates s (s.setTimeout (some (timeOperand s.cfg v)))
  | fixStore (now : Nat) (f : Bytes) (hlen : f.length = chunkSize) :
      Updates s (s.setFix (some { data := f, ts := timeOperand s.cfg now }))
  | fixClear : Updates s (s.setFix none)
  | kpendStore (now : Nat) (f : Bytes) (hdet : kdet s.cfg f = true) (hfinal : fragType s.cfg f ≠ finalMark)
      (hfrags : fits s.cfg.kfrags
        (appendFragment (kpendFind s.kpend (fragQid s.cfg f)) (timeOperand s.cfg now) f).frags.length)
      (hslot : ¬ (kpendFind s.kpend (fragQid s.cfg f) = none ∧ atCap s.cfg.kslots s.kpend.length = true)) :
      Updates s (s.setKpend (kpendInsert s.kpend (fragQid s.cfg f)
        (appendFragment (kpendFind s.kpend (fragQid s.cfg f)) (timeOperand s.cfg now) f)))
  | kpendRemove (q : Byte) : Updates s (s.setKpend (kpendRemove s.kpend q))
  | clearBoth : Updates s ((s.setFix none).setKpend [])

theorem Updates.cfg_eq {s u : State} (h : Updates s u) : u.cfg = s.cfg := by
  cases h <;> rfl

theorem Updates.host_eq {s u : State} (h : Updates s u) : u.host = s.host := by
  cases h <;> rfl

/-- The outcome is one of the updates of `s`, with a response in its latches. -/
def UpdatesAndResponds (s : State) (r : Host.Outcome State Fault Refusal) : Prop :=
  ∃ u st o, Updates s u ∧ r = .next (u.respond st o)

theorem Responds.updates {s : State} {r : Host.Outcome State Fault Refusal} (h : Responds s r) :
    UpdatesAndResponds s r := by
  obtain ⟨st, o, hr⟩ := h
  exact ⟨s, st, o, .nothing, hr⟩

theorem execChkPush2_updates (now : Nat) (f : Bytes) (s : State) : UpdatesAndResponds s (execChkPush2 now f s) := by
  obtain ⟨_, h⟩ | ⟨_, _, _, h⟩ | ⟨_, _, _, h⟩ | ⟨hlen, _, _, h⟩ | ⟨hlen, _, _, _, _, _, _, h⟩ | ⟨_, _, _, _, _, _, _, h⟩ :=
    execChkPush2_cases now f s
  · exact ⟨_, _, _, .nothing, h⟩
  · exact ⟨_, _, _, .nothing, h⟩
  · exact ⟨_, _, _, .nothing, h⟩
  · exact ⟨_, _, _, .fixStore now f hlen, h⟩
  · exact ⟨_, _, _, .fixStore now f hlen, h⟩
  · exact ⟨_, _, _, .fixClear, h⟩

theorem execChkPushK_updates (now : Nat) (f : Bytes) (s : State) : UpdatesAndResponds s (execChkPushK now f s) := by
  obtain ⟨_, h⟩ | ⟨_, _, h⟩ | ⟨_, _, _, h⟩ | ⟨_, _, _, _, h⟩ | ⟨_, _, _, _, _, _, h⟩ | ⟨_, hdet, hfrags, hfinal, hslot, h⟩ :=
    execChkPushK_cases now f s
  · exact ⟨_, _, _, .nothing, h⟩
  · exact ⟨_, _, _, .nothing, h⟩
  · exact ⟨_, _, _, .nothing, h⟩
  · exact ⟨_, _, _, .kpendRemove _, h⟩
  · exact ⟨_, _, _, .nothing, h⟩
  · exact ⟨_, _, _, .kpendStore now f hdet hfinal hfrags hslot, h⟩

/-- Every operation makes one of the updates, or none, and ends in a response (R26, R225). -/
theorem exec_updates (i : Instr) (s : State) : UpdatesAndResponds s (exec i s) := by
  by_cases hpure : pureOperation i = true
  · exact (responds_of_pureOperation hpure s).updates
  · cases i with
    | chkPush2 now f => exact execChkPush2_updates now f s
    | chkEvict2 => exact ⟨_, _, _, .fixClear, rfl⟩
    | chkPushK now f => exact execChkPushK_updates now f s
    | chkEvictK key => exact ⟨_, _, _, .kpendRemove key, rfl⟩
    | chkSetTmo v => exact ⟨_, _, _, .timeout v, rfl⟩
    | chkReset => exact ⟨_, _, _, .clearBoth, rfl⟩
    | chkPeek => exact ⟨_, _, _, .nothing, rfl⟩
    | _ => exact absurd rfl hpure

/-! ### Steps -/

/-- A request that decodes is executed, whatever its operands are. -/
theorem step_of_decode_ok {s : State} {q : Request} {rest : List HostAction} {i : Instr}
    (hhost : s.host = .issue q :: rest) (hdec : decode q = .ok i) : step s = exec i (s.setHost rest) := by
  simp only [step, State.nextAction_cons hhost, hdec]

theorem step_of_host_nil {s : State} (hhost : s.host = []) : step s = .next s := by
  simp only [step, State.nextAction_nil hhost]

/-- A step with an action to take is a reset, or an update of the state whose list is the rest and a response. -/
theorem step_of_host_cons {s : State} {a : HostAction} {rest : List HostAction} (hhost : s.host = a :: rest) :
    step s = .next (s.setHost rest).hardReset ∨ UpdatesAndResponds (s.setHost rest) (step s) := by
  have hrest {b : HostAction} {rest' : List HostAction} (h : s.host = b :: rest') : rest' = rest := by
    rw [hhost] at h
    exact (List.cons.inj h).2.symm
  obtain ⟨hnil, _⟩ | ⟨_, h, hstep⟩ | ⟨_, _, i, h, _, hstep⟩ | ⟨_, _, _, h, _, hstep⟩ := step_cases s
  · rw [hhost] at hnil
    cases hnil
  · exact .inl (hrest h ▸ hstep)
  · rw [hstep, hrest h]
    exact .inr (exec_updates i _)
  · rw [hstep, hrest h]
    exact .inr ⟨_, .errBadOp, emptyOut, .nothing, rfl⟩

/-- Settles O6. -/
theorem stepRunsTheDecodedRequest : Obligations.StepRunsTheDecodedRequest := by
  intro s q rest i hhost hdec _
  exact step_of_decode_ok hhost hdec

/-- Settles O7: neither a reset nor any update writes the configuration or the host's list. -/
theorem eachStepTakesOneHostAction : Obligations.EachStepTakesOneHostAction := by
  refine ⟨fun s hhost => step_of_host_nil hhost, fun s a rest hhost => ?_⟩
  obtain hstep | ⟨u, st, o, hu, hstep⟩ := step_of_host_cons hhost
  · exact ⟨_, hstep, rfl, rfl⟩
  · exact ⟨_, hstep, hu.host_eq, hu.cfg_eq⟩

/-! ### The invariant in parts: one rule for each component -/

/-- R23: the width of TIMEOUT_MS. -/
def TimeoutInv (c : Config) (timeout : Option Nat) : Prop := ∀ t, timeout = some t → t < 2 ^ c.tsW

/-- R30 (i), R24: what FIX holds. -/
def FixInv (c : Config) (fix : Option FixBuffer) : Prop :=
  ∀ held, fix = some held → held.data.length = chunkSize ∧ held.ts < 2 ^ c.tsW

/-- R30 (ii), (iii): a fragment that may be stored under the key `q`. -/
structure StoredFragment (c : Config) (q : Byte) (f : Bytes) : Prop where
  detected : kdet c f = true
  key : fragQid c f = q
  not_final : fragType c f ≠ finalMark

/-- R30, R25: what one entry of KPEND holds under the key `q`. -/
structure EntryInv (c : Config) (q : Byte) (e : PendingEntry) : Prop where
  width : e.ts < 2 ^ c.tsW
  nonempty : e.frags ≠ []
  stored : ∀ f ∈ e.frags, StoredFragment c q f
  limit : fits c.kfrags e.frags.length

/-- R30, R25: what KPEND holds. -/
structure KpendInv (c : Config) (m : PendingMap) : Prop where
  canonical : kpendWf m
  entry : ∀ p ∈ m, EntryInv c p.1 p.2
  slots : fits c.kslots m.length

/-- R198: a detected fragment has its header. -/
theorem khdrLen_le_of_kdet {c : Config} {f : Bytes} (h : kdet c f = true) : c.khdrLen ≤ f.length := by
  simp only [kdet, fragLongEnough, Bool.and_eq_true, decide_eq_true_eq] at h
  exact h.1.1

/-- The invariant, component by component. -/
theorem State.inv_iff {s : State} :
    s.Inv ↔ s.cfg.wf = true ∧ TimeoutInv s.cfg s.timeoutMs ∧ FixInv s.cfg s.fix ∧ KpendInv s.cfg s.kpend ∧
      ∃ st : Status, s.status = st.code := by
  constructor
  · intro h
    have hentry (p : Byte × PendingEntry) (hp : p ∈ s.kpend) : EntryInv s.cfg p.1 p.2 :=
      { width := h.entry_width p hp
        nonempty := h.entry_nonempty p hp
        stored := fun f hf => ⟨(h.entry_detected p hp f hf).1, h.entry_key p hp f hf, h.entry_not_final p hp f hf⟩
        limit := h.frags p hp }
    exact ⟨h.cfg_wf, h.timeout_width, fun held hh => ⟨h.fix_length held hh, h.fix_width held hh⟩,
      ⟨h.kpend_wf, hentry, h.slots⟩, h.status_code⟩
  · rintro ⟨hcfg, htimeout, hfix, hkpend, hstatus⟩
    exact
      { cfg_wf := hcfg
        timeout_width := htimeout
        fix_length := fun held hh => (hfix held hh).1
        fix_width := fun held hh => (hfix held hh).2
        kpend_wf := hkpend.canonical
        entry_width := fun p hp => (hkpend.entry p hp).width
        entry_nonempty := fun p hp => (hkpend.entry p hp).nonempty
        entry_detected := fun p hp f hf =>
          have hdet := ((hkpend.entry p hp).stored f hf).detected
          ⟨hdet, khdrLen_le_of_kdet hdet⟩
        entry_key := fun p hp f hf => ((hkpend.entry p hp).stored f hf).key
        entry_not_final := fun p hp f hf => ((hkpend.entry p hp).stored f hf).not_final
        slots := hkpend.slots
        frags := fun p hp => (hkpend.entry p hp).limit
        status_code := hstatus }

theorem State.Inv.kpendInv {s : State} (h : s.Inv) : KpendInv s.cfg s.kpend := by
  obtain ⟨_, _, _, hkpend, _⟩ := State.inv_iff.1 h
  exact hkpend

theorem State.Inv.setHost {s : State} (h : s.Inv) (l : List HostAction) : (s.setHost l).Inv := by
  obtain ⟨hcfg, htimeout, hfix, hkpend, hstatus⟩ := State.inv_iff.1 h
  exact State.inv_iff.2 ⟨hcfg, htimeout, hfix, hkpend, hstatus⟩

theorem State.Inv.respond {s : State} (h : s.Inv) (st : Status) (o : Out) : (s.respond st o).Inv := by
  obtain ⟨hcfg, htimeout, hfix, hkpend, _⟩ := State.inv_iff.1 h
  exact State.inv_iff.2 ⟨hcfg, htimeout, hfix, hkpend, st, rfl⟩

theorem State.Inv.setTimeout {s : State} (h : s.Inv) {t : Option Nat} (ht : TimeoutInv s.cfg t) :
    (s.setTimeout t).Inv := by
  obtain ⟨hcfg, _, hfix, hkpend, hstatus⟩ := State.inv_iff.1 h
  exact State.inv_iff.2 ⟨hcfg, ht, hfix, hkpend, hstatus⟩

theorem State.Inv.setFix {s : State} (h : s.Inv) {b : Option FixBuffer} (hb : FixInv s.cfg b) : (s.setFix b).Inv := by
  obtain ⟨hcfg, htimeout, _, hkpend, hstatus⟩ := State.inv_iff.1 h
  exact State.inv_iff.2 ⟨hcfg, htimeout, hb, hkpend, hstatus⟩

theorem State.Inv.setKpend {s : State} (h : s.Inv) {m : PendingMap} (hm : KpendInv s.cfg m) : (s.setKpend m).Inv := by
  obtain ⟨hcfg, htimeout, hfix, _, hstatus⟩ := State.inv_iff.1 h
  exact State.inv_iff.2 ⟨hcfg, htimeout, hfix, hm, hstatus⟩

/-! ### The components after a write -/

theorem timeoutInv_timeOperand (c : Config) (v : Nat) : TimeoutInv c (some (timeOperand c v)) := by
  rintro t ⟨⟩
  exact timeOperand_lt c v

theorem timeoutInv_timeoutReset {c : Config} (h : c.wf = true) : TimeoutInv c c.timeoutReset := by
  intro t ht
  simp only [Config.wf, ht, Bool.and_eq_true, decide_eq_true_eq] at h
  exact h.2

theorem fixInv_none (c : Config) : FixInv c none := by
  rintro held ⟨⟩

theorem fixInv_store {c : Config} {f : Bytes} (hlen : f.length = chunkSize) (now : Nat) :
    FixInv c (some { data := f, ts := timeOperand c now }) := by
  rintro held ⟨⟩
  exact ⟨hlen, timeOperand_lt c now⟩

/-- A detected fragment that is not final may be stored under its own key, alone or after those already there. -/
theorem EntryInv.appendFragment {c : Config} {f : Bytes} {old : Option PendingEntry} {now : Nat}
    (hold : ∀ e, old = some e → EntryInv c (fragQid c f) e) (hnow : now < 2 ^ c.tsW) (hdet : kdet c f = true)
    (hfinal : fragType c f ≠ finalMark) (hfrags : fits c.kfrags (appendFragment old now f).frags.length) :
    EntryInv c (fragQid c f) (appendFragment old now f) := by
  have hf : StoredFragment c (fragQid c f) f := ⟨hdet, rfl, hfinal⟩
  cases old with
  | none =>
    exact
      { width := hnow
        nonempty := List.cons_ne_nil f []
        stored := fun g hg => List.mem_singleton.1 hg ▸ hf
        limit := hfrags }
  | some e =>
    have he := hold e rfl
    have hstored (g : Bytes) (hg : g ∈ e.frags ++ [f]) : StoredFragment c (fragQid c f) g := by
      rcases List.mem_append.1 hg with hg | hg
      · exact he.stored g hg
      · exact List.mem_singleton.1 hg ▸ hf
    exact
      { width := he.width
        nonempty := List.append_ne_nil_of_left_ne_nil he.nonempty [f]
        stored := hstored
        limit := hfrags }

theorem kpendInv_nil (c : Config) : KpendInv c [] where
  canonical := List.Pairwise.nil
  entry := fun _ hp => absurd hp List.not_mem_nil
  slots := fun _ _ => Nat.zero_le _

theorem KpendInv.remove {c : Config} {m : PendingMap} (h : KpendInv c m) (q : Byte) : KpendInv c (kpendRemove m q) where
  canonical := kpendWf_remove h.canonical q
  entry := fun p hp => h.entry p (mem_kpendRemove.1 hp).1
  slots := fits_mono (kpendRemove_length_le m q) h.slots

/-- R199: with a slot left, or the key already pending, a write stays within KSLOTS. -/
theorem KpendInv.insert_slots {c : Config} {m : PendingMap} (h : KpendInv c m) {q : Byte} (e : PendingEntry)
    (hslot : ¬ (kpendFind m q = none ∧ atCap c.kslots m.length = true)) :
    fits c.kslots (kpendInsert m q e).length := by
  cases hfind : kpendFind m q with
  | none =>
    intro n hn
    have hroom : ¬ n ≤ m.length := fun hle => hslot ⟨hfind, (atCap_eq_true _ _).2 ⟨n, hn, hle⟩⟩
    rw [kpendInsert_length_of_none hfind]
    omega
  | some old =>
    rw [kpendInsert_length_of_some h.canonical hfind]
    exact h.slots

theorem KpendInv.insert {c : Config} {m : PendingMap} (h : KpendInv c m) {q : Byte} {e : PendingEntry}
    (he : EntryInv c q e) (hslot : ¬ (kpendFind m q = none ∧ atCap c.kslots m.length = true)) :
    KpendInv c (kpendInsert m q e) where
  canonical := kpendWf_insert h.canonical q e
  entry := by
    intro p hp
    rcases mem_kpendInsert hp with rfl | hp
    · exact he
    · exact h.entry p hp
  slots := h.insert_slots e hslot

/-! ### Every step keeps the invariant -/

/-- Every update an operation may make keeps the invariant. -/
theorem Updates.inv {s u : State} (hu : Updates s u) (h : s.Inv) : u.Inv := by
  cases hu with
  | nothing => exact h
  | timeout v => exact h.setTimeout (timeoutInv_timeOperand s.cfg v)
  | fixStore now f hlen => exact h.setFix (fixInv_store hlen now)
  | fixClear => exact h.setFix (fixInv_none s.cfg)
  | kpendStore now f hdet hfinal hfrags hslot =>
    have hold (e : PendingEntry) (he : kpendFind s.kpend (fragQid s.cfg f) = some e) :
        EntryInv s.cfg (fragQid s.cfg f) e := h.kpendInv.entry _ (mem_of_kpendFind he)
    have he := EntryInv.appendFragment hold (timeOperand_lt s.cfg now) hdet hfinal hfrags
    exact h.setKpend (h.kpendInv.insert he hslot)
  | kpendRemove q => exact h.setKpend (h.kpendInv.remove q)
  | clearBoth => exact (h.setFix (fixInv_none s.cfg)).setKpend (kpendInv_nil s.cfg)

/-- R250: a reset establishes the invariant from any state with a legal configuration. -/
theorem State.hardReset_inv {s : State} (h : s.cfg.wf = true) : s.hardReset.Inv :=
  State.inv_iff.2 ⟨h, timeoutInv_timeoutReset h, fixInv_none s.cfg, kpendInv_nil s.cfg, .ok, rfl⟩

/-- Settles O10: an idle step changes nothing, a reset establishes the invariant, and every update keeps it. -/
theorem everyStepKeepsTheInvariant : Obligations.EveryStepKeepsTheInvariant := by
  intro s t h hst
  cases hhost : s.host with
  | nil =>
    cases (step_of_host_nil hhost).symm.trans hst
    exact h
  | cons a rest =>
    have hrest := h.setHost rest
    obtain hstep | ⟨u, st, o, hu, hstep⟩ := step_of_host_cons hhost
    · cases hstep.symm.trans hst
      exact State.hardReset_inv hrest.cfg_wf
    · cases hstep.symm.trans hst
      exact (hu.inv hrest).respond st o

/-! ### The state after reset -/

/-- The machine starts where a reset of the standard configuration leads (R31, R250). -/
theorem State.reset_hardReset : State.reset.hardReset = State.reset := rfl

/-- Settles O8: each field as R31 has it. -/
theorem resetState : Obligations.ResetState := ⟨rfl, rfl, rfl, rfl, rfl, rfl, rfl⟩

/-- Settles O11: the standard configuration is legal, and a reset of it establishes the invariant. -/
theorem resetStateMeetsTheInvariant : Obligations.ResetStateMeetsTheInvariant := by
  have hwf : State.reset.cfg.wf = true := by decide
  have hinv := State.hardReset_inv hwf
  rwa [State.reset_hardReset] at hinv

end Sys2Proof.Machine
end

section
/-!
SUPPORT. What decides an operation's response: the configuration alone for the pure operations (R45), and the capacity
limits (R41, R47); and the settled statements about both.
-/

namespace Sys2Proof.Machine

/-! ### Responses decided by the configuration (R45) -/

/-- The outcomes are the states `s₁` and `s₂` with one and the same response in their latches. -/
def RespondAlike (s₁ s₂ : State) (r₁ r₂ : Host.Outcome State Fault Refusal) : Prop :=
  ∃ st o, r₁ = .next (s₁.respond st o) ∧ r₂ = .next (s₂.respond st o)

theorem respondAlike_ite {s₁ s₂ : State} {p : Prop} [Decidable p] {x₁ x₂ y₁ y₂ : Host.Outcome State Fault Refusal}
    (hx : RespondAlike s₁ s₂ x₁ x₂) (hy : RespondAlike s₁ s₂ y₁ y₂) :
    RespondAlike s₁ s₂ (if p then x₁ else y₁) (if p then x₂ else y₂) := by
  split
  · exact hx
  · exact hy

theorem respondAlike_finish (s₁ s₂ : State) (r : Except Status Bytes) :
    RespondAlike s₁ s₂ (.next (s₁.finish r)) (.next (s₂.finish r)) := by
  cases r with
  | ok b => exact ⟨_, _, rfl, rfl⟩
  | error e => exact ⟨_, _, rfl, rfl⟩

section
variable {s₁ s₂ : State} (hcfg : s₁.cfg = s₂.cfg)
include hcfg

theorem respondAlike_withinInputCap (n : Nat) (st : Status) (o : Out) :
    RespondAlike s₁ s₂ (.next (s₁.withinInputCap n (s₁.respond st o))) (.next (s₂.withinInputCap n (s₂.respond st o))) := by
  unfold State.withinInputCap
  rw [hcfg]
  split
  · exact ⟨_, _, rfl, rfl⟩
  · exact ⟨_, _, rfl, rfl⟩

/-- A test of IN against BUF_CAP has one result in states of one configuration. -/
theorem respondAlike_bufCap (n : Nat) {x₁ x₂ y₁ y₂ : Host.Outcome State Fault Refusal}
    (hx : RespondAlike s₁ s₂ x₁ x₂) (hy : RespondAlike s₁ s₂ y₁ y₂) :
    RespondAlike s₁ s₂ (if overCap s₁.cfg.bufCap n = true then x₁ else y₁)
      (if overCap s₂.cfg.bufCap n = true then x₂ else y₂) := by
  rw [hcfg]
  exact respondAlike_ite hx hy

theorem respondAlike_finish_of_cfg (f : Config → Except Status Bytes) :
    RespondAlike s₁ s₂ (.next (s₁.finish (f s₁.cfg))) (.next (s₂.finish (f s₂.cfg))) := by
  rw [hcfg]
  exact respondAlike_finish s₁ s₂ _

theorem respondAlike_qrdDecode (cs decrypt : Bool) (key : Bytes) (fragments : List Bytes) :
    RespondAlike s₁ s₂ (execQrdDecode cs decrypt key fragments s₁) (execQrdDecode cs decrypt key fragments s₂) := by
  unfold execQrdDecode
  rw [hcfg]
  rcases queryFrame s₂.cfg cs decrypt key fragments with e | _ | ⟨b, rest⟩
  · exact ⟨_, _, rfl, rfl⟩
  · exact ⟨_, _, rfl, rfl⟩
  · exact respondAlike_withinInputCap hcfg ..

end

theorem respondAlike_cmdRgb (cmdId : U16) (tableId deviceId mode r g b autoOff onInt offInt : Byte) (interval : U16)
    (s₁ s₂ : State) :
    RespondAlike s₁ s₂ (execCmdRgb cmdId tableId deviceId mode r g b autoOff onInt offInt interval s₁)
      (execCmdRgb cmdId tableId deviceId mode r g b autoOff onInt offInt interval s₂) := by
  unfold execCmdRgb
  cases rgbPayload mode r g b autoOff onInt offInt interval with
  | some p => exact ⟨_, _, rfl, rfl⟩
  | none => exact ⟨_, _, rfl, rfl⟩

/-- R45: the response of a pure operation is decided by its operands, its IN and the configuration. -/
theorem respondAlike_of_pureOperation {i : Instr} (h : pureOperation i = true) {s₁ s₂ : State}
    (hcfg : s₁.cfg = s₂.cfg) : RespondAlike s₁ s₂ (exec i s₁) (exec i s₂) := by
  cases i with
  | cmdGetDev | cmdGetMeta | cmdMove | cmdGenie | cmdDim | cmdHvac => exact ⟨_, _, rfl, rfl⟩
  | cmdSwitch => exact respondAlike_ite ⟨_, _, rfl, rfl⟩ (respondAlike_withinInputCap hcfg ..)
  | cmdRgb => exact respondAlike_cmdRgb ..
  | csum8 => exact respondAlike_bufCap hcfg _ ⟨_, _, rfl, rfl⟩ ⟨_, _, rfl, by rw [hcfg]⟩
  | stsRelay | stsDim | stsRgb => exact respondAlike_bufCap hcfg _ ⟨_, _, rfl, rfl⟩ ⟨_, _, rfl, rfl⟩
  | cobsEnc pre cs payload => exact respondAlike_finish_of_cfg hcfg fun c => cobsEncode c pre cs payload
  | cobsDec cs stuffed => exact respondAlike_finish_of_cfg hcfg fun c => cobsDecode c cs stuffed
  | teaDecBuf key data => exact respondAlike_finish_of_cfg hcfg fun c => decryptBuffer c key data
  | teaEnc key block => exact ⟨.ok, .u64 (teaEncrypt s₁.cfg key block), rfl, by rw [hcfg]; rfl⟩
  | teaDec key block => exact ⟨.ok, .u64 (teaDecrypt s₁.cfg key block), rfl, by rw [hcfg]; rfl⟩
  | qrdDecode => exact respondAlike_qrdDecode hcfg ..
  | chkPush2 | chkEvict2 | chkPushK | chkEvictK | chkSetTmo | chkReset | chkPeek => cases h

/-- Settles O13: each test and each answer of a pure operation reads the configuration and no other field. -/
theorem pureOperationsDependOnOperandsAlone : Obligations.PureOperationsDependOnOperandsAlone := by
  intro i hpure s₁ s₂ hcfg
  obtain ⟨st, o, h₁, h₂⟩ := respondAlike_of_pureOperation hpure hcfg
  exact ⟨st.code, o, h₁, h₂⟩

/-! ### IN over BUF_CAP (R47) -/

/-- All that CMD.SWITCH can do: its own failure; the capacity test, where it binds (log 16); the command. -/
theorem execCmdSwitch_cases (cmdId : U16) (tableId : Byte) (on : Bool) (ids : Bytes) (s : State) :
    let bound : Prop := capBinds s.cfg = true → fits s.cfg.bufCap ids.length
    ((ids.length = 0 ∨ 255 < ids.length) ∧ execCmdSwitch cmdId tableId on ids s = .next (s.fail .errPrecondition)) ∨
    (¬ bound ∧ execCmdSwitch cmdId tableId on ids s = .next (s.fail .errCapacity)) ∨
    (bound ∧ execCmdSwitch cmdId tableId on ids s =
      .next (s.respond .ok (.bytes (commandBytes cmdId 0x40#8 ([tableId, boolByte on] ++ ids))))) := by
  intro bound
  unfold execCmdSwitch
  by_cases hlen : ids.length = 0 ∨ 255 < ids.length
  · exact .inl ⟨hlen, if_pos hlen⟩
  · rw [if_neg hlen]
    by_cases hb : bound
    · exact .inr (.inr ⟨hb, by rw [State.withinInputCap_of_fits hb]⟩)
    · obtain ⟨hbinds, hover⟩ := Classical.not_imp.1 hb
      exact .inr (.inl ⟨hb, by rw [State.withinInputCap_of_over hbinds hover]⟩)

theorem overCap_of_lt {limit : Option Nat} {cap n : Nat} (hcap : limit = some cap) (hlt : cap < n) :
    overCap limit n = true :=
  (overCap_eq_true _ _).2 ⟨cap, hcap, hlt⟩

theorem not_fits_of_lt {limit : Option Nat} {cap n : Nat} (hcap : limit = some cap) (hlt : cap < n) :
    ¬ fits limit n :=
  fun h => Nat.not_le_of_lt hlt (h cap hcap)

section
variable {c : Config}

theorem cobsEncode_of_over {cs : Bool} {payload : Bytes} (h : overCap c.bufCap (payload.length + cs.toNat) = true)
    (pre : Bool) : cobsEncode c pre cs payload = .error .errCapacity :=
  if_pos h

theorem cobsDecode_of_over {input : Bytes} (h : overCap c.bufCap input.length = true) (cs : Bool) :
    cobsDecode c cs input = .error .errCapacity :=
  if_pos h

theorem decryptBuffer_of_over {data : Bytes} (h : overCap c.bufCap data.length = true) (key : Bytes) :
    decryptBuffer c key data = .error .errCapacity :=
  if_pos h

/-- R204: payloads that are together over BUF_CAP fail in the COBS stage. -/
theorem queryFrame_of_payloads_over {parts : List (Bytes × Bytes)} (hparts : ∀ p ∈ parts, p.1.length = c.khdrLen)
    (h : overCap c.bufCap (parts.flatMap Prod.snd).length = true) (cs decrypt : Bool) (key : Bytes) :
    queryFrame c cs decrypt key (parts.map fun p => p.1 ++ p.2) = .error .errCapacity := by
  simp only [queryFrame, joinPayloads_parts c parts hparts, cobsDecode_of_over h cs]

end

theorem execQrdDecode_of_error {s : State} {cs decrypt : Bool} {key : Bytes} {fragments : List Bytes} {cause : Status}
    (h : queryFrame s.cfg cs decrypt key fragments = .error cause) :
    execQrdDecode cs decrypt key fragments s = .next (s.failWithCause .errNoReading cause) := by
  simp only [execQrdDecode, h]

theorem execCobsEnc_of_over {s : State} {cs : Bool} {payload : Bytes}
    (h : overCap s.cfg.bufCap (payload.length + cs.toNat) = true) (pre : Bool) :
    execCobsEnc pre cs payload s = .next (s.fail .errCapacity) := by
  rw [execCobsEnc, cobsEncode_of_over h, State.finish_error]

section
variable {s : State} {input : Bytes} (h : overCap s.cfg.bufCap input.length = true)
include h

theorem execCobsDec_of_over (cs : Bool) : execCobsDec cs input s = .next (s.fail .errCapacity) := by
  rw [execCobsDec, cobsDecode_of_over h, State.finish_error]

theorem execTeaDecBuf_of_over (key : Bytes) : execTeaDecBuf key input s = .next (s.fail .errCapacity) := by
  rw [execTeaDecBuf, decryptBuffer_of_over h, State.finish_error]

/-- R47: the operations whose first test is that of IN against BUF_CAP. -/
theorem exec_of_over (key : Bytes) (cs : Bool) (now : Nat) :
    ∀ i ∈ [Instr.csum8 input, .cobsDec cs input, .teaDecBuf key input, .stsRelay input, .stsDim input, .stsRgb input,
      .chkPushK now input], exec i s = .next (s.fail .errCapacity) := by
  simp only [List.forall_mem_cons]
  exact ⟨if_pos h, execCobsDec_of_over h cs, execTeaDecBuf_of_over h key, if_pos h, if_pos h, if_pos h, if_pos h,
    List.forall_mem_nil _⟩

end

section
variable {s : State} (hbinds : capBinds s.cfg = true)
include hbinds

/-- R47, where BUF_CAP binds CMD.SWITCH (log 16): a number of ids that R143 allows, over BUF_CAP. -/
theorem execCmdSwitch_of_over {ids : Bytes} (hover : ¬ fits s.cfg.bufCap ids.length) (hids : ids.length ≤ 255)
    (cmdId : U16) (tableId : Byte) (on : Bool) :
    execCmdSwitch cmdId tableId on ids s = .next (s.fail .errCapacity) := by
  obtain ⟨hlen | hlen, _⟩ | ⟨_, h⟩ | ⟨hbound, _⟩ := execCmdSwitch_cases cmdId tableId on ids s
  · exact absurd (fun _ _ => hlen ▸ Nat.zero_le _) hover
  · omega
  · exact h
  · exact absurd (hbound hbinds) hover

/-- R47, where BUF_CAP binds CHK.PUSH2 (log 16): a fragment of the right length, over BUF_CAP, and not
ERR_UNCONFIGURED. -/
theorem execChkPush2_of_over {f : Bytes} (hover : ¬ fits s.cfg.bufCap f.length) (hlen : f.length = chunkSize)
    (hconf : s.fix = none ∨ s.timeoutMs ≠ none) (now : Nat) :
    execChkPush2 now f s = .next (s.fail .errCapacity) := by
  obtain ⟨hne, _⟩ | ⟨_, hfix, htmo, _⟩ | ⟨_, _, _, h⟩ | ⟨_, _, hbound, _⟩ | ⟨_, hbound, _⟩ | ⟨_, hbound, _⟩ :=
    execChkPush2_cases now f s
  · exact absurd hlen hne
  · exact absurd hconf (not_or.2 ⟨hfix, not_not.2 htmo⟩)
  · exact h
  all_goals exact absurd (hbound hbinds) hover

/-- R47, where BUF_CAP binds QRD.DECODE (log 16): a list over BUF_CAP gives no level. -/
theorem execQrdDecode_of_over {fragments : List Bytes} (hover : ¬ fits s.cfg.bufCap fragments.flatten.length)
    (cs decrypt : Bool) (key : Bytes) :
    execQrdDecode cs decrypt key fragments s = .next (s.fail .errCapacity) ∨
    ∃ cause, execQrdDecode cs decrypt key fragments s = .next (s.failWithCause .errNoReading cause) := by
  obtain ⟨cause, _, h⟩ | ⟨_, h⟩ | ⟨_, _, _, _, h⟩ | ⟨_, _, _, hbound, _⟩ :=
    execQrdDecode_cases cs decrypt key fragments s
  · exact .inr ⟨cause, h⟩
  · exact .inr ⟨_, h⟩
  · exact .inl h
  · exact absurd (hbound hbinds) hover

end

/-- Settles O16: the test comes first, or after the operation's own tests, or in the COBS stage. -/
theorem inputOverBufCapIsRefused : Obligations.InputOverBufCapIsRefused := by
  intro s cap input key pre cs now hcap
  refine ⟨fun hlt => exec_of_over (overCap_of_lt hcap hlt) key cs now,
    fun hlt => execCobsEnc_of_over (overCap_of_lt hcap hlt) pre, fun hbinds hlt => ?ownTests,
    fun hbinds decrypt fragments hlt => ?list, fun decrypt parts hparts hlt => ?payloads⟩
  case ownTests =>
    have hover := not_fits_of_lt hcap hlt
    exact ⟨fun hids => execCmdSwitch_of_over hbinds hover hids,
      fun hlen hconf => execChkPush2_of_over hbinds hover hlen hconf now⟩
  case list =>
    obtain h | ⟨cause, h⟩ := execQrdDecode_of_over hbinds (not_fits_of_lt hcap hlt) cs decrypt key
    · exact .inl h
    · exact .inr ⟨cause.code, h⟩
  case payloads =>
    exact execQrdDecode_of_error (queryFrame_of_payloads_over hparts (overCap_of_lt hcap hlt) cs decrypt key)

/-! ### The two readings of BUF_CAP (log 16) -/

/-- How an operation without a test of BUF_CAP in its own pseudocode ends on an IN of `n` bytes (log 16): in a failure of
its own; in ERR_CAPACITY, where BUF_CAP binds it and IN is over it; or otherwise in another response. -/
inductive EndsUnderCap (s : State) (n : Nat) : Host.Outcome State Fault Refusal → Prop where
  | ownFailure (st : Status) (o : Out) (hfail : isFailure st.code = true) (hst : st ≠ .errCapacity) :
      EndsUnderCap s n (.next (s.respond st o))
  | refused (hover : ¬ (capBinds s.cfg = true → fits s.cfg.bufCap n)) :
      EndsUnderCap s n (.next (s.fail .errCapacity))
  | answer (u : State) (st : Status) (o : Out) (hbound : capBinds s.cfg = true → fits s.cfg.bufCap n)
      (hst : st ≠ .errCapacity) : EndsUnderCap s n (.next (u.respond st o))

theorem execCmdSwitch_endsUnderCap (cmdId : U16) (tableId : Byte) (on : Bool) (ids : Bytes) (s : State) :
    EndsUnderCap s ids.length (execCmdSwitch cmdId tableId on ids s) := by
  obtain ⟨_, h⟩ | ⟨hover, h⟩ | ⟨hbound, h⟩ := execCmdSwitch_cases cmdId tableId on ids s
  · exact h ▸ .ownFailure _ _ rfl (by decide)
  · exact h ▸ .refused hover
  · exact h ▸ .answer _ _ _ hbound (by decide)

theorem execChkPush2_endsUnderCap (now : Nat) (f : Bytes) (s : State) :
    EndsUnderCap s f.length (execChkPush2 now f s) := by
  obtain ⟨_, h⟩ | ⟨_, _, _, h⟩ | ⟨_, _, hover, h⟩ | ⟨_, _, hbound, h⟩ | ⟨_, hbound, _, _, _, _, _, h⟩ |
    ⟨_, hbound, _, _, _, _, _, h⟩ := execChkPush2_cases now f s
  · exact h ▸ .ownFailure _ _ rfl (by decide)
  · exact h ▸ .ownFailure _ _ rfl (by decide)
  · exact h ▸ .refused hover
  all_goals exact h ▸ .answer _ _ _ hbound (by decide)

theorem execQrdDecode_endsUnderCap (cs decrypt : Bool) (key : Bytes) (fragments : List Bytes) (s : State) :
    EndsUnderCap s fragments.flatten.length (execQrdDecode cs decrypt key fragments s) := by
  obtain ⟨_, _, h⟩ | ⟨_, h⟩ | ⟨_, _, _, hover, h⟩ | ⟨_, _, _, hbound, h⟩ :=
    execQrdDecode_cases cs decrypt key fragments s
  · exact h ▸ .ownFailure _ _ rfl (by decide)
  · exact h ▸ .ownFailure _ _ rfl (by decide)
  · exact h ▸ .refused hover
  · exact h ▸ .answer _ _ _ hbound (by decide)

theorem Status.code_ne_capacity {st : Status} (h : st ≠ .errCapacity) : st.code ≠ 0x87#8 :=
  fun hc => h (Status.code_injective st .errCapacity hc)

/-- R225, R228: where BUF_CAP does not bind the operation it never answers ERR_CAPACITY. -/
theorem EndsUnderCap.status_ne_capacity {s t : State} {n : Nat} (h : EndsUnderCap s n (.next t))
    (hbinds : capBinds s.cfg = false) : t.status ≠ 0x87#8 := by
  cases h with
  | ownFailure _ _ _ hst => exact Status.code_ne_capacity hst
  | refused hover =>
    rw [hbinds] at hover
    exact absurd (fun h => nomatch h) hover
  | answer _ _ _ _ hst => exact Status.code_ne_capacity hst

/-- R41, R47: where BUF_CAP binds the operation an IN over it gives a failure. -/
theorem EndsUnderCap.isFailure_status {s t : State} {n : Nat} (h : EndsUnderCap s n (.next t))
    (hbinds : capBinds s.cfg = true) (hover : ¬ fits s.cfg.bufCap n) : isFailure t.status = true := by
  cases h with
  | ownFailure _ _ hfail _ => exact hfail
  | refused =>
    rw [State.fail_status]
    decide
  | answer _ _ _ hbound _ => exact absurd (hbound hbinds) hover

/-- Settles O57: each of the three ends in a way that only `capBinds` decides, and either reading fixes it. -/
theorem bothReadingsOfBufCap : Obligations.BothReadingsOfBufCap := by
  intro s t i input hi hexec
  have hends : EndsUnderCap s input.length (exec i s) := by
    obtain ⟨cmdId, tableId, on, rfl⟩ | ⟨now, rfl⟩ | ⟨cs, decrypt, key, fragments, rfl, rfl⟩ := hi
    · exact execCmdSwitch_endsUnderCap cmdId tableId on input s
    · exact execChkPush2_endsUnderCap now input s
    · exact execQrdDecode_endsUnderCap cs decrypt key fragments s
  rw [hexec] at hends
  exact ⟨fun hscope => hends.status_ne_capacity (capBinds_listedOperations hscope),
    fun hscope => hends.isFailure_status (capBinds_everyOperation hscope)⟩

/-! ### No limit is set (R47) -/

/-- The outcome is a response that does not report ERR_CAPACITY, as its STATUS or as the cause of ERR_NO_READING. -/
def AvoidsCapacity (r : Host.Outcome State Fault Refusal) : Prop :=
  ∃ u st o, r = .next (State.respond u st o) ∧ st ≠ .errCapacity ∧ (st = .errNoReading → o ≠ .bytes [0x87#8])

theorem avoidsCapacity_respond (u : State) {st : Status} (hst : st ≠ .errCapacity ∧ st ≠ .errNoReading) (o : Out) :
    AvoidsCapacity (.next (u.respond st o)) :=
  ⟨u, st, o, rfl, hst.1, fun h => absurd h hst.2⟩

theorem avoidsCapacity_failWithCause (u : State) {cause : Status} (h : cause ≠ .errCapacity) :
    AvoidsCapacity (.next (u.failWithCause .errNoReading cause)) := by
  refine ⟨u, .errNoReading, .bytes [cause.code], rfl, by decide, fun _ hout => ?_⟩
  simp only [Out.bytes.injEq, List.cons.injEq, and_true] at hout
  exact Status.code_ne_capacity h hout

theorem avoidsCapacity_finish (u : State) {r : Except Status Bytes}
    (h : ∀ e, r = .error e → e ≠ .errCapacity ∧ e ≠ .errNoReading) : AvoidsCapacity (.next (u.finish r)) := by
  cases r with
  | ok b => exact avoidsCapacity_respond u (by decide) _
  | error e => exact avoidsCapacity_respond u (h e rfl) _

section
variable {s : State} (hbuf : s.cfg.bufCap = none)
include hbuf

theorem fits_of_bufCap_none (n : Nat) : fits s.cfg.bufCap n := hbuf ▸ fits_none n

theorem avoidsCapacity_bufCap (n : Nat) {x y : Host.Outcome State Fault Refusal} (hy : AvoidsCapacity y) :
    AvoidsCapacity (if overCap s.cfg.bufCap n = true then x else y) := by
  rw [(overCap_eq_false _ _).2 (fits_of_bufCap_none hbuf n), if_neg Bool.false_ne_true]
  exact hy

theorem avoidsCapacity_cmdSwitch (cmdId : U16) (tableId : Byte) (on : Bool) (ids : Bytes) :
    AvoidsCapacity (execCmdSwitch cmdId tableId on ids s) := by
  obtain ⟨_, h⟩ | ⟨hover, _⟩ | ⟨_, h⟩ := execCmdSwitch_cases cmdId tableId on ids s
  · exact h ▸ avoidsCapacity_respond s (by decide) _
  · exact absurd (fun _ => fits_of_bufCap_none hbuf _) hover
  · exact h ▸ avoidsCapacity_respond s (by decide) _

theorem avoidsCapacity_cobsEnc (pre cs : Bool) (payload : Bytes) : AvoidsCapacity (execCobsEnc pre cs payload s) :=
  avoidsCapacity_finish s fun _ he => absurd hbuf (cobsEncode_error he).2

theorem avoidsCapacity_cobsDec (cs : Bool) (stuffed : Bytes) : AvoidsCapacity (execCobsDec cs stuffed s) := by
  refine avoidsCapacity_finish s fun e he => ?_
  obtain rfl | rfl | ⟨_, hset⟩ | ⟨_, rfl | rfl⟩ := cobsDecode_error he
  · decide
  · decide
  · exact absurd hbuf hset
  · decide
  · decide

theorem avoidsCapacity_teaDecBuf (key data : Bytes) : AvoidsCapacity (execTeaDecBuf key data s) := by
  refine avoidsCapacity_finish s fun e he => ?_
  obtain rfl | ⟨_, hset⟩ := decryptBuffer_error he
  · decide
  · exact absurd hbuf hset

theorem avoidsCapacity_chkPush2 (now : Nat) (f : Bytes) : AvoidsCapacity (execChkPush2 now f s) := by
  obtain ⟨_, h⟩ | ⟨_, _, _, h⟩ | ⟨_, _, hover, _⟩ | ⟨_, _, _, h⟩ | ⟨_, _, _, _, _, _, _, h⟩ | ⟨_, _, _, _, _, _, _, h⟩ :=
    execChkPush2_cases now f s
  · exact h ▸ avoidsCapacity_respond s (by decide) _
  · exact h ▸ avoidsCapacity_respond s (by decide) _
  · exact absurd (fun _ => fits_of_bufCap_none hbuf _) hover
  all_goals exact h ▸ avoidsCapacity_respond _ (by decide) _

theorem avoidsCapacity_chkPushK (hslots : s.cfg.kslots = none) (hfrags : s.cfg.kfrags = none) (now : Nat) (f : Bytes) :
    AvoidsCapacity (execChkPushK now f s) := by
  obtain ⟨hover, _⟩ | ⟨_, _, h⟩ | ⟨_, _, hover, _⟩ | ⟨_, _, _, _, h⟩ | ⟨_, _, _, _, _, hfull, _⟩ | ⟨_, _, _, _, _, h⟩ :=
    execChkPushK_cases now f s
  · exact absurd (fits_of_bufCap_none hbuf _) hover
  · exact h ▸ avoidsCapacity_respond s (by decide) _
  · exact absurd (hfrags ▸ fits_none _) hover
  · exact h ▸ avoidsCapacity_respond _ (by decide) _
  · rw [hslots] at hfull
    cases hfull
  · exact h ▸ avoidsCapacity_respond _ (by decide) _

theorem avoidsCapacity_qrdDecode (cs decrypt : Bool) (key : Bytes) (fragments : List Bytes) :
    AvoidsCapacity (execQrdDecode cs decrypt key fragments s) := by
  obtain ⟨cause, herr, h⟩ | ⟨_, h⟩ | ⟨_, _, _, hover, _⟩ | ⟨_, _, _, _, h⟩ :=
    execQrdDecode_cases cs decrypt key fragments s
  · obtain ⟨_, hset⟩ := queryFrame_error herr
    exact h ▸ avoidsCapacity_failWithCause s fun hcause => hset hcause hbuf
  · exact h ▸ avoidsCapacity_failWithCause s (by decide)
  · exact absurd (fun _ => fits_of_bufCap_none hbuf _) hover
  · exact h ▸ avoidsCapacity_respond s (by decide) _

/-- R47: with no limit set no operation reports ERR_CAPACITY. -/
theorem exec_avoidsCapacity (hslots : s.cfg.kslots = none) (hfrags : s.cfg.kfrags = none) (i : Instr) :
    AvoidsCapacity (exec i s) := by
  cases i with
  | cmdGetDev | cmdGetMeta | cmdMove | cmdGenie | cmdDim | cmdHvac | teaEnc | teaDec | chkEvict2 | chkEvictK
  | chkSetTmo | chkReset | chkPeek => exact avoidsCapacity_respond _ (by decide) _
  | cmdRgb =>
    simp only [exec, execCmdRgb]
    split
    · exact avoidsCapacity_respond s (by decide) _
    · exact avoidsCapacity_respond s (by decide) _
  | csum8 | stsRelay | stsDim | stsRgb =>
    exact avoidsCapacity_bufCap hbuf _ (avoidsCapacity_respond s (by decide) _)
  | cmdSwitch => exact avoidsCapacity_cmdSwitch hbuf ..
  | cobsEnc => exact avoidsCapacity_cobsEnc hbuf ..
  | cobsDec => exact avoidsCapacity_cobsDec hbuf ..
  | teaDecBuf => exact avoidsCapacity_teaDecBuf hbuf ..
  | chkPush2 => exact avoidsCapacity_chkPush2 hbuf ..
  | chkPushK => exact avoidsCapacity_chkPushK hbuf hslots hfrags ..
  | qrdDecode => exact avoidsCapacity_qrdDecode hbuf ..

end

/-- Settles O15: without a limit every case that answers ERR_CAPACITY contradicts its own test. -/
theorem noCapacityErrorWithoutLimits : Obligations.NoCapacityErrorWithoutLimits := by
  intro i s t hbuf hslots hfrags hexec
  obtain ⟨u, st, o, hresp, hst, hcause⟩ := exec_avoidsCapacity hbuf hslots hfrags i
  cases hresp.symm.trans hexec
  exact ⟨Status.code_ne_capacity hst, fun hcode => hcause (Status.code_injective st .errNoReading hcode)⟩

end Sys2Proof.Machine
end

section
/-!
SUPPORT. What the decoder and the encoder do with a request as a whole: every selector, the optional fields, the clamped
fields; and the settled statements about them.
-/

namespace Sys2Proof.Machine

/-! ### Decode after encode (R60, R62) -/

open Sys2Proof.Laws in
/-- Settles O2: one law of Laws/PerInstr.lean for each row of R62. -/
theorem decodeOfEncodeIsIdentity : Obligations.DecodeOfEncodeIsIdentity := by
  intro i
  cases i with
  | cmdGetDev => exact DecodeEncode.cmdGetDev ..
  | cmdGetMeta => exact DecodeEncode.cmdGetMeta ..
  | cmdSwitch => exact DecodeEncode.cmdSwitch ..
  | cmdMove => exact DecodeEncode.cmdMove ..
  | cmdGenie => exact DecodeEncode.cmdGenie ..
  | cmdDim => exact DecodeEncode.cmdDim ..
  | cmdRgb => exact DecodeEncode.cmdRgb ..
  | cmdHvac => exact DecodeEncode.cmdHvac ..
  | csum8 => exact DecodeEncode.csum8 ..
  | cobsEnc => exact DecodeEncode.cobsEnc ..
  | cobsDec => exact DecodeEncode.cobsDec ..
  | teaEnc => exact DecodeEncode.teaEnc ..
  | teaDec => exact DecodeEncode.teaDec ..
  | teaDecBuf => exact DecodeEncode.teaDecBuf ..
  | stsRelay => exact DecodeEncode.stsRelay ..
  | stsDim => exact DecodeEncode.stsDim ..
  | stsRgb => exact DecodeEncode.stsRgb ..
  | chkPush2 => exact DecodeEncode.chkPush2 ..
  | chkEvict2 => exact DecodeEncode.chkEvict2
  | chkPushK => exact DecodeEncode.chkPushK ..
  | chkEvictK => exact DecodeEncode.chkEvictK ..
  | chkSetTmo => exact DecodeEncode.chkSetTmo ..
  | qrdDecode => exact DecodeEncode.qrdDecode ..
  | chkReset => exact DecodeEncode.chkReset
  | chkPeek => exact DecodeEncode.chkPeek ..

/-! ### Selectors (R62, R63) -/

/-- The 25 selectors of R62. -/
def assignedSelectors : List Byte :=
  [0x01, 0x02, 0x40, 0x41, 0x42, 0x43, 0x44, 0x45, 0x80, 0x81, 0x82, 0x90, 0x91, 0x92, 0xA0,
    0xA1, 0xA2, 0xB0, 0xB1, 0xB2, 0xB3, 0xB4, 0xB5, 0xB6, 0xB7]

theorem encode_opsel_mem (i : Instr) : (encode i).opsel ∈ assignedSelectors := by
  cases i <;> simp [encode, assignedSelectors]

/-- The decoder on every request: an operation that bears the request's selector, or the rejection of a selector that
is in no row. -/
theorem decode_cases (q : Request) :
    (∃ i, decode q = .ok i ∧ (encode i).opsel = q.opsel) ∨
    (q.opsel ∉ assignedSelectors ∧ decode q = .error (.badOp q.opsel)) := by
  unfold decode
  dsimp only
  split
  case h_26 => -- no row's number matched, so the selector is none of the 25
    refine .inr ⟨fun hmem => ?_, rfl⟩
    have hnat := List.mem_map_of_mem (f := BitVec.toNat) hmem
    simp_all [assignedSelectors]
  all_goals -- a row: the number matched is the selector `encode` gives the row's operation
    next hsel => exact .inl ⟨_, rfl, BitVec.eq_of_toNat_eq hsel.symm⟩

theorem decode_ok_of_assigned {q : Request} (h : q.opsel ∈ assignedSelectors) :
    ∃ i, decode q = .ok i ∧ (encode i).opsel = q.opsel := by
  obtain hok | ⟨hnot, _⟩ := decode_cases q
  · exact hok
  · exact absurd h hnot

theorem decode_error_of_unassigned {q : Request} (h : q.opsel ∉ assignedSelectors) :
    decode q = .error (.badOp q.opsel) := by
  obtain ⟨i, _, hsel⟩ | ⟨_, herr⟩ := decode_cases q
  · exact absurd (hsel ▸ encode_opsel_mem i) h
  · exact herr

/-- A request that selects no operation is rejected, and with it taken from the host's list the latches alone are
written. -/
theorem step_of_decode_error {s : State} {q : Request} {rest : List HostAction} {e : DecodeError}
    (hhost : s.host = .issue q :: rest) (hdec : decode q = .error e) :
    step s = .next (s.setHost rest).rejectSelector := by
  simp only [step, State.nextAction_cons hhost, hdec]

/-- Settles O3: the two cases of the decoder exclude each other, since every operation's own selector is assigned. -/
theorem unassignedSelectorIsBadOp : Obligations.UnassignedSelectorIsBadOp := by
  refine ⟨fun q h => decode_ok_of_assigned h, fun s q rest hhost h => ?_⟩
  have hdec := decode_error_of_unassigned h
  exact ⟨hdec, step_of_decode_error hhost hdec⟩

/-- Settles O1: each word is evaluated. -/
theorem selectorWordsDecode : Obligations.SelectorWordsDecode := by
  unfold Obligations.SelectorWordsDecode
  decide

/-! ### Optional fields (R62) -/

/-- The decoder reads `pre` and `cs` through their defaults only. -/
theorem decode_withOptional {q : Request} {pre cs : Option Bool} (hpre : defaultTrue pre = defaultTrue q.fields.pre)
    (hcs : defaultTrue cs = defaultTrue q.fields.cs) :
    decode { q with fields := { q.fields with pre := pre, cs := cs } } = decode q := by
  simp only [decode, hpre, hcs]

/-- A step reads a request through the decoder only: two states that differ in the request alone take one step if the
requests decode alike. -/
theorem step_of_decode_eq {s s' : State} {q q' : Request} {rest : List HostAction} (hhost : s.host = .issue q :: rest)
    (hhost' : s'.host = .issue q' :: rest) (hrest : s'.setHost rest = s.setHost rest) (hdec : decode q' = decode q) :
    step s = step s' := by
  cases hq : decode q with
  | ok i => rw [step_of_decode_ok hhost hq, step_of_decode_ok hhost' (hdec.trans hq), hrest]
  | error e => rw [step_of_decode_error hhost hq, step_of_decode_error hhost' (hdec.trans hq), hrest]

/-- Settles O4: a field set to its default has the default of the field that was absent. -/
theorem absentOptionalFieldsAreOne : Obligations.AbsentOptionalFieldsAreOne := by
  intro s q rest hhost present
  have hpresent (o : Option Bool) : defaultTrue (present o) = defaultTrue o := by cases o <;> rfl
  exact step_of_decode_eq hhost rfl rfl (decode_withOptional (hpresent _) (hpresent _))

/-! ### Clamped fields (R81) -/

/-- The clamp of R11 in the order of R81: over a range that is not empty the two bounds commute. -/
theorem clamp_eq_max_min {lo hi : Int} (h : lo ≤ hi) (v : Int) : clamp v lo hi = max lo (min v hi) := by
  simp only [clamp]
  omega

theorem clampByte_eq_ofInt (v : Int) : clampByte v = BitVec.ofInt 8 (max 0 (min v 255)) := by
  rw [clampByte, clamp_eq_max_min (by decide)]

theorem clampU16_eq_ofInt (v : Int) : clampU16 v = BitVec.ofInt 16 (max 0 (min v 65535)) := by
  rw [clampU16, clamp_eq_max_min (by decide)]

/-- Settles O5: each command's row of the decoder, with the clamp rewritten; and the bytes of CMD.MOVE as numbers. -/
theorem wideCommandFieldsAreClamped : Obligations.WideCommandFieldsAreClamped := by
  refine ⟨clampByte_toNat, clampU16_toNat, fun ⟨opsel, f, input, inputList⟩ => ?_,
    fun s rest cmdId tableId deviceId command hhost => ?_⟩
  · simp only [← clampByte_eq_ofInt, ← clampU16_eq_ofInt]
    refine ⟨?_, ?_, ?_, ?_, ?_, ?_, ?_, ?_⟩ <;> (rintro rfl; rfl)
  · refine ⟨_, _, _, _, _, step_of_decode_ok hhost rfl, ?_, clampByte_toNat _, clampByte_toNat _, clampByte_toNat _⟩
    rw [le16_toNat, clampU16_toNat]

end Sys2Proof.Machine
end

section
/-!
SUPPORT. The form every encoded command has (R67), said once for the eight CMD operations.
-/

namespace Sys2Proof.Machine

/-- The operation completes, and a STATUS of OK comes with the command of this id and opcode and a payload (R67). -/
def AnswersCommand (cmdId : U16) (opcode : Byte) (r : Host.Outcome State Fault Refusal) : Prop :=
  ∃ t : State, r = .next t ∧ (t.status = 0x00#8 →
    ∃ payload : Bytes, payload ≠ [] ∧ t.out = .bytes (commandBytes cmdId opcode payload))

theorem answersCommand_respond (s : State) (cmdId : U16) (opcode first : Byte) (rest : Bytes) :
    AnswersCommand cmdId opcode (.next (s.respond .ok (.bytes (commandBytes cmdId opcode (first :: rest))))) :=
  ⟨_, rfl, fun _ => ⟨first :: rest, List.cons_ne_nil _ _, rfl⟩⟩

theorem answersCommand_fail (s : State) (cmdId : U16) (opcode : Byte) {e : Status} (he : e ≠ .ok) :
    AnswersCommand cmdId opcode (.next (s.fail e)) :=
  ⟨_, rfl, fun hok => absurd (Status.code_injective e .ok hok) he⟩

theorem answersCommand_cmdSwitch (cmdId : U16) (tableId : Byte) (on : Bool) (ids : Bytes) (s : State) :
    AnswersCommand cmdId 0x40#8 (execCmdSwitch cmdId tableId on ids s) := by
  obtain ⟨_, h⟩ | ⟨_, h⟩ | ⟨_, h⟩ := execCmdSwitch_cases cmdId tableId on ids s
  · exact h ▸ answersCommand_fail s cmdId _ (by decide)
  · exact h ▸ answersCommand_fail s cmdId _ (by decide)
  · exact h ▸ answersCommand_respond ..

theorem answersCommand_cmdRgb (cmdId : U16) (tableId deviceId mode r g b autoOff onInt offInt : Byte) (interval : U16)
    (s : State) :
    AnswersCommand cmdId 0x44#8 (execCmdRgb cmdId tableId deviceId mode r g b autoOff onInt offInt interval s) := by
  unfold execCmdRgb
  cases rgbPayload mode r g b autoOff onInt offInt interval with
  | some p => exact answersCommand_respond ..
  | none => exact answersCommand_fail s cmdId _ (by decide)

/-- Every operation with a selector of the command family answers a command with the id of its own request and its own
selector. -/
theorem exec_answersCommand {i : Instr}
    (h : (encode i).opsel ∈ ([0x01, 0x02, 0x40, 0x41, 0x42, 0x43, 0x44, 0x45] : List Byte)) (s : State) :
    ∃ cmdId : U16, (encode i).fields.cmdId = cmdId.toNat ∧ AnswersCommand cmdId (encode i).opsel (exec i s) := by
  cases i with
  | cmdGetDev cmdId | cmdGetMeta cmdId | cmdMove cmdId | cmdGenie cmdId | cmdDim cmdId | cmdHvac cmdId =>
    exact ⟨cmdId, rfl, answersCommand_respond ..⟩
  | cmdSwitch cmdId => exact ⟨cmdId, rfl, answersCommand_cmdSwitch ..⟩
  | cmdRgb cmdId => exact ⟨cmdId, rfl, answersCommand_cmdRgb ..⟩
  | _ => simp [encode] at h

/-- Settles O23: the two bytes of the command id, low byte first, make up the request's field. -/
theorem everyCommandBeginsWithIdAndOpcode : Obligations.EveryCommandBeginsWithIdAndOpcode := by
  intro i s h
  obtain ⟨cmdId, hid, t, hexec, hcommand⟩ := exec_answersCommand h s
  refine ⟨t, hexec, fun hok => ?_⟩
  obtain ⟨payload, hne, hout⟩ := hcommand hok
  refine ⟨cmdId.extractLsb' 0 8, cmdId.extractLsb' 8 8, payload, hout, ?_, hne⟩
  rw [le16_toNat, hid]

end Sys2Proof.Machine
end

section
/-!
SUPPORT. Limits; and Checksum8: a step of its table, a changed byte, the table of REF, CSUM8; and the settled statements about them.
-/

namespace Sys2Proof.Machine

/-! ### Capacity (R47) -/

theorem fits_zero (limit : Option Nat) : fits limit 0 := fun _ _ => Nat.zero_le _

theorem fits_some_iff {cap n : Nat} : fits (some cap) n ↔ n ≤ cap := by simp [fits]

/-! ### The table of Checksum8 (R101, R109) -/

/-- One byte of the table-driven form (R101). -/
def tableStep (entries : Vector Byte 256) (c b : Byte) : Byte := entries[(c ^^^ b).toNat]'((c ^^^ b).isLt)

theorem tableChecksum_eq_foldl (seed : Byte) (entries : Vector Byte 256) (s : Bytes) :
    tableChecksum seed entries s = s.foldl (tableStep entries) seed := rfl

theorem checksum8_table {c : Config} {seed : Byte} {entries : Vector Byte 256} (h : c.checksum = .table seed entries)
    (s : Bytes) : checksum8 c s = s.foldl (tableStep entries) seed := by
  simp only [checksum8, h, tableChecksum_eq_foldl]

section
variable {entries : Vector Byte 256} (hperm : entries.toList.Nodup)
include hperm

/-- A permutation has each entry at one index only. -/
theorem tableStep_inj {c d x y : Byte} : tableStep entries c x = tableStep entries d y ↔ c ^^^ x = d ^^^ y := by
  refine ⟨fun h => ?_, fun h => by simp only [tableStep, h]⟩
  change entries.toList[(c ^^^ x).toNat]'_ = entries.toList[(d ^^^ y).toNat]'_ at h
  exact BitVec.eq_of_toNat_eq (hperm.getElem_inj_iff.1 h)

/-- Different states stay different under any further bytes (R109). -/
theorem foldl_tableStep_injective (s : Bytes) : Function.Injective fun c => s.foldl (tableStep entries) c := by
  induction s with
  | nil => exact fun c d h => h
  | cons b s ih => exact fun c d h => (BitVec.xor_left_inj b).1 ((tableStep_inj hperm).1 (ih h))

/-- R109: one changed byte of a string changes the checksum. -/
theorem checksum8_change_ne {c : Config} {seed : Byte} (hc : c.checksum = .table seed entries) {x y : Byte} (hxy : x ≠ y)
    (p r : Bytes) : checksum8 c (p ++ x :: r) ≠ checksum8 c (p ++ y :: r) := by
  simp only [checksum8_table hc, List.foldl_append, List.foldl_cons]
  exact fun h => hxy ((BitVec.xor_right_inj _).1 ((tableStep_inj hperm).1 (foldl_tableStep_injective hperm r h)))

end

/-! ### CSUM8 (R100) -/

theorem exec_csum8_of_fits {s : State} {input : Bytes} (h : fits s.cfg.bufCap input.length) :
    exec (.csum8 input) s = .next (s.respond .ok (.u8 (checksum8 s.cfg input))) := by
  show execCsum8 input s = _
  rw [execCsum8, (overCap_eq_false _ _).2 h, if_neg Bool.false_ne_true]

/-- Settles O24: the checksum is a fold of the table's step, and the last byte is the fold's last step. -/
theorem checksumFollowsTheTable : Obligations.ChecksumFollowsTheTable := by
  intro s seed entries htable
  have hexec {input : Bytes} (h : fits s.cfg.bufCap input.length) :
      exec (.csum8 input) s = .next (s.respond .ok (.u8 (input.foldl (tableStep entries) seed))) := by
    rw [exec_csum8_of_fits h, checksum8_table htable]
  refine ⟨hexec (fits_zero _), fun input b hfits => ⟨_, hexec (fits_mono ?_ hfits), ?_⟩⟩
  · simp
  · rw [hexec hfits, List.foldl_append]
    rfl

/-! ### The table of REF (R102) -/

/-- The step of R102's construction, undone: 0x8C has bit 7, which the shift clears, so bit 7 tells the bit shifted
out. -/
def refUnstep (c : Byte) : Byte :=
  if c.getLsbD 7 then (c ^^^ 0x8C#8) <<< 1 ||| 1#8 else c <<< 1

theorem refStep_refUnstep : ∀ c : Byte, Config.refStep (refUnstep c) = c := by decide

theorem refTable_toList : Config.refTable.toList = Config.refRows.flatten := by decide +kernel

/-- Every byte is the entry at the index that eight steps back lead to. -/
theorem mem_refTable (b : Byte) : b ∈ Config.refTable.toList := by
  have hentry : Nat.repeat Config.refStep 8 (Nat.repeat refUnstep 8 b) = b := by
    simp only [Nat.repeat, refStep_refUnstep]
  rw [Config.refTable, Vector.toList_ofFn, List.mem_ofFn]
  refine ⟨⟨_, (Nat.repeat refUnstep 8 b).isLt⟩, ?_⟩
  rw [BitVec.ofNat_toNat, BitVec.setWidth_eq, hentry]

/-- Settles O26: the construction's step can be undone. -/
theorem refTableIsAPermutation : Obligations.RefTableIsAPermutation := ⟨refTable_toList, mem_refTable⟩

end Sys2Proof.Machine
end

section
/-!
SUPPORT. What COBS.ENC and COBS.DEC answer, said once: by the groups of a stuffed stream, by what the walk leaves owed, and
by the check of its output; and the settled statements about them.
-/

namespace Sys2Proof.Machine

/-! ### Selectors and optional fields (R62) -/

/-- A field at its default, as the statements write it. -/
theorem defaultTrue_eq_ite (o : Option Bool) : defaultTrue o = if o = some false then false else true := by
  rcases o with _ | _ | _ <;> rfl

theorem decode_csum8 {q : Request} (h : q.opsel = 0x80#8) : decode q = .ok (.csum8 q.input) := by
  simp only [decode, h]
  rfl

theorem decode_cobsEnc {q : Request} (h : q.opsel = 0x81#8) :
    decode q = .ok (.cobsEnc (if q.fields.pre = some false then false else true)
      (if q.fields.cs = some false then false else true) q.input) := by
  simp only [decode, h, ← defaultTrue_eq_ite]
  rfl

theorem decode_cobsDec {q : Request} (h : q.opsel = 0x82#8) :
    decode q = .ok (.cobsDec (if q.fields.cs = some false then false else true) q.input) := by
  simp only [decode, h, ← defaultTrue_eq_ite]
  rfl

/-! ### Groups (R64, R65) -/

@[simp] theorem streamOf_nil : streamOf [] = [] := rfl

@[simp] theorem streamOf_cons (g : CobsGroup) (gs : List CobsGroup) : streamOf (g :: gs) = g.stuffed ++ streamOf gs := rfl

@[simp] theorem streamOf_append (gs hs : List CobsGroup) : streamOf (gs ++ hs) = streamOf gs ++ streamOf hs :=
  List.flatMap_append

@[simp] theorem plainOf_nil : plainOf [] = [] := rfl

@[simp] theorem plainOf_cons (g : CobsGroup) (gs : List CobsGroup) : plainOf (g :: gs) = g.plain ++ plainOf gs := rfl

@[simp] theorem plainOf_append (gs hs : List CobsGroup) : plainOf (gs ++ hs) = plainOf gs ++ plainOf hs :=
  List.flatMap_append

section
variable {g : CobsGroup} (hg : g.legal)
include hg

theorem CobsGroup.legal.codeByte_ne_zero : codeByte g.lits.length g.zeros ≠ 0x00#8 := by
  obtain ⟨c, rest, hstream, hc⟩ := streamOf_cons_head g hg []
  exact (List.cons.inj hstream).1.trans_ne hc

/-- R105 (i) for one group. -/
theorem CobsGroup.legal.stuffed_ne_zero : ∀ b ∈ g.stuffed, b ≠ 0x00#8 :=
  have ⟨_, _, _, hlits⟩ := hg
  List.forall_mem_cons.2 ⟨hg.codeByte_ne_zero, hlits⟩

theorem CobsGroup.legal.plain_length_pos : 0 < g.plain.length := by
  obtain ⟨_, _, hne, _⟩ := hg
  rw [CobsGroup.plain, List.length_append, List.length_replicate]
  obtain h | h := hne
  · have := List.length_pos_of_ne_nil h
    omega
  · omega

/-- R105 (ii) for one group: it has at most one byte more than it has literals, and stands for at least one. -/
theorem CobsGroup.legal.stuffed_length_le : g.stuffed.length ≤ 2 * g.plain.length := by
  have hpos := hg.plain_length_pos
  have hplain : g.plain.length = g.lits.length + g.zeros := by simp [CobsGroup.plain]
  have hstuffed : g.stuffed.length = g.lits.length + 1 := rfl
  omega

end

section
variable {gs : List CobsGroup} (hgs : ∀ g ∈ gs, g.legal)
include hgs

theorem streamOf_ne_zero : ∀ b ∈ streamOf gs, b ≠ 0x00#8 := by
  intro b hb
  obtain ⟨g, hg, hbg⟩ := List.mem_flatMap.1 hb
  exact (hgs g hg).stuffed_ne_zero b hbg

theorem streamOf_length_le : (streamOf gs).length ≤ 2 * (plainOf gs).length := by
  induction gs with
  | nil => exact Nat.zero_le _
  | cons g gs ih =>
    obtain ⟨hg, hgs⟩ := List.forall_mem_cons.1 hgs
    have hhead := hg.stuffed_length_le
    have htail := ih hgs
    rw [streamOf_cons, plainOf_cons, List.length_append, List.length_append]
    omega

/-- R105 (iii): nothing stuffed stands for nothing. -/
theorem streamOf_eq_nil_iff : streamOf gs = [] ↔ plainOf gs = [] := by
  cases gs with
  | nil => exact Iff.rfl
  | cons g gs =>
    have hpos := (hgs g List.mem_cons_self).plain_length_pos
    refine iff_of_false (List.cons_ne_nil _ _) fun h => ?_
    obtain ⟨hnil, _⟩ := List.append_eq_nil_iff.1 (plainOf_cons g gs ▸ h)
    rw [hnil] at hpos
    exact absurd hpos (lt_irrefl 0)

end

/-! ### COBS.ENC (R103) -/

theorem cobsBuffer_eq_append (c : Config) (cs : Bool) (payload : Bytes) :
    cobsBuffer c cs payload = payload ++ (if cs then [checksum8 c payload] else []) := by
  cases cs
  · exact (List.append_nil payload).symm
  · rfl

theorem cobsBuffer_length (c : Config) (cs : Bool) (payload : Bytes) :
    (cobsBuffer c cs payload).length = payload.length + cs.toNat := by
  cases cs
  · rfl
  · exact List.length_append

/-- R103, R104: all that COBS.ENC does within BUF_CAP. -/
theorem exec_cobsEnc_of_fits {s : State} {cs : Bool} {payload : Bytes}
    (h : fits s.cfg.bufCap (payload.length + cs.toNat)) (pre : Bool) :
    ∃ gs : List CobsGroup, (∀ g ∈ gs, g.legal) ∧ greedy gs ∧ plainOf gs = cobsBuffer s.cfg cs payload ∧
      exec (.cobsEnc pre cs payload) s =
        .next (s.respond .ok (.bytes ((if pre then [0x00#8] else []) ++ streamOf gs ++ [0x00#8]))) := by
  obtain ⟨gs, hlegal, hgreedy, hstuff, hplain⟩ := stuff_spec (cobsBuffer s.cfg cs payload)
  refine ⟨gs, hlegal, hgreedy, hplain, ?_⟩
  show execCobsEnc pre cs payload s = _
  rw [execCobsEnc, cobsEncode, (overCap_eq_false _ _).2 h, if_neg Bool.false_ne_true, cobsFrame, hstuff,
    State.finish_ok]

/-- Settles O25: the byte that completes the buffer is CSUM8's. -/
theorem checksumIsTheByteTheCodecAppends : Obligations.ChecksumIsTheByteTheCodecAppends := by
  refine ⟨fun q => decode_csum8, fun s input hfits => ⟨_, exec_csum8_of_fits hfits, fun hroom => ?_⟩⟩
  obtain ⟨gs, hlegal, _, hplain, hexec⟩ := exec_cobsEnc_of_fits (cs := true) hroom false
  exact ⟨gs, hplain, hlegal, hexec⟩

/-- Settles O27: the groups are those of `stuff_spec`. -/
theorem cobsEncEmitsGreedyGroups : Obligations.CobsEncEmitsGreedyGroups := by
  refine ⟨fun q => decode_cobsEnc, fun s pre cs payload hfits => ?_⟩
  obtain ⟨gs, hlegal, hgreedy, hplain, hexec⟩ := exec_cobsEnc_of_fits hfits pre
  exact ⟨gs, hlegal, hgreedy, hplain.trans (cobsBuffer_eq_append ..), hexec⟩

/-- Settles O28: each part holds of every stream of legal groups, and the groups stand for the buffer. -/
theorem cobsFrameShape : Obligations.CobsFrameShape := by
  intro s pre cs payload hfits
  obtain ⟨gs, hlegal, _, hplain, hexec⟩ := exec_cobsEnc_of_fits hfits pre
  have hlen : (plainOf gs).length = payload.length + cs.toNat := hplain ▸ cobsBuffer_length ..
  refine ⟨streamOf gs, hexec, streamOf_ne_zero hlegal, hlen ▸ streamOf_length_le hlegal, ?_⟩
  rw [streamOf_eq_nil_iff hlegal, ← hlen, List.length_eq_zero_iff]

/-! ### Steps 3 to 5 of COBS.DEC (R106) -/

@[simp] theorem checkFrame_false (c : Config) (out : Bytes) : checkFrame c false out = .ok out := rfl

@[simp] theorem checkFrame_true_nil (c : Config) : checkFrame c true [] = .error .errShort := rfl

@[simp] theorem checkFrame_true_append (c : Config) (body : Bytes) (received : Byte) :
    checkFrame c true (body ++ [received]) =
      if checksum8 c body = received then .ok body else .error .errChecksum := by
  simp [checkFrame]

/-- What COBS.ENC puts into the buffer passes the check (R108). -/
theorem checkFrame_cobsBuffer (c : Config) (cs : Bool) (payload : Bytes) :
    checkFrame c cs (cobsBuffer c cs payload) = .ok payload := by
  cases cs
  · rfl
  · exact (checkFrame_true_append c payload _).trans (if_pos rfl)

/-! ### COBS.DEC (R106, R107) -/

theorem exec_cobsDec (cs : Bool) (input : Bytes) (s : State) :
    exec (.cobsDec cs input) s = .next (s.finish (cobsDecode s.cfg cs input)) := rfl

/-- Within BUF_CAP the check follows the walk. -/
theorem cobsDecode_of_fits {c : Config} {input : Bytes} (h : fits c.bufCap input.length) (cs : Bool) :
    cobsDecode c cs input = (unstuff c.bufCap input).bind (checkFrame c cs) := by
  rw [cobsDecode, (overCap_eq_false _ _).2 h, if_neg Bool.false_ne_true]
  cases unstuff c.bufCap input <;> rfl

/-- All that COBS.DEC can do: fail before it reads `cs`, or check the bytes of the walk. -/
theorem cobsDecode_cases (c : Config) (input : Bytes) :
    (∃ e, (e = .errTruncated ∨ e = .errUnterminated ∨ e = .errCapacity) ∧ ∀ cs, cobsDecode c cs input = .error e) ∨
    ∃ out, ∀ cs, cobsDecode c cs input = checkFrame c cs out := by
  by_cases hfits : fits c.bufCap input.length
  · simp only [cobsDecode_of_fits hfits]
    cases hwalk : unstuff c.bufCap input with
    | ok out => exact .inr ⟨out, fun _ => rfl⟩
    | error e =>
      obtain h | h | ⟨h, _⟩ := walk_error hwalk
      · exact .inl ⟨e, .inl h, fun _ => rfl⟩
      · exact .inl ⟨e, .inr (.inl h), fun _ => rfl⟩
      · exact .inl ⟨e, .inr (.inr h), fun _ => rfl⟩
  · have hover : overCap c.bufCap input.length = true := by
      rwa [← Bool.not_eq_false, overCap_eq_false]
    exact .inl ⟨_, .inr (.inr rfl), cobsDecode_of_over hover⟩

/-- Settles O32: a failure of the walk does not read `cs`, and the rest is the check of the walk's output. -/
theorem cobsDecVerifiesTheChecksum : Obligations.CobsDecVerifiesTheChecksum := by
  intro s input
  refine ⟨_, _, exec_cobsDec false input s, exec_cobsDec true input s, ?_⟩
  obtain ⟨e, he, hdec⟩ | ⟨out, hdec⟩ := cobsDecode_cases s.cfg input
  · have hcode : e.code ≠ 0x82#8 ∧ e.code ≠ 0x83#8 ∧ e.code ≠ 0x00#8 := by
      obtain rfl | rfl | rfl := he <;> decide
    obtain ⟨hshort, hchecksum, hok⟩ := hcode
    rw [hdec, hdec, State.finish_error]
    exact ⟨hshort, hchecksum, fun _ => rfl, fun h => absurd h hok⟩
  · obtain ⟨hshort, hchecksum⟩ : Status.ok.code ≠ 0x82#8 ∧ Status.ok.code ≠ 0x83#8 := by decide
    rw [hdec, hdec, checkFrame_false, State.finish_ok]
    refine ⟨hshort, hchecksum, fun h => absurd rfl h, fun _ => ⟨out, rfl, ?_, ?_⟩⟩
    · intro hnil
      rw [hnil, checkFrame_true_nil]
      rfl
    · rintro body received rfl
      rw [checkFrame_true_append]
      exact ⟨fun h => by rw [if_pos h]; rfl, fun h => by rw [if_neg h]; rfl⟩

section
variable {c : Config} {cap : Option Nat} {leading : Nat} {gs : List CobsGroup} (hgs : ∀ g ∈ gs, g.legal)
include hgs

/-- R107, R110: legal groups and their terminator, within BUF_CAP, are checked for what they stand for. -/
theorem cobsDecode_stream {trailing : Bytes} (hne : gs ≠ [] ∨ trailing = [])
    (hin : fits c.bufCap (List.replicate leading 0x00#8 ++ streamOf gs ++ [0x00#8] ++ trailing).length)
    (hout : fits c.bufCap (plainOf gs).length) (cs : Bool) :
    cobsDecode c cs (List.replicate leading 0x00#8 ++ streamOf gs ++ [0x00#8] ++ trailing) =
      checkFrame c cs (plainOf gs) := by
  rw [cobsDecode_of_fits hin, unstuff_stream _ _ gs hgs _ hne hout]
  rfl

/-- Without more bytes the walk over legal groups has no terminator. -/
theorem unstuff_unterminated (hne : gs ≠ []) (hout : fits cap (plainOf gs).length) :
    unstuff cap (List.replicate leading 0x00#8 ++ streamOf gs) = .error .errUnterminated := by
  have hskip := skipDelimiters_stream leading gs hgs hne []
  rw [List.append_nil] at hskip
  rw [unstuff, hskip, walk_stream _ gs hgs [] [] (by simpa using hout)]
  rfl

/-- Legal groups that stand for more than BUF_CAP bytes end the walk. -/
theorem unstuff_over (hout : ¬ fits cap (plainOf gs).length) (tail : Bytes) :
    unstuff cap (List.replicate leading 0x00#8 ++ streamOf gs ++ tail) = .error .errCapacity := by
  have hzero : fits cap ([] : Bytes).length := fits_zero cap
  have hne : gs ≠ [] := by
    rintro rfl
    exact hout hzero
  rw [unstuff, skipDelimiters_stream leading gs hgs hne, walk_stream_over _ gs hgs [] _ hzero (by simpa using hout)]

/-- Leading delimiters are skipped before legal groups, or before any other byte that is no delimiter. -/
theorem skipDelimiters_stream_cons {code : Byte} (hcode : code ≠ 0x00#8) (rest : Bytes) :
    skipDelimiters (List.replicate leading 0x00#8 ++ streamOf gs ++ code :: rest) = streamOf gs ++ code :: rest := by
  cases gs with
  | nil => simpa using skipDelimiters_replicate leading code hcode rest
  | cons g gs => exact skipDelimiters_stream leading (g :: gs) hgs (List.cons_ne_nil g gs) _

section
variable {code : Byte} {lits : Bytes} (hcode : code ≠ 0x00#8) (hlits : ∀ b ∈ lits, b ≠ 0x00#8)
  (howed : lits.length < code.toNat % 64) (hout : fits cap (plainOf gs ++ lits).length)
include hcode hlits howed hout

/-- After a code byte with fewer literals than it owes, the walk goes on with literals owed. -/
theorem unstuff_owing (rest : Bytes) :
    ∃ code' out', code' ≠ 0x00#8 ∧
      unstuff cap (List.replicate leading 0x00#8 ++ streamOf gs ++ code :: lits ++ rest) =
        walk cap code' out' rest := by
  rw [List.length_append] at hout
  have hplain : fits cap (plainOf gs).length := fits_mono (Nat.le_add_right _ _) hout
  obtain ⟨code', out', hcode', hwalk⟩ := walk_owing_literals code hcode lits howed hlits (plainOf gs) rest hout
  refine ⟨code', out', hcode', ?_⟩
  rw [List.append_assoc, List.cons_append, unstuff, skipDelimiters_stream_cons hgs hcode,
    walk_stream _ gs hgs [] _ (by simpa using hplain), List.nil_append,
    walk_owing_code hcode (Nat.ne_zero_of_lt howed) _ _ hplain, hwalk]

theorem unstuff_owing_delimiter (trailing : Bytes) :
    unstuff cap (List.replicate leading 0x00#8 ++ streamOf gs ++ code :: lits ++ [0x00#8] ++ trailing) =
      .error .errTruncated := by
  obtain ⟨code', out', hcode', hwalk⟩ := unstuff_owing hgs hcode hlits howed hout (leading := leading) (0x00#8 :: trailing)
  rw [List.append_assoc _ [0x00#8], List.singleton_append, hwalk, walk, if_pos rfl, if_neg hcode']

theorem unstuff_owing_end :
    unstuff cap (List.replicate leading 0x00#8 ++ streamOf gs ++ code :: lits) = .error .errUnterminated := by
  obtain ⟨code', out', _, hwalk⟩ := unstuff_owing hgs hcode hlits howed hout (leading := leading) []
  rw [List.append_nil] at hwalk
  rw [hwalk, walk]

end

end

theorem exec_cobsDec_of_ok {s : State} {cs : Bool} {input out : Bytes} (h : cobsDecode s.cfg cs input = .ok out) :
    exec (.cobsDec cs input) s = .next (s.respond .ok (.bytes out)) := by
  rw [exec_cobsDec, h, State.finish_ok]

theorem exec_cobsDec_of_error {s : State} {cs : Bool} {input : Bytes} {e : Status}
    (h : cobsDecode s.cfg cs input = .error e) : exec (.cobsDec cs input) s = .next (s.fail e) := by
  rw [exec_cobsDec, h, State.finish_error]

/-- A failure of the walk on an IN within BUF_CAP is the operation's, for either value of `cs`. -/
theorem exec_cobsDec_of_unstuff_error {s : State} {input : Bytes} {e : Status} (hin : fits s.cfg.bufCap input.length)
    (h : unstuff s.cfg.bufCap input = .error e) (cs : Bool) : exec (.cobsDec cs input) s = .next (s.fail e) :=
  exec_cobsDec_of_error (by rw [cobsDecode_of_fits hin, h]; rfl)

/-- Settles O29: the groups COBS.ENC emits stand for a buffer that passes the check. -/
theorem cobsRoundTrip : Obligations.CobsRoundTrip := by
  intro s s' pre cs b hcfg hfits
  obtain ⟨gs, hlegal, _, hplain, hexec⟩ := exec_cobsEnc_of_fits hfits pre
  refine ⟨_, hexec, fun hin => exec_cobsDec_of_ok ?_⟩
  have hout : fits s.cfg.bufCap (plainOf gs).length := by rwa [hplain, cobsBuffer_length]
  have hpre : (if pre then [0x00#8] else []) = List.replicate pre.toNat (0x00#8 : Byte) := by cases pre <;> rfl
  rw [hpre] at hin ⊢
  have hdec := cobsDecode_stream (leading := pre.toNat) (trailing := []) hlegal (.inr rfl)
    (by rwa [List.append_nil]) hout cs
  rw [hcfg, ← checkFrame_cobsBuffer s.cfg cs b, ← hplain, ← hdec, List.append_nil]

/-- Settles O30: with `cs = 0` the check answers its input. -/
theorem cobsDecAcceptsEveryGrouping : Obligations.CobsDecAcceptsEveryGrouping :=
  ⟨fun _ => decode_cobsDec, fun _ _ _ _ hlegal hne hin hout =>
    exec_cobsDec_of_ok (cobsDecode_stream hlegal hne hin hout false)⟩

/-- Settles O31: the walk ends with literals owed, or without a terminator. -/
theorem cobsDecMalformedStreams : Obligations.CobsDecMalformedStreams := by
  intro s cs leading gs hlegal
  refine ⟨fun code lits hcode hlits howed hout => ⟨fun trailing hin => ?delimiter, fun hin => ?ends⟩,
    fun hne hout hin => ?groups, ?empty⟩
  case delimiter =>
    exact exec_cobsDec_of_unstuff_error hin (unstuff_owing_delimiter hlegal hcode hlits howed hout trailing) cs
  case ends => exact exec_cobsDec_of_unstuff_error hin (unstuff_owing_end hlegal hcode hlits howed hout) cs
  case groups => exact exec_cobsDec_of_unstuff_error hin (unstuff_unterminated hlegal hne hout) cs
  case empty => exact exec_cobsDec_of_unstuff_error (input := []) (fits_zero _) rfl cs

/-- Settles O56: the output passes the limit inside the walk. -/
theorem cobsDecOutputOverBufCapIsRefused : Obligations.CobsDecOutputOverBufCapIsRefused := by
  intro s cap cs leading gs tail hcap hlegal hlt hle
  have hin : fits s.cfg.bufCap (List.replicate leading 0x00#8 ++ streamOf gs ++ tail).length := hcap ▸ fits_some_iff.2 hle
  exact exec_cobsDec_of_unstuff_error hin (unstuff_over hlegal (not_fits_of_lt hcap hlt) tail) cs

/-! ### A changed literal (R109) -/

/-- R109 (i) on the unstuffed bytes: a payload and its checksum with one byte changed do not pass the check, whether
the byte is the payload's or the checksum. -/
theorem checkFrame_of_change {c : Config} {seed : Byte} {entries : Vector Byte 256} (hc : c.checksum = .table seed entries)
    (hperm : entries.toList.Nodup) {b p r : Bytes} {x y : Byte} (hxy : y ≠ x) (hb : p ++ x :: r = b ++ [checksum8 c b]) :
    checkFrame c true (p ++ y :: r) = .error .errChecksum := by
  obtain rfl | ⟨r', received, rfl⟩ := List.eq_nil_or_concat r
  · obtain ⟨rfl, hx⟩ := List.append_inj' hb rfl
    rw [checkFrame_true_append, if_neg fun h => hxy (h.symm.trans (List.cons.inj hx).1.symm)]
  · rw [List.concat_eq_append, ← List.cons_append, ← List.append_assoc] at hb ⊢
    obtain ⟨rfl, hreceived⟩ := List.append_inj' hb rfl
    rw [checkFrame_true_append, (List.cons.inj hreceived).1, if_neg (checksum8_change_ne hperm hc hxy p r')]

/-- Groups of which one has the literal `y` at one place of it. -/
def literalGroups (front back : List CobsGroup) (l₁ l₂ : Bytes) (zeros : Nat) (y : Byte) : List CobsGroup :=
  front ++ { lits := l₁ ++ y :: l₂, zeros := zeros } :: back

section
variable (front back : List CobsGroup) (l₁ l₂ : Bytes) (zeros : Nat) (x y : Byte)

/-- The literal is not in the code byte, so a change of it changes no other byte of the stream. -/
theorem streamOf_literalGroups :
    streamOf (literalGroups front back l₁ l₂ zeros y) =
      streamOf front ++ codeByte (l₁ ++ x :: l₂).length zeros :: (l₁ ++ y :: l₂) ++ streamOf back := by
  have hlen : (l₁ ++ y :: l₂).length = (l₁ ++ x :: l₂).length := by simp only [List.length_append, List.length_cons]
  rw [literalGroups, streamOf_append, streamOf_cons, List.append_assoc, ← hlen]
  rfl

theorem plainOf_literalGroups :
    plainOf (literalGroups front back l₁ l₂ zeros y) =
      (plainOf front ++ l₁) ++ y :: (l₂ ++ List.replicate zeros 0x00#8 ++ plainOf back) := by
  simp [literalGroups, CobsGroup.plain]

theorem plainOf_literalGroups_length :
    (plainOf (literalGroups front back l₁ l₂ zeros y)).length = (plainOf (literalGroups front back l₁ l₂ zeros x)).length := by
  simp only [plainOf_literalGroups, List.length_append, List.length_cons]

end

section
variable {front back : List CobsGroup} {l₁ l₂ : Bytes} {zeros : Nat} {x : Byte}
  (hlegal : ∀ g ∈ literalGroups front back l₁ l₂ zeros x, g.legal)
include hlegal

/-- The group keeps its length, so with any literal that is no delimiter it is legal. -/
theorem literalGroups_legal {y : Byte} (hy : y ≠ 0x00#8) : ∀ g ∈ literalGroups front back l₁ l₂ zeros y, g.legal := by
  simp only [literalGroups, List.forall_mem_append, List.forall_mem_cons] at hlegal ⊢
  obtain ⟨hfront, ⟨hlen, hzeros, _, hlits⟩, hback⟩ := hlegal
  refine ⟨hfront, ⟨?_, hzeros, .inl (by simp), ?_⟩, hback⟩
  · simpa using hlen
  · simp only [List.forall_mem_append, List.forall_mem_cons] at hlits ⊢
    obtain ⟨hbefore, _, hafter⟩ := hlits
    exact ⟨hbefore, hy, hafter⟩

/-- R109 (ii): a delimiter in the literal's place comes while literals are owed. -/
theorem unstuff_literal_delimiter {cap : Option Nat} (hout : fits cap (plainOf (literalGroups front back l₁ l₂ zeros x)).length)
    (leading : Nat) (trailing : Bytes) :
    unstuff cap (List.replicate leading 0x00#8 ++ streamOf front ++
        codeByte (l₁ ++ x :: l₂).length zeros :: (l₁ ++ 0x00#8 :: l₂) ++ trailing) = .error .errTruncated := by
  simp only [literalGroups, List.forall_mem_append, List.forall_mem_cons] at hlegal
  obtain ⟨hfront, hg, _⟩ := hlegal
  have hcode := hg.codeByte_ne_zero
  obtain ⟨hlen, hzeros, _, hlits⟩ := hg
  have howed : l₁.length < (codeByte (l₁ ++ x :: l₂).length zeros).toNat % 64 := by
    rw [codeByte_toNat hlen hzeros]
    simp only [List.length_append, List.length_cons] at hlen ⊢
    omega
  have hbefore : fits cap (plainOf front ++ l₁).length := by
    rw [plainOf_literalGroups, List.length_append] at hout
    exact fits_mono (Nat.le_add_right _ _) hout
  obtain ⟨hlits₁, _⟩ := List.forall_mem_append.1 hlits
  have h := unstuff_owing_delimiter hfront hcode hlits₁ howed hbefore (leading := leading) (l₂ ++ trailing)
  simpa using h

end

/-- Settles O33: the changed byte fails the check; a delimiter in its place leaves literals owed. -/
theorem cobsLiteralChangeIsDetected : Obligations.CobsLiteralChangeIsDetected := by
  intro s seed entries leading b front back l₁ l₂ x x' zeros htable hperm hlegal hplain hx frame hin hroom
  change ∀ g ∈ literalGroups front back l₁ l₂ zeros x, g.legal at hlegal
  change plainOf (literalGroups front back l₁ l₂ zeros x) = _ at hplain
  have hinput (y : Byte) : fits s.cfg.bufCap (frame y).length := by
    have hlength : (frame y).length = (frame x).length := by simp [frame]
    rwa [hlength]
  have hout (y : Byte) : fits s.cfg.bufCap (plainOf (literalGroups front back l₁ l₂ zeros y)).length := by
    rwa [plainOf_literalGroups_length _ _ _ _ _ x y, hplain, List.length_append]
  have hframe (y : Byte) : frame y =
      List.replicate leading 0x00#8 ++ streamOf (literalGroups front back l₁ l₂ zeros y) ++ [0x00#8] ++ [] := by
    simp only [frame, streamOf_literalGroups front back l₁ l₂ zeros x y, codeByte, foldStep, List.append_assoc,
      List.append_nil]
  have hdec {y : Byte} (hy : ∀ g ∈ literalGroups front back l₁ l₂ zeros y, g.legal) : cobsDecode s.cfg true (frame y) =
      checkFrame s.cfg true (plainOf (literalGroups front back l₁ l₂ zeros y)) := by
    rw [hframe]
    exact cobsDecode_stream hy (.inr rfl) (hframe y ▸ hinput y) (hout y) true
  refine ⟨exec_cobsDec_of_ok ?same, fun hne => exec_cobsDec_of_error (e := .errChecksum) ?changed, fun hzero => ?delimiter⟩
  case same =>
    rw [hdec hlegal, hplain]
    exact checkFrame_cobsBuffer s.cfg true b
  case changed =>
    rw [hdec (literalGroups_legal hlegal hne), plainOf_literalGroups]
    exact checkFrame_of_change htable hperm hx (by rw [← plainOf_literalGroups, hplain])
  case delimiter =>
    refine exec_cobsDec_of_unstuff_error (e := .errTruncated) (hinput x') ?_ true
    subst hzero
    have h := unstuff_literal_delimiter hlegal (hout x) leading (streamOf back ++ [0x00#8])
    rwa [← List.append_assoc] at h

end Sys2Proof.Machine
end

section
/-!
SUPPORT. The block cipher as the statements read it: the loops of TEA.ENC and TEA.DEC undo each other and are iterates of
one round, and TEA.DECBUF is TEA.DEC block by block; and the settled statements about them.
-/

namespace Sys2Proof.Machine

/-! ### Selectors (R62) -/

theorem decode_teaEnc {q : Request} (h : q.opsel = 0x90#8) : decode q = .ok (.teaEnc q.fields.key64 q.fields.block) := by
  simp only [decode, h]
  rfl

theorem decode_teaDec {q : Request} (h : q.opsel = 0x91#8) : decode q = .ok (.teaDec q.fields.key64 q.fields.block) := by
  simp only [decode, h]
  rfl

theorem decode_teaDecBuf {q : Request} (h : q.opsel = 0x92#8) :
    decode q = .ok (.teaDecBuf q.fields.keyBytes q.input) := by
  simp only [decode, h]
  rfl

/-! ### TEA.ENC and TEA.DEC (R122, R123) -/

theorem exec_teaEnc (key block : U64) (s : State) :
    exec (.teaEnc key block) s = .next { s with status := 0x00#8, out := .u64 (teaEncrypt s.cfg key block) } := rfl

theorem exec_teaDec (key block : U64) (s : State) :
    exec (.teaDec key block) s = .next { s with status := 0x00#8, out := .u64 (teaDecrypt s.cfg key block) } := rfl

/-! ### The loops undo each other (R125) -/

/-- The accumulator `n + 1` rounds on, reduced once, is the one `n` rounds on. -/
theorem accumulator_succ_sub (acc delta : U32) (n : Nat) :
    acc + delta * BitVec.ofNat 32 (n + 1) - delta = acc + delta * BitVec.ofNat 32 n := by
  rw [← BitVec.ofNat_add_ofNat n 1, BitVec.mul_add, ← BitVec.add_assoc]
  simp

section
variable (c : Config) (k : Subkeys) (delta : U32)

/-- The first round of the decrypt loop undoes the last one of the encrypt loop. -/
theorem decRounds_encRounds (n : Nat) (acc : U32) (h : Halves) :
    decRounds c k delta n (acc + delta * BitVec.ofNat 32 n) (encRounds c k delta n acc h) = h := by
  induction n with
  | zero => rfl
  | succ n ih => rw [decRounds, encRounds_succ_last, decRound_encRound, accumulator_succ_sub, ih]

/-- The last round of the encrypt loop undoes the first one of the decrypt loop. -/
theorem encRounds_decRounds (n : Nat) (acc : U32) (h : Halves) :
    encRounds c k delta n acc (decRounds c k delta n (acc + delta * BitVec.ofNat 32 n) h) = h := by
  induction n generalizing h with
  | zero => rfl
  | succ n ih => rw [encRounds_succ_last, decRounds, accumulator_succ_sub, ih, encRound_decRound]

end

/-- TEA.DEC starts from the accumulator that TEA.ENC, which starts from 0, ends with. -/
theorem decryptStart_eq_zero_add (l : TeaLiterals) :
    BitVec.ofNat 32 (l.delta.toNat * l.rounds) = 0#32 + l.delta * BitVec.ofNat 32 l.rounds := by
  rw [decryptStart_eq, BitVec.zero_add]

theorem teaDecrypt_teaEncrypt (c : Config) (key block : U64) : teaDecrypt c key (teaEncrypt c key block) = block := by
  rw [teaDecrypt, teaEncrypt, Halves.ofBlock_toBlock, decryptStart_eq_zero_add, decRounds_encRounds,
    Halves.toBlock_ofBlock]

theorem teaEncrypt_teaDecrypt (c : Config) (key block : U64) : teaEncrypt c key (teaDecrypt c key block) = block := by
  rw [teaDecrypt, teaEncrypt, Halves.ofBlock_toBlock, decryptStart_eq_zero_add, encRounds_decRounds,
    Halves.toBlock_ofBlock]

/-- Settles O34: the two loops undo each other, whatever the subkeys and the mixing are. -/
theorem cipherRoundTrip : Obligations.CipherRoundTrip := by
  refine ⟨fun q => decode_teaEnc, fun q => decode_teaDec, fun s s' k m hcfg => ⟨⟨_, exec_teaEnc k m s, ?decrypt⟩,
    ⟨_, exec_teaDec k m s, ?encrypt⟩⟩⟩
  case decrypt => rw [exec_teaDec, hcfg, teaDecrypt_teaEncrypt]
  case encrypt => rw [exec_teaEnc, hcfg, teaEncrypt_teaDecrypt]

/-! ### The loops as iterates of one round (R122, R123) -/

/-- One pass of the loop of R122 on the accumulator, S and Y. -/
def encStep (c : Config) (k : Subkeys) (delta : U32) (x : U32 × U32 × U32) : U32 × U32 × U32 :=
  let h := encRound c k (x.1 + delta) ⟨x.2.1, x.2.2⟩
  (x.1 + delta, h.s, h.y)

/-- One pass of the loop of R123 on the accumulator, S and Y. -/
def decStep (c : Config) (k : Subkeys) (delta : U32) (x : U32 × U32 × U32) : U32 × U32 × U32 :=
  let h := decRound c k x.1 ⟨x.2.1, x.2.2⟩
  (x.1 - delta, h.s, h.y)

section
variable (c : Config) (k : Subkeys) (delta : U32)

theorem encRounds_eq_iterate (n : Nat) (acc : U32) (h : Halves) :
    encRounds c k delta n acc h =
      ⟨((encStep c k delta)^[n] (acc, h.s, h.y)).2.1, ((encStep c k delta)^[n] (acc, h.s, h.y)).2.2⟩ := by
  induction n generalizing acc h with
  | zero => rfl
  | succ n ih => exact ih (acc + delta) (encRound c k (acc + delta) h)

theorem decRounds_eq_iterate (n : Nat) (acc : U32) (h : Halves) :
    decRounds c k delta n acc h =
      ⟨((decStep c k delta)^[n] (acc, h.s, h.y)).2.1, ((decStep c k delta)^[n] (acc, h.s, h.y)).2.2⟩ := by
  induction n generalizing acc h with
  | zero => rfl
  | succ n ih => exact ih (acc - delta) (decRound c k acc h)

end

theorem teaLiterals_given {c : Config} {l : TeaLiterals} (h : c.tea = .given l) : teaLiterals c = l := by
  rw [teaLiterals, h]

theorem teaSubkeys_additive {c : Config} (h : c.subkey = .additive) (key : U64) :
    teaSubkeys c key =
      ⟨(teaLiterals c).c0 + key.extractLsb' 32 32, (teaLiterals c).c1 + key.extractLsb' 0 32,
        (teaLiterals c).c2 + key.extractLsb' 32 32, (teaLiterals c).c3 + key.extractLsb' 0 32⟩ := by
  rw [teaSubkeys, h]

theorem teaMix_classic {c : Config} (h : c.mix = .classic) (v acc a b : U32) :
    teaMix c v acc a b = ((v <<< 4) + a) ^^^ (v + acc) ^^^ ((v >>> 5) + b) := by
  rw [teaMix, h]

/-- `(S << 32) | Y`, as the statements write it. -/
theorem Halves.toBlock_eq_or (h : Halves) : h.toBlock = (h.s.setWidth 64 <<< 32) ||| h.y.setWidth 64 := by
  rw [Halves.toBlock, BitVec.append_def, BitVec.shiftLeftZeroExtend_eq, BitVec.setWidth'_eq]

/-- Settles O35: the statement's rounds are `encStep` and `decStep` of the configuration. -/
theorem cipherIteratesOneRound : Obligations.CipherIteratesOneRound := by
  intro s key block l htea hsubkey hmix kh kl mix enc dec hi lo join
  have hl := teaLiterals_given htea
  have hk := hl ▸ teaSubkeys_additive hsubkey key
  have henc : enc = encStep s.cfg (teaSubkeys s.cfg key) l.delta := by
    funext x
    simp only [enc, mix, kh, kl, encStep, encRound, hk, teaMix_classic hmix]
  have hdec : dec = decStep s.cfg (teaSubkeys s.cfg key) l.delta := by
    funext x
    simp only [dec, mix, kh, kl, decStep, decRound, hk, teaMix_classic hmix]
  constructor
  · rw [exec_teaEnc, teaEncrypt, hl, encRounds_eq_iterate, Halves.toBlock_eq_or, henc]
    rfl
  · rw [exec_teaDec, teaDecrypt, hl, decryptStart_eq, decRounds_eq_iterate, Halves.toBlock_eq_or, hdec]
    rfl

/-! ### TEA.DECBUF (R124) -/

/-- R12, R127: the bytes of a block, as the statements write them. -/
theorem u64ToBytes_eq_ite (o : ByteOrder) (v : U64) :
    u64ToBytes o v = if o = .big then be64enc v else (be64enc v).reverse := by
  cases o <;> rfl

/-- R124: the key is one block, and every block is decrypted by itself. -/
theorem decryptBlocks_flatMap (c : Config) (key : U64) (blocks : List U64) :
    decryptBlocks c key (blocks.flatMap (u64ToBytes c.byteOrder)) =
      (blocks.map (teaDecrypt c key)).flatMap (u64ToBytes c.byteOrder) := by
  induction blocks with
  | nil => rfl
  | cons b blocks ih =>
    rw [List.flatMap_cons, decryptBlocks_append c key _ _ (u64ToBytes_length ..), bytesToU64_u64ToBytes, ih,
      List.map_cons, List.flatMap_cons]

theorem length_flatMap_u64ToBytes (o : ByteOrder) (blocks : List U64) :
    (blocks.flatMap (u64ToBytes o)).length = 8 * blocks.length := by
  simp [List.length_flatMap, u64ToBytes_length, Nat.mul_comm]

theorem snd_of_mem_zip_map {α β : Type} {f : α → β} {l : List α} {p : α × β} (h : p ∈ l.zip (l.map f)) : p.2 = f p.1 := by
  obtain ⟨i, hi, rfl⟩ := List.mem_iff_getElem.1 h
  rw [List.getElem_zip, List.getElem_map]

theorem exec_teaDecBuf (key data : Bytes) (s : State) :
    exec (.teaDecBuf key data) s = .next (s.finish (decryptBuffer s.cfg key data)) := rfl

section
variable {c : Config} {key data : Bytes} (h : fits c.bufCap data.length)
include h

theorem decryptBuffer_of_lengths (hdata : data.length % 8 = 0) (hkey : key.length = 8) :
    decryptBuffer c key data = .ok (decryptBlocks c (bytesToU64 c.byteOrder key) data) := by
  rw [decryptBuffer, (overCap_eq_false _ _).2 h, if_neg Bool.false_ne_true, if_neg (by simp [hdata, hkey])]

theorem decryptBuffer_of_badLength (hbad : data.length % 8 ≠ 0 ∨ key.length ≠ 8) :
    decryptBuffer c key data = .error .errCipherPrecond := by
  rw [decryptBuffer, (overCap_eq_false _ _).2 h, if_neg Bool.false_ne_true, if_pos hbad]

end

/-- Settles O37: the key and each block are read back from their own bytes. -/
theorem decBufDecryptsBlockByBlock : Obligations.DecBufDecryptsBlockByBlock := by
  refine ⟨fun q => decode_teaDecBuf, ?_⟩
  intro s k blocks hfits bytes
  have hbytes : bytes = u64ToBytes s.cfg.byteOrder := by
    funext v
    exact (u64ToBytes_eq_ite ..).symm
  have hlength := length_flatMap_u64ToBytes s.cfg.byteOrder blocks
  refine ⟨blocks.map (teaDecrypt s.cfg k), ?blocks, List.length_map .., ?buffer⟩
  case blocks =>
    intro p hp
    rw [exec_teaDec, snd_of_mem_zip_map hp]
  case buffer =>
    rw [hbytes, exec_teaDecBuf, decryptBuffer_of_lengths (hlength ▸ hfits) (by omega) (u64ToBytes_length ..),
      bytesToU64_u64ToBytes, decryptBlocks_flatMap]
    rfl

/-- Settles O36: within BUF_CAP the test of the two lengths is the first. -/
theorem decBufPrecondition : Obligations.DecBufPrecondition := by
  intro s key data hfits hbad
  rw [exec_teaDecBuf, decryptBuffer_of_badLength hfits hbad]
  rfl

end Sys2Proof.Machine
end

section
/-!
SUPPORT. The command encoder: the equation of each operation, the payload of each mode; and the settled statements
about the bytes of each command.
-/

namespace Sys2Proof.Machine

open Sys2Proof.Laws

/-- A state whose latches hold an emitted command: its id low byte first, its opcode, its payload (R67). -/
def State.emit (s : State) (cmdId : U16) (opcode : Byte) (payload : Bytes) : State :=
  { s with status := 0x00#8, out := .bytes (cmdId.extractLsb' 0 8 :: cmdId.extractLsb' 8 8 :: opcode :: payload) }

theorem respond_commandBytes (s : State) (cmdId : U16) (opcode : Byte) (payload : Bytes) :
    s.respond .ok (.bytes (commandBytes cmdId opcode payload)) = s.emit cmdId opcode payload := rfl

/-! ### Commands with one fixed form (R141, R142, R144, R145, R148) -/

theorem exec_cmdGetDev (cmdId : U16) (tableId startId maxCount : Byte) (s : State) :
    exec (.cmdGetDev cmdId tableId startId maxCount) s =
      .next (s.emit cmdId 0x01#8 [tableId, startId, maxCount]) := rfl

theorem exec_cmdGetMeta (cmdId : U16) (tableId startId maxCount : Byte) (s : State) :
    exec (.cmdGetMeta cmdId tableId startId maxCount) s =
      .next (s.emit cmdId 0x02#8 [tableId, startId, maxCount]) := rfl

theorem exec_cmdMove (cmdId : U16) (tableId deviceId command : Byte) (s : State) :
    exec (.cmdMove cmdId tableId deviceId command) s =
      .next (s.emit cmdId 0x41#8 [tableId, deviceId, command]) := rfl

theorem exec_cmdGenie (cmdId : U16) (tableId deviceId : Byte) (on : Bool) (s : State) :
    exec (.cmdGenie cmdId tableId deviceId on) s =
      .next (s.emit cmdId 0x42#8 [tableId, deviceId, boolByte on]) := rfl

theorem exec_cmdHvac (cmdId : U16) (tableId deviceId command lowTrip highTrip : Byte) (s : State) :
    exec (.cmdHvac cmdId tableId deviceId command lowTrip highTrip) s =
      .next (s.emit cmdId 0x45#8 [tableId, deviceId, command, lowTrip, highTrip]) := rfl

/-- Settles O18: the row of the decoder and the equation of each of the two operations. -/
theorem cmdDeviceQueries : Obligations.CmdDeviceQueries := by
  intro s cmdId tableId startId maxCount f
  exact ⟨DecodeEncode.cmdGetDev .., exec_cmdGetDev .., DecodeEncode.cmdGetMeta .., exec_cmdGetMeta ..⟩

/-- Settles O19: the row of the decoder and the equation of each of the three operations. -/
theorem cmdMoveGenieHvac : Obligations.CmdMoveGenieHvac := by
  intro s cmdId tableId deviceId command lowTrip highTrip on
  exact ⟨DecodeEncode.cmdMove .., exec_cmdMove .., DecodeEncode.cmdGenie .., exec_cmdGenie ..,
    DecodeEncode.cmdHvac .., exec_cmdHvac ..⟩

/-! ### CMD.SWITCH (R143) -/

/-- The number of device ids is tested first, before BUF_CAP. -/
theorem exec_cmdSwitch_of_badCount {ids : Bytes} (h : ids.length = 0 ∨ 255 < ids.length) (cmdId : U16) (tableId : Byte)
    (on : Bool) (s : State) : exec (.cmdSwitch cmdId tableId on ids) s = .next (s.fail .errPrecondition) :=
  if_pos h

/-- With neither failure left, the third case of `execCmdSwitch_cases` is the only one. -/
theorem exec_cmdSwitch_of_goodCount {s : State} {ids : Bytes} (hlo : 1 ≤ ids.length) (hhi : ids.length ≤ 255)
    (hfits : capBinds s.cfg = true → fits s.cfg.bufCap ids.length) (cmdId : U16) (tableId : Byte) (on : Bool) :
    exec (.cmdSwitch cmdId tableId on ids) s = .next (s.emit cmdId 0x40#8 ([tableId, boolByte on] ++ ids)) := by
  obtain ⟨hbad, _⟩ | ⟨hover, _⟩ | ⟨_, h⟩ := execCmdSwitch_cases cmdId tableId on ids s
  · omega
  · exact absurd hfits hover
  · exact h

/-- Settles O20: the two cases of the number of ids. -/
theorem cmdSwitch : Obligations.CmdSwitch := by
  intro s cmdId tableId on ids
  exact ⟨DecodeEncode.cmdSwitch .., fun hlo hhi hfits => exec_cmdSwitch_of_goodCount hlo hhi hfits ..,
    fun hbad => exec_cmdSwitch_of_badCount hbad ..⟩

/-! ### CMD.DIM (R146) -/

theorem exec_cmdDim (cmdId : U16) (tableId deviceId mode brightness duration : Byte) (cycle1 cycle2 : U16) (s : State) :
    exec (.cmdDim cmdId tableId deviceId mode brightness duration cycle1 cycle2) s = .next
      (s.emit cmdId 0x43#8 ([tableId, deviceId] ++ dimPayload mode brightness duration cycle1 cycle2)) := rfl

section
variable {mode : Byte} {cycle1 cycle2 : U16} (brightness duration : Byte)

theorem dimPayload_modeOnly (h : mode = 0x00#8 ∨ mode = 0x7F#8) (cycle1 cycle2 : U16) :
    dimPayload mode brightness duration cycle1 cycle2 = [mode] := if_pos h

theorem dimPayload_cycles (h : mode = 0x02#8 ∨ mode = 0x03#8) (h₁ : cycle1 ≠ 0#16) (h₂ : cycle2 ≠ 0#16) :
    dimPayload mode brightness duration cycle1 cycle2 = [mode, brightness, duration] ++ be16 cycle1 ++ be16 cycle2 := by
  obtain rfl | rfl := h <;> simp [dimPayload, h₁, h₂]

/-- One zero cycle time forces both to the default. -/
theorem dimPayload_defaultCycles (h : mode = 0x02#8 ∨ mode = 0x03#8) (hzero : cycle1 = 0#16 ∨ cycle2 = 0#16) :
    dimPayload mode brightness duration cycle1 cycle2 =
      [mode, brightness, duration] ++ be16 dimCycleDefault ++ be16 dimCycleDefault := by
  obtain rfl | rfl := h <;> simp [dimPayload, hzero]

theorem dimPayload_other (h : mode ∉ ([0x00, 0x02, 0x03, 0x7F] : List Byte)) (cycle1 cycle2 : U16) :
    dimPayload mode brightness duration cycle1 cycle2 = [mode, brightness, duration] := by
  obtain ⟨h0, h2, h3, h7F⟩ : mode ≠ 0x00#8 ∧ mode ≠ 0x02#8 ∧ mode ≠ 0x03#8 ∧ mode ≠ 0x7F#8 := by simpa using h
  rw [dimPayload, if_neg (not_or.2 ⟨h0, h7F⟩), if_neg (not_or.2 ⟨h2, h3⟩)]

end

/-- Settles O21: the payload in each class of modes. -/
theorem cmdDim : Obligations.CmdDim := by
  intro s cmdId tableId deviceId mode brightness duration cycle1 cycle2 form
  have hform {p : Bytes} (h : dimPayload mode brightness duration cycle1 cycle2 = p) : form p :=
    h ▸ exec_cmdDim cmdId tableId deviceId mode brightness duration cycle1 cycle2 s
  exact ⟨DecodeEncode.cmdDim .., fun h => hform (dimPayload_modeOnly _ _ h _ _),
    fun h hzero => hform (dimPayload_defaultCycles _ _ h hzero), fun h h₁ h₂ => hform (dimPayload_cycles _ _ h h₁ h₂),
    fun h => hform (dimPayload_other _ _ h _ _)⟩

/-! ### CMD.RGB (R147) -/

section
variable {mode r g b autoOff onInt offInt : Byte} {interval : U16} (cmdId : U16) (tableId deviceId : Byte) (s : State)

theorem exec_cmdRgb_of_some {p : Bytes} (h : rgbPayload mode r g b autoOff onInt offInt interval = some p) :
    exec (.cmdRgb cmdId tableId deviceId mode r g b autoOff onInt offInt interval) s =
      .next (s.emit cmdId 0x44#8 ([tableId, deviceId] ++ p)) := by
  simp only [exec, execCmdRgb, h, respond_commandBytes]

theorem exec_cmdRgb_of_none (h : rgbPayload mode r g b autoOff onInt offInt interval = none) :
    exec (.cmdRgb cmdId tableId deviceId mode r g b autoOff onInt offInt interval) s =
      .next (s.fail .errPrecondition) := by
  simp only [exec, execCmdRgb, h]

end

/-- The range of the effect modes, as the model tests it, is the list of R147. -/
theorem mem_effectModes_iff (mode : Byte) :
    mode ∈ ([0x04, 0x05, 0x06, 0x07, 0x08] : List Byte) ↔ 0x04#8 ≤ mode ∧ mode ≤ 0x08#8 := by
  simp only [List.mem_cons, List.not_mem_nil, or_false]
  bv_omega

section
variable {mode : Byte} (r g b autoOff onInt offInt : Byte) (interval : U16)

theorem rgbPayload_modeOnly (h : mode = 0x00#8 ∨ mode = 0x7F#8) :
    rgbPayload mode r g b autoOff onInt offInt interval = some [mode] := if_pos h

theorem rgbPayload_solid : rgbPayload 0x01#8 r g b autoOff onInt offInt interval = some [0x01#8, r, g, b, autoOff] := rfl

theorem rgbPayload_blink :
    rgbPayload 0x02#8 r g b autoOff onInt offInt interval = some [0x02#8, r, g, b, autoOff, onInt, offInt] := rfl

theorem rgbPayload_effect (h : mode ∈ ([0x04, 0x05, 0x06, 0x07, 0x08] : List Byte)) :
    rgbPayload mode r g b autoOff onInt offInt interval = some ([mode, autoOff] ++ be16 interval) := by
  have hrange := (mem_effectModes_iff mode).1 h
  have h0 : ¬ (mode = 0x00#8 ∨ mode = 0x7F#8) := by bv_omega
  have h1 : mode ≠ 0x01#8 := by bv_omega
  have h2 : mode ≠ 0x02#8 := by bv_omega
  rw [rgbPayload, if_neg h0, if_neg h1, if_neg h2, if_pos hrange]

theorem rgbPayload_other (h : mode ∉ ([0x00, 0x01, 0x02, 0x04, 0x05, 0x06, 0x07, 0x08, 0x7F] : List Byte)) :
    rgbPayload mode r g b autoOff onInt offInt interval = none := by
  obtain ⟨h0, h1, h2, heffect, h7F⟩ : mode ≠ 0x00#8 ∧ mode ≠ 0x01#8 ∧ mode ≠ 0x02#8 ∧
      mode ∉ ([0x04, 0x05, 0x06, 0x07, 0x08] : List Byte) ∧ mode ≠ 0x7F#8 := by
    simpa [and_assoc] using h
  have hrange := mt (mem_effectModes_iff mode).2 heffect
  rw [rgbPayload, if_neg (not_or.2 ⟨h0, h7F⟩), if_neg h1, if_neg h2, if_neg hrange]

end

/-- Settles O22: the payload in each class of modes, or none. -/
theorem cmdRgb : Obligations.CmdRgb := by
  intro s cmdId tableId deviceId mode r g b autoOff onInt offInt interval request form
  have hform {p : Bytes} (h : rgbPayload mode r g b autoOff onInt offInt interval = some p) : form p :=
    exec_cmdRgb_of_some cmdId tableId deviceId s h
  refine ⟨DecodeEncode.cmdRgb .., fun h => hform (rgbPayload_modeOnly _ _ _ _ _ _ _ h), ?solid, ?blink,
    fun h => hform (rgbPayload_effect _ _ _ _ _ _ _ h),
    fun h => exec_cmdRgb_of_none cmdId tableId deviceId s (rgbPayload_other _ _ _ _ _ _ _ h)⟩
  case solid =>
    rintro rfl
    exact hform (rgbPayload_solid ..)
  case blink =>
    rintro rfl
    exact hform (rgbPayload_blink ..)

end Sys2Proof.Machine
end

section
/-!
SUPPORT. The status decoder: what the record walk reads from a buffer of whole records, what each derived field is; and the
settled statements about the three operations.
-/

namespace Sys2Proof.Machine

/-! ### Selectors (R62) -/

theorem decode_stsRelay {q : Request} (h : q.opsel = 0xA0#8) : decode q = .ok (.stsRelay q.input) := by
  simp only [decode, h]
  rfl

theorem decode_stsDim {q : Request} (h : q.opsel = 0xA1#8) : decode q = .ok (.stsDim q.input) := by
  simp only [decode, h]
  rfl

theorem decode_stsRgb {q : Request} (h : q.opsel = 0xA2#8) : decode q = .ok (.stsRgb q.input) := by
  simp only [decode, h]
  rfl

/-! ### The record walk (R170) -/

/-- An event buffer (R76): its two leading bytes, its records, each a device id and the bytes of its status, and what
is left over. -/
def eventBuffer {γ : Type} (raw : γ → Bytes) (event tableId : Byte) (recs : List (Byte × γ)) (tail : Bytes) : Bytes :=
  event :: tableId :: (recs.flatMap (fun p => p.1 :: raw p.2) ++ tail)

section
variable {α : Type} {n : Nat}

/-- A device id without all of its status ends the walk. -/
theorem walkRecords_of_short (mk : Byte → Bytes → α) (fuel : Nat) {rest : Bytes} (h : rest.length < 1 + n) :
    walkRecords n mk fuel rest = [] := by
  cases fuel with
  | zero => rfl
  | succ fuel =>
    cases rest with
    | nil => rfl
    | cons deviceId rest =>
      rw [List.length_cons] at h
      exact if_neg (by omega)

theorem walkRecords_cons (mk : Byte → Bytes → α) (fuel : Nat) (deviceId : Byte) {status : Bytes} (h : status.length = n)
    (rest : Bytes) :
    walkRecords n mk (fuel + 1) (deviceId :: (status ++ rest)) = mk deviceId status :: walkRecords n mk fuel rest := by
  subst h
  rw [walkRecords, if_pos (by simp), List.take_left, List.drop_left]

/-- R170, D18: a buffer without a table id gives no record. -/
theorem walkEvent_of_short (mk : Byte → Byte → Bytes → α) {event : Bytes} (h : event.length < 2) :
    walkEvent n mk event = [] := by
  match event, h with
  | [], _ => rfl
  | [_], _ => rfl

section
variable {γ : Type} {raw : γ → Bytes} (hraw : ∀ v, (raw v).length = n)
include hraw

theorem length_records (recs : List (Byte × γ)) :
    (recs.flatMap fun p => p.1 :: raw p.2).length = (1 + n) * recs.length := by
  simp [List.length_flatMap, hraw, Nat.mul_comm, Nat.add_comm]

theorem length_eventBuffer (event tableId : Byte) (recs : List (Byte × γ)) (tail : Bytes) :
    (eventBuffer raw event tableId recs tail).length = 2 + (1 + n) * recs.length + tail.length := by
  simp only [eventBuffer, List.length_cons, List.length_append, length_records hraw]
  omega

/-- With fuel for every record, the walk reads each of them and drops what does not fill one. -/
theorem walkRecords_flatMap (mk : Byte → Bytes → α) {recs : List (Byte × γ)} {fuel : Nat} (hfuel : recs.length ≤ fuel)
    {tail : Bytes} (htail : tail.length < 1 + n) :
    walkRecords n mk fuel (recs.flatMap (fun p => p.1 :: raw p.2) ++ tail) = recs.map fun p => mk p.1 (raw p.2) := by
  induction recs generalizing fuel with
  | nil => exact walkRecords_of_short mk fuel htail
  | cons p recs ih =>
    obtain ⟨fuel, rfl⟩ : ∃ m, fuel = m + 1 := Nat.exists_eq_add_one.2 (Nat.zero_lt_of_lt hfuel)
    rw [List.flatMap_cons, List.append_assoc, List.cons_append, walkRecords_cons mk fuel p.1 (hraw p.2),
      ih (Nat.le_of_succ_le_succ hfuel), List.map_cons]

theorem walkEvent_eventBuffer (mk : Byte → Byte → Bytes → α) (event tableId : Byte) (recs : List (Byte × γ))
    {tail : Bytes} (htail : tail.length < 1 + n) :
    walkEvent n mk (eventBuffer raw event tableId recs tail) = recs.map fun p => mk tableId p.1 (raw p.2) := by
  refine walkRecords_flatMap hraw (mk tableId) ?_ htail
  rw [List.length_append, length_records hraw]
  exact Nat.le_add_right_of_le (Nat.le_mul_of_pos_left _ (by omega))

end

end

/-! ### Records (R172 to R174) -/

/-- The tests `x > 0` of R173 and R174. -/
theorem decide_zero_lt (b : Byte) : decide (0#8 < b) = decide (b ≠ 0x00#8) :=
  decide_eq_decide.2 (by bv_omega)

theorem getD_toList_of_lt {m i : Nat} (v : Vector Byte m) (h : i < m) : v.toList.getD i 0#8 = v[i] := by
  simp [h]

theorem mkRelay_singleton (tableId deviceId status : Byte) :
    mkRelay tableId deviceId [status] =
      { tableId := tableId, deviceId := deviceId, raw := [status], isOn := status.getLsbD 0 } := rfl

theorem mkDim_toList (tableId deviceId : Byte) (v : Vector Byte 8) :
    mkDim tableId deviceId v.toList =
      { tableId := tableId, deviceId := deviceId, raw := v.toList, isOn := v[0] ≠ 0x00#8, brightness := v[3] } := by
  simp only [mkDim, getD_toList_of_lt v, decide_zero_lt, Nat.reduceLT]

theorem mkRgb_toList (tableId deviceId : Byte) (v : Vector Byte 8) :
    mkRgb tableId deviceId v.toList =
      { tableId := tableId, deviceId := deviceId, raw := v.toList, mode := v[0], red := v[1], green := v[2],
        blue := v[3], autoOff := v[4], interval := BitVec.ofNat 16 (v[5].toNat * 256 + v[6].toNat),
        isOn := v[0] ≠ 0x00#8, effect := effectLabel v[0] } := by
  simp only [mkRgb, getD_toList_of_lt v, decide_zero_lt, be16dec_eq, Nat.reduceLT]

/-- Settles O41: the eight labelled modes are evaluated; any other number falls to the last row. -/
theorem effectLabelTable : Obligations.EffectLabelTable := by
  refine ⟨rfl, rfl, rfl, rfl, rfl, rfl, rfl, rfl, fun m hm => ?_⟩
  have hnat := mt (List.mem_map_of_injective BitVec.toNat_injective).1 hm
  unfold effectLabel
  split
  case h_9 => rfl
  all_goals -- a labelled row: its number is in the list
    next hmode =>
      rw [hmode] at hnat
      exact absurd (by decide) hnat

/-! ### The operations -/

/-- What the three operations share: the test of IN against BUF_CAP, then the records of the walk. -/
def AnswersWalk {α : Type} (s : State) (op : Bytes → Instr) (n : Nat) (mk : Byte → Byte → Bytes → α)
    (out : List α → Out) : Prop :=
  ∀ event, exec (op event) s =
    if overCap s.cfg.bufCap event.length then .next (s.fail .errCapacity)
    else .next (s.respond .ok (out (walkEvent n mk event)))

theorem answersWalk_stsRelay (s : State) : AnswersWalk s .stsRelay 1 mkRelay .relays := fun _ => rfl

theorem answersWalk_stsDim (s : State) : AnswersWalk s .stsDim 8 mkDim .dims := fun _ => rfl

theorem answersWalk_stsRgb (s : State) : AnswersWalk s .stsRgb 8 mkRgb .rgbs := fun _ => rfl

section
variable {α : Type} {s : State} {op : Bytes → Instr} {n : Nat} {mk : Byte → Byte → Bytes → α} {out : List α → Out}
  (hop : AnswersWalk s op n mk out)
include hop

theorem AnswersWalk.of_fits {event : Bytes} (h : fits s.cfg.bufCap event.length) :
    exec (op event) s = .next (s.respond .ok (out (walkEvent n mk event))) := by
  rw [hop, (overCap_eq_false _ _).2 h, if_neg Bool.false_ne_true]

theorem AnswersWalk.of_not_fits {event : Bytes} (h : ¬ fits s.cfg.bufCap event.length) :
    exec (op event) s = .next (s.fail .errCapacity) := by
  rw [← overCap_eq_false, Bool.not_eq_false] at h
  rw [hop, if_pos h]

theorem AnswersWalk.of_short {event : Bytes} (hshort : event.length < 2) (h : fits s.cfg.bufCap event.length) :
    exec (op event) s = .next (s.respond .ok (out [])) := by
  rw [hop.of_fits h, walkEvent_of_short mk hshort]

theorem AnswersWalk.of_eventBuffer {γ : Type} {raw : γ → Bytes} (hraw : ∀ v, (raw v).length = n) (event tableId : Byte)
    {recs : List (Byte × γ)} {tail : Bytes} (htail : tail.length < 1 + n)
    (h : fits s.cfg.bufCap (2 + (1 + n) * recs.length + tail.length)) :
    exec (op (eventBuffer raw event tableId recs tail)) s =
      .next (s.respond .ok (out (recs.map fun p => mk tableId p.1 (raw p.2)))) := by
  rw [hop.of_fits (by rwa [length_eventBuffer hraw]), walkEvent_eventBuffer hraw mk event tableId recs htail]

end

/-- Settles O38: the walk over records of one status byte. -/
theorem stsRelayRecords : Obligations.StsRelayRecords := by
  refine ⟨fun q => decode_stsRelay, fun s => ?_⟩
  have hop := answersWalk_stsRelay s
  have hraw (b : Byte) : [b].length = 1 := rfl
  refine ⟨fun event tableId recs tail htail hfits => ?_, fun event => hop.of_short, fun event => hop.of_not_fits⟩
  simp only [← mkRelay_singleton]
  exact hop.of_eventBuffer hraw event tableId htail hfits

/-- Settles O39: the walk over records of eight status bytes. -/
theorem stsDimRecords : Obligations.StsDimRecords := by
  refine ⟨fun q => decode_stsDim, fun s => ?_⟩
  have hop := answersWalk_stsDim s
  refine ⟨fun event tableId recs tail htail hfits => ?_, fun event => hop.of_short, fun event => hop.of_not_fits⟩
  simp only [← mkDim_toList]
  exact hop.of_eventBuffer (raw := Vector.toList) (fun _ => Vector.length_toList) event tableId htail hfits

/-- Settles O40: the walk over records of eight status bytes. -/
theorem stsRgbRecords : Obligations.StsRgbRecords := by
  refine ⟨fun q => decode_stsRgb, fun s => ?_⟩
  have hop := answersWalk_stsRgb s
  refine ⟨fun event tableId recs tail htail hfits => ?_, fun event => hop.of_short, fun event => hop.of_not_fits⟩
  simp only [← mkRgb_toList]
  exact hop.of_eventBuffer (raw := Vector.toList) (fun _ => Vector.length_toList) event tableId htail hfits

end Sys2Proof.Machine
end

section
/-!
SUPPORT. Chunk reassembly: the row of the decoder and the equations of each CHK operation, and what a run of keyed fragments
leaves pending; and the settled statements about them.
-/

namespace Sys2Proof.Machine

/-! ### Selectors (R62) -/

theorem decode_chkPush2 {q : Request} (h : q.opsel = 0xB0#8) : decode q = .ok (.chkPush2 q.fields.now q.input) := by
  simp only [decode, h]
  rfl

theorem decode_chkEvict2 {q : Request} (h : q.opsel = 0xB1#8) : decode q = .ok .chkEvict2 := by
  simp only [decode, h]
  rfl

theorem decode_chkPushK {q : Request} (h : q.opsel = 0xB2#8) : decode q = .ok (.chkPushK q.fields.now q.input) := by
  simp only [decode, h]
  rfl

theorem decode_chkEvictK {q : Request} (h : q.opsel = 0xB3#8) : decode q = .ok (.chkEvictK q.fields.key8) := by
  simp only [decode, h]
  rfl

theorem decode_chkSetTmo {q : Request} (h : q.opsel = 0xB4#8) : decode q = .ok (.chkSetTmo q.fields.timeout) := by
  simp only [decode, h]
  rfl

theorem decode_chkReset {q : Request} (h : q.opsel = 0xB6#8) : decode q = .ok .chkReset := by
  simp only [decode, h]
  rfl

theorem decode_chkPeek {q : Request} (h : q.opsel = 0xB7#8) :
    decode q = .ok (.chkPeek q.fields.keyed q.fields.key8) := by
  simp only [decode, h]
  rfl

/-! ### Sequences of operations (R21) -/

theorem execAll_cons_of_next {i : Instr} {s t : State} (h : exec i s = .next t) (is : List Instr) :
    execAll (i :: is) s = execAll is t := by
  rw [execAll, h]

theorem execAll_singleton_of_next {i : Instr} {s t : State} (h : exec i s = .next t) : execAll [i] s = .next t := by
  rw [execAll_cons_of_next h, execAll]

theorem execAll_append_of_next {is : List Instr} {s t : State} (h : execAll is s = .next t) (js : List Instr) :
    execAll (is ++ js) s = execAll js t := by
  induction is generalizing s with
  | nil =>
    cases h
    rfl
  | cons i is ih =>
    rw [execAll] at h
    rw [List.cons_append, execAll]
    cases hi : exec i s with
    | next u =>
      rw [hi] at h
      exact ih h
    | fault e => cases e
    | refused r =>
      rw [hi] at h
      cases h

/-! ### Operations with one case (R191, R196, R203) -/

theorem exec_chkSetTmo {s : State} {timeout : Nat} (h : timeout < 2 ^ s.cfg.tsW) :
    exec (.chkSetTmo timeout) s = .next ((s.setTimeout (some timeout)).respond .ok emptyOut) := by
  show execChkSetTmo timeout s = _
  rw [execChkSetTmo, timeOperand_of_lt h]

theorem exec_chkEvict2 (s : State) : exec .chkEvict2 s = .next ((s.setFix none).respond .ok emptyOut) := rfl

theorem exec_chkReset (s : State) : exec .chkReset s = .next (((s.setFix none).setKpend []).respond .ok emptyOut) := rfl

/-- Settles O42: the row of the decoder and the equation of the operation. -/
theorem setTimeout : Obligations.SetTimeout := ⟨fun _ => decode_chkSetTmo, fun _ _ => exec_chkSetTmo⟩

/-- Settles O45: the rows of the decoder and the equations of the two operations. -/
theorem evictAndReset : Obligations.EvictAndReset :=
  ⟨fun _ => decode_chkEvict2, fun _ => decode_chkReset, fun s => ⟨exec_chkEvict2 s, exec_chkReset s⟩⟩

/-! ### CHK.PUSH2 (R192 to R195) -/

/-- The length is tested first. -/
theorem exec_chkPush2_of_badLength {f : Bytes} (h : f.length ≠ chunkSize) (now : Nat) (s : State) :
    exec (.chkPush2 now f) s = .next (s.fail .errLength) :=
  if_pos h

section
variable {s : State} {f : Bytes} {now : Nat} (hlen : f.length = chunkSize)
include hlen

theorem exec_chkPush2_of_unconfigured (hfix : s.fix ≠ none) (htmo : s.timeoutMs = none) :
    exec (.chkPush2 now f) s = .next (s.fail .errUnconfigured) := by
  obtain ⟨hne, _⟩ | ⟨_, _, _, h⟩ | ⟨_, hset, _⟩ | ⟨_, hnone, _⟩ | ⟨_, _, _, _, _, hsome, _⟩ |
    ⟨_, _, _, _, _, hsome, _⟩ := execChkPush2_cases now f s
  · exact absurd hlen hne
  · exact h
  · exact absurd hset (not_or.2 ⟨hfix, not_not.2 htmo⟩)
  · exact absurd hnone hfix
  all_goals cases htmo.symm.trans hsome

section
variable (hnow : now < 2 ^ s.cfg.tsW) (hbound : capBinds s.cfg = true → fits s.cfg.bufCap f.length)
include hnow hbound

theorem exec_chkPush2_of_fix_none (hfix : s.fix = none) :
    exec (.chkPush2 now f) s = .next ((s.setFix (some { data := f, ts := now })).respond .okPending emptyOut) := by
  obtain ⟨hne, _⟩ | ⟨_, hheld, _⟩ | ⟨_, _, hover, _⟩ | ⟨_, _, _, h⟩ | ⟨_, _, _, _, hsome, _⟩ | ⟨_, _, _, _, hsome, _⟩ :=
    execChkPush2_cases now f s
  · exact absurd hlen hne
  · exact absurd hfix hheld
  · exact absurd hbound hover
  · rwa [timeOperand_of_lt hnow] at h
  all_goals cases hfix.symm.trans hsome

section
variable {held : FixBuffer} {timeout : Nat} (hfix : s.fix = some held) (htmo : s.timeoutMs = some timeout)
include hfix htmo

/-- With a fragment stored and TIMEOUT_MS written, the age decides. -/
theorem exec_chkPush2_of_held :
    (timeout < age s.cfg now held.ts ∧ exec (.chkPush2 now f) s =
      .next ((s.setFix (some { data := f, ts := now })).respond .okResync emptyOut)) ∨
    (age s.cfg now held.ts ≤ timeout ∧ exec (.chkPush2 now f) s =
      .next ((s.setFix none).respond .ok (.bytes (held.data ++ f)))) := by
  have hcases := execChkPush2_cases now f s
  rw [timeOperand_of_lt hnow] at hcases
  obtain ⟨hne, _⟩ | ⟨_, _, hnone, _⟩ | ⟨_, _, hover, _⟩ | ⟨_, hnone, _⟩ | ⟨_, _, held', limit, hheld, hlimit, hage, h⟩ |
    ⟨_, _, held', limit, hheld, hlimit, hage, h⟩ := hcases
  · exact absurd hlen hne
  · cases htmo.symm.trans hnone
  · exact absurd hbound hover
  · cases hfix.symm.trans hnone
  · cases hfix.symm.trans hheld
    cases htmo.symm.trans hlimit
    exact .inl ⟨hage, h⟩
  · cases hfix.symm.trans hheld
    cases htmo.symm.trans hlimit
    exact .inr ⟨hage, h⟩

theorem exec_chkPush2_of_stale (h : timeout < age s.cfg now held.ts) :
    exec (.chkPush2 now f) s = .next ((s.setFix (some { data := f, ts := now })).respond .okResync emptyOut) := by
  obtain ⟨_, hexec⟩ | ⟨hle, _⟩ := exec_chkPush2_of_held hlen hnow hbound hfix htmo
  · exact hexec
  · exact absurd hle (Nat.not_le.2 h)

theorem exec_chkPush2_of_inTime (h : age s.cfg now held.ts ≤ timeout) :
    exec (.chkPush2 now f) s = .next ((s.setFix none).respond .ok (.bytes (held.data ++ f))) := by
  obtain ⟨hlt, _⟩ | ⟨_, hexec⟩ := exec_chkPush2_of_held hlen hnow hbound hfix htmo
  · exact absurd h (Nat.not_le.2 hlt)
  · exact hexec

end

end

end

/-- Settles O43: a row of the table of R195 for each clause, the age in natural numbers. -/
theorem pushFixedFragment : Obligations.PushFixedFragment := by
  refine ⟨fun _ => decode_chkPush2, ?_⟩
  intro s now f hnow bound
  refine ⟨fun hlen => exec_chkPush2_of_badLength hlen now s,
    fun hlen hfix hbound => exec_chkPush2_of_fix_none hlen hnow hbound hfix,
    fun hlen hfix htmo => exec_chkPush2_of_unconfigured hlen hfix htmo, ?_⟩
  intro held timeout hlen hbound hfix hts htmo age'
  have hage : age s.cfg now held.ts = age' := age_eq hnow hts
  exact ⟨fun h => exec_chkPush2_of_stale hlen hnow hbound hfix htmo (hage ▸ h),
    fun h => exec_chkPush2_of_inTime hlen hnow hbound hfix htmo (hage ▸ h)⟩

/-- A fragment stored at time 0 is as old as the time is late. -/
theorem age_zero {c : Config} {now : Nat} (h : now < 2 ^ c.tsW) : age c now 0 = now := by
  rw [age_eq h (Nat.two_pow_pos _), if_pos (Nat.zero_le _), Nat.sub_zero]

/-- Settles O44: A is held from time 0, so the age of B is its time. -/
theorem reassemblyTimeout : Obligations.ReassemblyTimeout := by
  intro s timeout a b hfix htmo hwidth ha hb hbound
  have hfirst := exec_chkPush2_of_fix_none ha (Nat.two_pow_pos _) (by rwa [ha]) hfix
  have hboundb : capBinds s.cfg = true → fits s.cfg.bufCap b.length := by rwa [hb]
  constructor
  · rw [execAll_cons_of_next hfirst]
    exact execAll_singleton_of_next (exec_chkPush2_of_stale hb hwidth hboundb rfl htmo
      ((Nat.lt_succ_self timeout).trans_eq (age_zero hwidth).symm))
  · intro t ht
    have hlt : t < 2 ^ s.cfg.tsW := by omega
    rw [execAll_cons_of_next hfirst]
    exact execAll_singleton_of_next (exec_chkPush2_of_inTime (s := (s.setFix (some { data := a, ts := 0 })).respond _ _)
      hb hlt hboundb rfl htmo ((age_zero hlt).trans_le ht))

/-! ### KDET (R198) -/

/-- R198's requirement on every detection predicate. -/
theorem lengths_of_kdet {c : Config} {f : Bytes} (h : kdet c f = true) :
    c.khdrLen ≤ f.length ∧ c.ktypeOff < f.length ∧ c.kqidOff < f.length := by
  obtain ⟨hlong, _⟩ := Bool.and_eq_true_iff.1 h
  simpa [fragLongEnough] using hlong

/-- The byte at KQID_OFF, where it is there. -/
theorem getElem?_kqidOff {c : Config} {f : Bytes} (h : c.kqidOff < f.length) :
    f[c.kqidOff]? = some (fragQid c f) := by
  simp [fragQid, h]

/-- R78, R198: the header test, for every choice of its parameters. -/
theorem kdet_header_iff {c : Config} (hc : c.kdet = .header) (f : Bytes) :
    kdet c f = true ↔ c.khdrLen ≤ f.length ∧ c.ktypeOff < f.length ∧ f[0]? = some 0x00#8 ∧
      f[c.kmarkOff]? = some c.kmark ∧
      ∃ q : Byte, f[c.kqidOff]? = some q ∧ c.kqidLo.toNat ≤ q.toNat ∧ q.toNat ≤ c.kqidHi.toNat := by
  constructor
  · intro h
    obtain ⟨hhdr, htype, hqid⟩ := lengths_of_kdet h
    simp only [kdet, hc, Bool.and_eq_true, decide_eq_true_eq] at h
    obtain ⟨_, ⟨⟨hzero, hmark⟩, hlo⟩, hhi⟩ := h
    exact ⟨hhdr, htype, hzero, hmark, _, getElem?_kqidOff hqid, hlo, hhi⟩
  · rintro ⟨hhdr, htype, hzero, hmark, q, hq, hlo, hhi⟩
    obtain ⟨hqid, _⟩ := List.getElem?_eq_some_iff.1 hq
    obtain rfl : fragQid c f = q := Option.some.inj ((getElem?_kqidOff hqid).symm.trans hq)
    simp only [kdet, hc, fragLongEnough, Bool.and_eq_true, decide_eq_true_eq]
    exact ⟨⟨hhdr, Nat.max_lt.2 ⟨htype, hqid⟩⟩, ⟨⟨hzero, hmark⟩, hlo⟩, hhi⟩

/-- The configuration with R9's defaults for the keyed header, KDET and the limits. -/
def withDefaultHeader (c : Config) : Config :=
  { c with
    kdet := .header, khdrLen := 4, ktypeOff := 1, kmarkOff := 2, kqidOff := 3, kmark := 0x02#8, kqidLo := 0xE0#8,
    kqidHi := 0xE9#8, bufCap := none, kslots := none, kfrags := none }

/-- A fragment of the default form (R78). -/
def Headed (f : Bytes) : Prop :=
  ∃ (type q : Byte) (payload : Bytes), f = 0x00#8 :: type :: 0x02#8 :: q :: payload ∧ 0xE0 ≤ q.toNat ∧ q.toNat ≤ 0xE9

/-- R198 with R9's defaults accepts the default form and nothing else. -/
theorem kdet_withDefaultHeader_iff (c : Config) (f : Bytes) : kdet (withDefaultHeader c) f = true ↔ Headed f := by
  rw [kdet_header_iff rfl]
  constructor
  · rintro ⟨hlen, _, hzero, hmark, q, hq, hlo, hhi⟩
    match f, hlen with
    | _ :: type :: _ :: _ :: payload, _ =>
      cases hzero
      cases hmark
      cases hq
      exact ⟨type, q, payload, rfl, hlo, hhi⟩
  · rintro ⟨type, q, payload, rfl, hlo, hhi⟩
    exact ⟨Nat.le_add_left 4 _, Nat.succ_lt_succ (Nat.succ_pos _), rfl, rfl, q, rfl, hlo, hhi⟩

/-! ### CHK.PUSHK (R199, R200) -/

@[simp] theorem appendFragment_none (now : Nat) (f : Bytes) :
    appendFragment none now f = { frags := [f], ts := now } := rfl

@[simp] theorem appendFragment_some (e : PendingEntry) (now : Nat) (f : Bytes) :
    appendFragment (some e) now f = { frags := e.frags ++ [f], ts := e.ts } := rfl

/-- The entry of the fragment's query with the fragment appended. -/
def State.entryWith (s : State) (now : Nat) (f : Bytes) : PendingEntry :=
  appendFragment (kpendFind s.kpend (fragQid s.cfg f)) (timeOperand s.cfg now) f

theorem State.entryWith_of_none {s : State} {now : Nat} {f : Bytes} (h : kpendFind s.kpend (fragQid s.cfg f) = none)
    (hnow : now < 2 ^ s.cfg.tsW) : s.entryWith now f = { frags := [f], ts := now } := by
  rw [State.entryWith, h, timeOperand_of_lt hnow, appendFragment_none]

/-- A pending query keeps its time. -/
theorem State.entryWith_of_some {s : State} {f : Bytes} {e : PendingEntry}
    (h : kpendFind s.kpend (fragQid s.cfg f) = some e) (now : Nat) :
    s.entryWith now f = { frags := e.frags ++ [f], ts := e.ts } := by
  rw [State.entryWith, h, appendFragment_some]

section
variable {s : State} {f : Bytes} {now : Nat} (hfits : fits s.cfg.bufCap f.length)
include hfits

theorem exec_chkPushK_of_undetected (hdet : kdet s.cfg f = false) :
    exec (.chkPushK now f) s = .next (s.fail .errNotRecognised) := by
  obtain ⟨hover, _⟩ | ⟨_, _, h⟩ | ⟨_, hdet', _⟩ | ⟨_, hdet', _⟩ | ⟨_, hdet', _⟩ | ⟨_, hdet', _⟩ := execChkPushK_cases now f s
  · exact absurd hfits hover
  · exact h
  all_goals cases hdet.symm.trans hdet'

section
variable (hdet : kdet s.cfg f = true)
include hdet

/-- All that CHK.PUSHK can do with a fragment that it accepts. -/
theorem exec_chkPushK_of_detected :
    (¬ fits s.cfg.kfrags (s.entryWith now f).frags.length ∧ exec (.chkPushK now f) s = .next (s.fail .errCapacity)) ∨
    (fits s.cfg.kfrags (s.entryWith now f).frags.length ∧ fragType s.cfg f = finalMark ∧ exec (.chkPushK now f) s =
      .next ((s.setKpend (kpendRemove s.kpend (fragQid s.cfg f))).respond .ok (.completed
        { key := fragQid s.cfg f, complete := true, frags := (s.entryWith now f).frags, ts := (s.entryWith now f).ts }))) ∨
    (fragType s.cfg f ≠ finalMark ∧ kpendFind s.kpend (fragQid s.cfg f) = none ∧
      atCap s.cfg.kslots s.kpend.length = true ∧ exec (.chkPushK now f) s = .next (s.fail .errCapacity)) ∨
    (fits s.cfg.kfrags (s.entryWith now f).frags.length ∧ fragType s.cfg f ≠ finalMark ∧
      ¬ (kpendFind s.kpend (fragQid s.cfg f) = none ∧ atCap s.cfg.kslots s.kpend.length = true) ∧
      exec (.chkPushK now f) s =
        .next ((s.setKpend (kpendInsert s.kpend (fragQid s.cfg f) (s.entryWith now f))).respond .okPending emptyOut)) := by
  obtain ⟨hover, _⟩ | ⟨_, hundet, _⟩ | ⟨_, _, h⟩ | ⟨_, _, h⟩ | ⟨_, _, _, h⟩ | ⟨_, _, h⟩ := execChkPushK_cases now f s
  · exact absurd hfits hover
  · cases hdet.symm.trans hundet
  · exact .inl h
  · exact .inr (.inl h)
  · exact .inr (.inr (.inl h))
  · exact .inr (.inr (.inr h))

theorem exec_chkPushK_of_kfrags_over (hover : ¬ fits s.cfg.kfrags (s.entryWith now f).frags.length) :
    exec (.chkPushK now f) s = .next (s.fail .errCapacity) := by
  obtain ⟨_, h⟩ | ⟨hfrags, _⟩ | ⟨_, _, _, h⟩ | ⟨hfrags, _⟩ := exec_chkPushK_of_detected (now := now) hfits hdet
  · exact h
  · exact absurd hfrags hover
  · exact h
  · exact absurd hfrags hover

theorem exec_chkPushK_of_kslots_full (hfinal : fragType s.cfg f ≠ finalMark)
    (hnew : kpendFind s.kpend (fragQid s.cfg f) = none) (hfull : atCap s.cfg.kslots s.kpend.length = true) :
    exec (.chkPushK now f) s = .next (s.fail .errCapacity) := by
  obtain ⟨_, h⟩ | ⟨_, hmark, _⟩ | ⟨_, _, _, h⟩ | ⟨_, _, hroom, _⟩ := exec_chkPushK_of_detected (now := now) hfits hdet
  · exact h
  · exact absurd hmark hfinal
  · exact h
  · exact absurd ⟨hnew, hfull⟩ hroom

section
variable (hfrags : fits s.cfg.kfrags (s.entryWith now f).frags.length)
include hfrags

/-- R200: the completed record; a query that is not pending needs no slot for it. -/
theorem exec_chkPushK_of_final (hfinal : fragType s.cfg f = finalMark) :
    exec (.chkPushK now f) s = .next ((s.setKpend (kpendRemove s.kpend (fragQid s.cfg f))).respond .ok (.completed
      { key := fragQid s.cfg f, complete := true, frags := (s.entryWith now f).frags, ts := (s.entryWith now f).ts })) := by
  obtain ⟨hover, _⟩ | ⟨_, _, h⟩ | ⟨hother, _⟩ | ⟨_, hother, _⟩ := exec_chkPushK_of_detected (now := now) hfits hdet
  · exact absurd hfrags hover
  · exact h
  · exact absurd hfinal hother
  · exact absurd hfinal hother

theorem exec_chkPushK_of_stored (hfinal : fragType s.cfg f ≠ finalMark)
    (hslot : ¬ (kpendFind s.kpend (fragQid s.cfg f) = none ∧ atCap s.cfg.kslots s.kpend.length = true)) :
    exec (.chkPushK now f) s =
      .next ((s.setKpend (kpendInsert s.kpend (fragQid s.cfg f) (s.entryWith now f))).respond .okPending emptyOut) := by
  obtain ⟨hover, _⟩ | ⟨_, hmark, _⟩ | ⟨_, hnew, hfull, _⟩ | ⟨_, _, _, h⟩ :=
    exec_chkPushK_of_detected (now := now) hfits hdet
  · exact absurd hfrags hover
  · exact absurd hmark hfinal
  · exact absurd ⟨hnew, hfull⟩ hslot
  · exact h

end

end

end

/-- No limit of R9 is set. -/
structure Unlimited (c : Config) : Prop where
  bufCap : c.bufCap = none
  kslots : c.kslots = none
  kfrags : c.kfrags = none

section
variable {c : Config} (hun : Unlimited c) (n : Nat)
include hun

theorem Unlimited.fits_bufCap : fits c.bufCap n := hun.bufCap ▸ fits_none n

theorem Unlimited.fits_kfrags : fits c.kfrags n := hun.kfrags ▸ fits_none n

theorem Unlimited.atCap_kslots : ¬ atCap c.kslots n = true := by
  rw [hun.kslots]
  exact Bool.false_ne_true

end

/-- Without limits an accepted fragment is no failure (R226). -/
theorem Unlimited.status_of_detected {s : State} {f : Bytes} {now : Nat} (hun : Unlimited s.cfg)
    (hdet : kdet s.cfg f = true) :
    ∃ t : State, exec (.chkPushK now f) s = .next t ∧ isFailure t.status = false := by
  by_cases hfinal : fragType s.cfg f = finalMark
  · exact ⟨_, exec_chkPushK_of_final (hun.fits_bufCap _) hdet (hun.fits_kfrags _) hfinal,
      (Status.isFailure_code _).2 (.inl rfl)⟩
  · exact ⟨_, exec_chkPushK_of_stored (hun.fits_bufCap _) hdet (hun.fits_kfrags _) hfinal
      fun h => hun.atCap_kslots _ h.2,
      (Status.isFailure_code _).2 (.inr (.inl rfl))⟩

/-- Settles O46: the test of KDET comes after BUF_CAP's, and KDET is the header test with the length requirement. -/
theorem keyedDetection : Obligations.KeyedDetection := by
  refine ⟨fun s now f hfits => exec_chkPushK_of_undetected hfits, fun c f => lengths_of_kdet,
    fun c f hc => kdet_header_iff hc f, ?_⟩
  intro s now f hcfg headed
  have hdet : kdet s.cfg f = true ↔ headed := by
    rw [hcfg]
    exact kdet_withDefaultHeader_iff s.cfg f
  have hun : Unlimited s.cfg := by
    rw [hcfg]
    exact ⟨rfl, rfl, rfl⟩
  by_cases h : headed
  · obtain ⟨t, hexec, hok⟩ := hun.status_of_detected (now := now) (hdet.2 h)
    exact ⟨t, hexec, fun _ => hok, absurd h⟩
  · have hundet : kdet s.cfg f = false := by rwa [← Bool.not_eq_true, hdet]
    exact ⟨_, exec_chkPushK_of_undetected (hun.fits_bufCap _) hundet, fun h' => absurd h' h, fun _ => rfl⟩

/-- Settles O47: the entry is written to the map. -/
theorem pushKeyedFragment : Obligations.PushKeyedFragment := by
  refine ⟨fun _ => decode_chkPushK, ?_⟩
  intro s now f hnow hdet hfits hfinal q e hfrags hslot
  have he : s.entryWith now f = e := by rw [State.entryWith, timeOperand_of_lt hnow]; rfl
  rw [← he] at hfrags ⊢
  refine ⟨_, exec_chkPushK_of_stored hfits hdet hfrags hfinal ?_, kpendFind_insert s.kpend q _⟩
  rintro ⟨hnew, hfull⟩
  obtain ⟨n, hn, hle⟩ := (atCap_eq_true _ _).1 hfull
  exact absurd hle (Nat.not_le.2 (hslot hnew n hn))

/-- Settles O48: the entry is answered and removed from the map. -/
theorem finalKeyedFragmentCompletes : Obligations.FinalKeyedFragmentCompletes := by
  intro s now f hnow hdet hfits hfinal q e hfrags
  have he : s.entryWith now f = e := by rw [State.entryWith, timeOperand_of_lt hnow]; rfl
  rw [← he] at hfrags ⊢
  exact ⟨_, exec_chkPushK_of_final hfits hdet hfrags hfinal, kpendFind_remove s.kpend q⟩

/-- Settles O49: an entry grows by the fragment, and a new key needs a slot. -/
theorem keyedLimits : Obligations.KeyedLimits := by
  intro s now f n hdet hfits q held
  refine ⟨fun hn hle => exec_chkPushK_of_kfrags_over hfits hdet ?_,
    fun hn hle hnew hfinal => exec_chkPushK_of_kslots_full hfits hdet hfinal hnew ((atCap_eq_true _ _).2 ⟨n, hn, hle⟩)⟩
  have hlen : (s.entryWith now f).frags.length = held + 1 := by
    unfold State.entryWith held
    cases kpendFind s.kpend (fragQid s.cfg f) with
    | none => rfl
    | some old => exact List.length_append
  exact not_fits_of_lt hn (by omega)

/-- Settles O50: the new fragment is appended to the entry that is there. -/
theorem keyedTimeIsUsedOnceOnly : Obligations.KeyedTimeIsUsedOnceOnly := by
  intro s now now' f hpend
  obtain ⟨e, he⟩ := Option.ne_none_iff_exists'.1 hpend
  simp only [exec, execChkPushK, he, appendFragment_some]

/-! ### Runs of one query (R205) -/

section
variable {s u : State} {q : Byte} {e : PendingEntry}

/-- `u` answers OK_PENDING and is the state `s` with this entry for the query, whatever it had before (R199). -/
def Pends (s : State) (q : Byte) (e : PendingEntry) (u : State) : Prop :=
  ∃ m, u = (s.setKpend m).respond .okPending emptyOut ∧
    ∀ q', kpendFind m q' = if q' = q then some e else kpendFind s.kpend q'

theorem Pends.cfg_eq (h : Pends s q e u) : u.cfg = s.cfg := by
  obtain ⟨m, rfl, _⟩ := h
  rfl

theorem Pends.find (h : Pends s q e u) (q' : Byte) :
    kpendFind u.kpend q' = if q' = q then some e else kpendFind s.kpend q' := by
  obtain ⟨m, rfl, hm⟩ := h
  exact hm q'

theorem Pends.find_self (h : Pends s q e u) : kpendFind u.kpend q = some e := by
  rw [h.find, if_pos rfl]

/-- What is pending for the query before does not matter. -/
theorem Pends.trans {v : State} {e' : PendingEntry} (h : Pends s q e u) (h' : Pends u q e' v) : Pends s q e' v := by
  have hfind := h.find
  obtain ⟨m, rfl, _⟩ := h
  obtain ⟨m', rfl, hm'⟩ := h'
  refine ⟨m', rfl, fun q' => ?_⟩
  rw [hm', hfind]
  split <;> rfl

section
variable {now : Nat} {f : Bytes} (hun : Unlimited s.cfg) (hdet : kdet s.cfg f = true) (hqid : fragQid s.cfg f = q)
include hun hdet hqid

theorem Unlimited.exec_pends (hfinal : fragType s.cfg f ≠ finalMark) :
    ∃ v, exec (.chkPushK now f) s = .next v ∧ Pends s q (s.entryWith now f) v := by
  subst hqid
  exact ⟨_, exec_chkPushK_of_stored (hun.fits_bufCap _) hdet (hun.fits_kfrags _) hfinal fun h => hun.atCap_kslots _ h.2,
    _, rfl, kpendFind_insert s.kpend _ _⟩

theorem Unlimited.exec_completes (he : kpendFind s.kpend q = some e) (hfinal : fragType s.cfg f = finalMark) :
    exec (.chkPushK now f) s = .next ((s.setKpend (kpendRemove s.kpend q)).respond .ok
      (.completed { key := q, complete := true, frags := e.frags ++ [f], ts := e.ts })) := by
  subst hqid
  rw [exec_chkPushK_of_final (hun.fits_bufCap _) hdet (hun.fits_kfrags _) hfinal, State.entryWith_of_some he]

end

/-- Non-final fragments of a pending query are all appended. -/
theorem Pends.execAll_pushes (hu : Pends s q e u) (hun : Unlimited s.cfg) {middle : List (Nat × Bytes)}
    (hmiddle : ∀ p ∈ middle, kdet s.cfg p.2 = true ∧ fragQid s.cfg p.2 = q ∧ fragType s.cfg p.2 ≠ finalMark) :
    ∃ v, execAll (middle.map fun p => .chkPushK p.1 p.2) u = .next v ∧
      Pends s q { frags := e.frags ++ middle.map Prod.snd, ts := e.ts } v := by
  induction middle generalizing u e with
  | nil => exact ⟨u, rfl, by simpa using hu⟩
  | cons p middle ih =>
    obtain ⟨⟨hdet, hqid, hfinal⟩, hrest⟩ := List.forall_mem_cons.1 hmiddle
    rw [← hu.cfg_eq] at hun hdet hqid hfinal
    obtain ⟨u', hexec, hu'⟩ := hun.exec_pends (now := p.1) hdet hqid hfinal
    rw [State.entryWith_of_some (hqid ▸ hu.find_self)] at hu'
    obtain ⟨v, hrun, hv⟩ := ih (hu.trans hu') hrest
    refine ⟨v, (execAll_cons_of_next hexec _).trans hrun, ?_⟩
    simpa using hv

end

/-- Settles O51: the run of non-final fragments, and then the final one on what it leaves pending. -/
theorem keyedQueryRunsToCompletion : Obligations.KeyedQueryRunsToCompletion := by
  intro s q now₀ now₁ first final middle hidle hbuf hslots hfrags hnow hall hnonfinal hfinal
  have hun : Unlimited s.cfg := ⟨hbuf, hslots, hfrags⟩
  obtain ⟨⟨hdet₀, hqid₀⟩, ⟨hdet₁, hqid₁⟩, hrest⟩ :
    (kdet s.cfg first = true ∧ fragQid s.cfg first = q) ∧ (kdet s.cfg final = true ∧ fragQid s.cfg final = q) ∧
      ∀ f ∈ middle.map Prod.snd, kdet s.cfg f = true ∧ fragQid s.cfg f = q := by
    simpa only [List.forall_mem_cons] using hall
  obtain ⟨hfirst, hmiddle⟩ := List.forall_mem_cons.1 hnonfinal
  obtain ⟨u, hexec, hu⟩ := hun.exec_pends (now := now₀) hdet₀ hqid₀ hfirst
  rw [State.entryWith_of_none (hqid₀ ▸ hidle) hnow] at hu
  obtain ⟨v, hpushes, hv⟩ := hu.execAll_pushes hun (middle := middle) fun p hp =>
    have ⟨hdet, hqid⟩ := hrest _ (List.mem_map_of_mem hp)
    ⟨hdet, hqid, hmiddle _ (List.mem_map_of_mem hp)⟩
  have hrun := (execAll_cons_of_next hexec _).trans hpushes
  rw [← hv.cfg_eq] at hun hdet₁ hqid₁ hfinal
  have hlast := execAll_singleton_of_next (hun.exec_completes (now := now₁) hdet₁ hqid₁ hv.find_self hfinal)
  have hfind (q' : Byte) : kpendFind (kpendRemove v.kpend q) q' = if q' = q then none else kpendFind s.kpend q' := by
    rw [kpendFind_remove, hv.find]
    split <;> rfl
  obtain ⟨m, rfl, _⟩ := hv
  exact ⟨⟨m, hrun⟩, _, (execAll_append_of_next hrun _).trans hlast, hfind⟩

/-! ### CHK.EVICTK and CHK.PEEK (R201, R202) -/

/-- Settles O52: the removal of a key reads as the statement says. -/
theorem evictKey : Obligations.EvictKey :=
  ⟨fun _ => decode_chkEvictK, fun s key =>
    ⟨_, rfl, kpendFind_remove s.kpend key, kpendRemove_of_find_none⟩⟩

theorem exec_chkPeek (keyed : Bool) (key : Byte) (s : State) :
    exec (.chkPeek keyed key) s = .next (s.respond .ok (peekOut s keyed key)) := rfl

theorem peekOut_fix_none {s : State} (h : s.fix = none) (key : Byte) : peekOut s false key = .peek false 0 0 := by
  simp only [peekOut, h, Bool.false_eq_true, if_false]

theorem peekOut_fix_some {s : State} {held : FixBuffer} (h : s.fix = some held) (key : Byte) :
    peekOut s false key = .peek true held.ts 1 := by
  simp only [peekOut, h, Bool.false_eq_true, if_false]

theorem peekOut_key_none {s : State} {key : Byte} (h : kpendFind s.kpend key = none) :
    peekOut s true key = .peek false 0 0 := by
  simp only [peekOut, h, if_true]

theorem peekOut_key_some {s : State} {key : Byte} {e : PendingEntry} (h : kpendFind s.kpend key = some e) :
    peekOut s true key = .peek true e.ts e.frags.length := by
  simp only [peekOut, h, if_true]

/-- Settles O53: one answer for each of the four cases. -/
theorem peekReportsWhatIsPending : Obligations.PeekReportsWhatIsPending := by
  refine ⟨fun _ => decode_chkPeek, fun s key => ?_⟩
  simp only [exec_chkPeek]
  exact ⟨fun h => by rw [peekOut_fix_none h]; rfl, fun held h => by rw [peekOut_fix_some h]; rfl,
    fun h => by rw [peekOut_key_none h]; rfl, fun e h => by rw [peekOut_key_some h]; rfl⟩

end Sys2Proof.Machine
end

section
/-!
SUPPORT. QRD.DECODE: the row of the decoder, the stages on whole fragments, and the answer each frame gives; and the settled
statements about it.
-/

namespace Sys2Proof.Machine

/-! ### The selector (R62) -/

theorem decode_qrdDecode {q : Request} (h : q.opsel = 0xB5#8) :
    decode q = .ok (.qrdDecode (if q.fields.cs = some false then false else true) q.fields.decrypt q.fields.keyBytes
      q.inputList) := by
  simp only [decode, h, ← defaultTrue_eq_ite]
  rfl

/-! ### The stages (R204) -/

section
variable {c : Config} {parts : List (Bytes × Bytes)} (hparts : ∀ p ∈ parts, p.1.length = c.khdrLen) {cs : Bool}
include hparts

theorem queryFrame_of_cobsDecode_error {e : Status} (h : cobsDecode c cs (parts.flatMap Prod.snd) = .error e)
    (decrypt : Bool) (key : Bytes) : queryFrame c cs decrypt key (parts.map fun p => p.1 ++ p.2) = .error e := by
  simp only [queryFrame, joinPayloads_parts c parts hparts, h]

section
variable {frame : Bytes} (h : cobsDecode c cs (parts.flatMap Prod.snd) = .ok frame) (key : Bytes)
include h

theorem queryFrame_of_cobsDecode_ok : queryFrame c cs false key (parts.map fun p => p.1 ++ p.2) = .ok frame := by
  simp only [queryFrame, joinPayloads_parts c parts hparts, h, Bool.false_eq_true, if_false]

theorem queryFrame_decrypt_of_cobsDecode_ok :
    queryFrame c cs true key (parts.map fun p => p.1 ++ p.2) = decryptBuffer c key frame := by
  simp only [queryFrame, joinPayloads_parts c parts hparts, h, if_true]

end

end

theorem queryFrame_of_short {c : Config} {fragments : List Bytes} (h : ∃ f ∈ fragments, f.length < c.khdrLen)
    (cs decrypt : Bool) (key : Bytes) : queryFrame c cs decrypt key fragments = .error .errNotRecognised := by
  simp only [queryFrame, joinPayloads_short c fragments h]

/-! ### The answer (R204) -/

theorem clampLevel_toNat (b : Byte) : (clampLevel b).toNat = min b.toNat 100 := by
  simp only [clampLevel, levelMax, BitVec.toNat_ofNat]
  omega

theorem clampLevel_eq_ite (b : Byte) : clampLevel b = if b.toNat ≤ 100 then b else 100#8 := by
  apply BitVec.eq_of_toNat_eq
  rw [clampLevel_toNat]
  split
  · omega
  · exact min_eq_right (by omega)

section
variable {s : State} {cs decrypt : Bool} {key : Bytes} {fragments : List Bytes}

theorem exec_qrdDecode_of_error {cause : Status} (h : queryFrame s.cfg cs decrypt key fragments = .error cause) :
    exec (.qrdDecode cs decrypt key fragments) s = .next (s.failWithCause .errNoReading cause) :=
  execQrdDecode_of_error h

theorem exec_qrdDecode_of_nil (h : queryFrame s.cfg cs decrypt key fragments = .ok []) :
    exec (.qrdDecode cs decrypt key fragments) s = .next (s.failWithCause .errNoReading .errShort) := by
  simp only [exec, execQrdDecode, h]

section
variable {b : Byte} {rest : Bytes} (h : queryFrame s.cfg cs decrypt key fragments = .ok (b :: rest))
include h

/-- A frame with a first byte is read, unless the capacity test of log 16 refuses the list. -/
theorem exec_qrdDecode_of_cons :
    exec (.qrdDecode cs decrypt key fragments) s =
      .next (s.withinInputCap fragments.flatten.length (s.respond .ok (.u8 (clampLevel b)))) := by
  simp only [exec, execQrdDecode, h]

theorem exec_qrdDecode_of_bound (hbound : capBinds s.cfg = true → fits s.cfg.bufCap fragments.flatten.length) :
    exec (.qrdDecode cs decrypt key fragments) s = .next (s.respond .ok (.u8 (clampLevel b))) := by
  rw [exec_qrdDecode_of_cons h, State.withinInputCap_of_fits hbound]

theorem exec_qrdDecode_of_not_bound (hover : ¬ (capBinds s.cfg = true → fits s.cfg.bufCap fragments.flatten.length)) :
    exec (.qrdDecode cs decrypt key fragments) s = .next (s.fail .errCapacity) := by
  obtain ⟨hbinds, hlong⟩ := Classical.not_imp.1 hover
  rw [exec_qrdDecode_of_cons h, State.withinInputCap_of_over hbinds hlong]

end

/-- The outcome is the level of the frame the stages give: ERR_SHORT for an empty one, ERR_CAPACITY where the list is not
`bound`, or the first byte clamped. -/
def ReadsLevel (s : State) (bound : Prop) (r : Host.Outcome State Fault Refusal) (frame : Bytes) : Prop :=
  (frame = [] → r = .next { s with status := 0x88#8, out := .bytes [0x82#8] }) ∧
  ∀ b rest, frame = b :: rest →
    (bound → ∃ v : Byte, v.toNat = min b.toNat 100 ∧ r = .next { s with status := 0x00#8, out := .u8 v }) ∧
    (¬ bound → r = .next { s with status := 0x87#8, out := .bytes [] })

theorem exec_qrdDecode_readsLevel {frame : Bytes} (h : queryFrame s.cfg cs decrypt key fragments = .ok frame) :
    ReadsLevel s (capBinds s.cfg = true → fits s.cfg.bufCap fragments.flatten.length)
      (exec (.qrdDecode cs decrypt key fragments) s) frame := by
  constructor
  · rintro rfl
    exact exec_qrdDecode_of_nil h
  · rintro b rest rfl
    exact ⟨fun hbound => ⟨clampLevel b, clampLevel_toNat b, exec_qrdDecode_of_bound h hbound⟩,
      exec_qrdDecode_of_not_bound h⟩

end

theorem exec_teaDecBuf_of_ok {s : State} {key data plain : Bytes} (h : decryptBuffer s.cfg key data = .ok plain) :
    exec (.teaDecBuf key data) s = .next (s.respond .ok (.bytes plain)) := by
  rw [exec_teaDecBuf, h, State.finish_ok]

theorem exec_teaDecBuf_of_error {s : State} {key data : Bytes} {e : Status} (h : decryptBuffer s.cfg key data = .error e) :
    exec (.teaDecBuf key data) s = .next (s.fail e) := by
  rw [exec_teaDecBuf, h, State.finish_error]

/-- The code of a failure is not that of OK (R226). -/
theorem Status.code_ne_ok {e : Status} (h : isFailure e.code = true) : e.code ≠ 0x00#8 := by
  intro hok
  rw [hok] at h
  cases h

/-- Settles O54: the frame is that of the stages, and each way a stage can end gives its own answer. -/
theorem queryDecodeChainsItsStages : Obligations.QueryDecodeChainsItsStages := by
  refine ⟨fun _ => decode_qrdDecode,
    fun s cs decrypt key fragments hshort => exec_qrdDecode_of_error (queryFrame_of_short hshort cs decrypt key), ?_⟩
  intro s cs decrypt key parts hparts request bound noReading level
  have hfail {e : Status} (h : queryFrame s.cfg cs decrypt key (parts.map fun p => p.1 ++ p.2) = .error e) :
      e.code ≠ 0x00#8 ∧ noReading e.code :=
    ⟨Status.code_ne_ok (queryFrame_error h).1, exec_qrdDecode_of_error h⟩
  cases hcobs : cobsDecode s.cfg cs (parts.flatMap Prod.snd) with
  | error e =>
    obtain ⟨hne, hcause⟩ := hfail (queryFrame_of_cobsDecode_error hparts hcobs decrypt key)
    exact ⟨_, exec_cobsDec_of_error hcobs, fun _ => hcause, fun hok => absurd hok hne⟩
  | ok frame =>
    refine ⟨_, exec_cobsDec_of_ok hcobs, fun hne => absurd rfl hne, fun _ => ⟨frame, rfl, ?plain, ?decrypted⟩⟩
    case plain =>
      rintro rfl
      exact exec_qrdDecode_readsLevel (queryFrame_of_cobsDecode_ok hparts hcobs key)
    case decrypted =>
      rintro rfl
      have hframe := queryFrame_decrypt_of_cobsDecode_ok hparts hcobs key
      cases htea : decryptBuffer s.cfg key frame with
      | error e =>
        obtain ⟨hne, hcause⟩ := hfail (hframe.trans htea)
        exact ⟨_, exec_teaDecBuf_of_error htea, fun _ => hcause, fun hok => absurd hok hne⟩
      | ok plain =>
        exact ⟨_, exec_teaDecBuf_of_ok htea, fun hne => absurd rfl hne,
          fun _ => ⟨plain, rfl, exec_qrdDecode_readsLevel (hframe.trans htea)⟩⟩

/-- Settles O55: the joined payloads are a stuffed stream, which unstuffs to a frame that passes the check. -/
theorem queryDecodeReadsAFragmentedFrame : Obligations.QueryDecodeReadsAFragmentedFrame := by
  intro s cs level rest key leading gs parts hlegal hplain hparts hbody hin hout hbound
  have hin' : fits s.cfg.bufCap (List.replicate leading 0x00#8 ++ streamOf gs ++ [0x00#8] ++ []).length := by
    simpa [Nat.add_assoc] using hin
  have hframe : plainOf gs = cobsBuffer s.cfg cs (level :: rest) := hplain.trans (cobsBuffer_eq_append ..).symm
  have hcobs : cobsDecode s.cfg cs (parts.flatMap Prod.snd) = .ok (level :: rest) := by
    rw [hbody, ← List.append_nil (_ ++ [0x00#8]), cobsDecode_stream hlegal (.inr rfl) hin' hout, hframe,
      checkFrame_cobsBuffer]
  rw [exec_qrdDecode_of_bound (queryFrame_of_cobsDecode_ok hparts hcobs key) hbound, clampLevel_eq_ite]
  rfl

end Sys2Proof.Machine
end

section
/-!
SUPPORT. How every operation ends, said once for all 25: a success, a failure, or ERR_NO_READING with its cause, each with a
STATUS of the tables of R225 and R226; and the settled statements about failures and STATUS codes.
-/

namespace Sys2Proof.Machine

/-! ### The latches are written and never read (R26) -/

/-- No operation reads STATUS or OUT, and each overwrites both: what an earlier response left in them is not seen. -/
theorem exec_respond (i : Instr) (s : State) (st : Status) (o : Out) : exec i (s.respond st o) = exec i s := by
  cases i <;> rfl

/-! ### The three ways an operation ends (R14, R221) -/

/-- How an operation from `s` ends, with a STATUS of `codes`: in a success, whatever it updates; or in `fail` or
`fail … with cause` of R14, from `s` itself. -/
inductive EndsIn (s : State) (codes : List Byte) : Host.Outcome State Fault Refusal → Prop where
  | success (u : State) (st : Status) (o : Out) (hok : isFailure st.code = false) (hmem : st.code ∈ codes) :
      EndsIn s codes (.next (u.respond st o))
  | failure (e : Status) (he : e ≠ .errNoReading) (hmem : e.code ∈ codes) : EndsIn s codes (.next (s.fail e))
  | noReading (cause : Status) (hcause : isFailure cause.code = true) (hmem : Status.errNoReading.code ∈ codes) :
      EndsIn s codes (.next (s.failWithCause .errNoReading cause))

theorem endsIn_ok (s u : State) (o : Out) : EndsIn s [0x00] (.next (u.respond .ok o)) :=
  .success u .ok o rfl (by decide)

/-- An operation that fails for one condition alone, and otherwise answers. -/
theorem endsIn_ite {s : State} {e : Status} (he : e ≠ .errNoReading) {p : Prop} [Decidable p] (o : Out) :
    EndsIn s [0x00, e.code] (if p then .next (s.fail e) else .next (s.respond .ok o)) := by
  split
  · exact .failure e he (List.mem_cons_of_mem _ (List.mem_singleton_self _))
  · exact .success s .ok o rfl (List.mem_cons_self ..)

theorem endsIn_finish {s : State} {codes : List Byte} {r : Except Status Bytes} (hok : Status.ok.code ∈ codes)
    (herr : ∀ e, r = .error e → e ≠ .errNoReading ∧ e.code ∈ codes) : EndsIn s codes (.next (s.finish r)) := by
  cases r with
  | ok b => exact .success s .ok _ rfl hok
  | error e =>
    obtain ⟨he, hmem⟩ := herr e rfl
    exact .failure e he hmem

/-- Log 16: ERR_CAPACITY is listed for the three operations where BUF_CAP binds them, so wherever its test refuses. -/
theorem capacity_mem_capStatus {c : Config} {n : Nat} (h : ¬ (capBinds c = true → fits c.bufCap n)) :
    Status.errCapacity.code ∈ capStatus c := by
  obtain ⟨hbinds, _⟩ := Classical.not_imp.1 h
  rw [capStatus, if_pos hbinds]
  decide

/-! ### Each operation with more than one STATUS (R225) -/

section
variable (s : State)

theorem endsIn_cmdSwitch (cmdId : U16) (tableId : Byte) (on : Bool) (ids : Bytes) :
    EndsIn s ([0x00, 0x85] ++ capStatus s.cfg) (execCmdSwitch cmdId tableId on ids s) := by
  obtain ⟨_, h⟩ | ⟨hover, h⟩ | ⟨_, h⟩ := execCmdSwitch_cases cmdId tableId on ids s
  · exact h ▸ .failure _ (by decide) (List.mem_append_left _ (by decide))
  · exact h ▸ .failure _ (by decide) (List.mem_append_right _ (capacity_mem_capStatus hover))
  · exact h ▸ .success _ _ _ rfl (List.mem_append_left _ (by decide))

theorem endsIn_cmdRgb (cmdId : U16) (tableId deviceId mode r g b autoOff onInt offInt : Byte) (interval : U16) :
    EndsIn s [0x00, 0x85] (exec (.cmdRgb cmdId tableId deviceId mode r g b autoOff onInt offInt interval) s) := by
  cases h : rgbPayload mode r g b autoOff onInt offInt interval with
  | some p => exact exec_cmdRgb_of_some cmdId tableId deviceId s h ▸ .success _ .ok _ rfl (by decide)
  | none => exact exec_cmdRgb_of_none cmdId tableId deviceId s h ▸ .failure _ (by decide) (by decide)

theorem endsIn_cobsEnc (pre cs : Bool) (payload : Bytes) :
    EndsIn s [0x00, 0x87] (execCobsEnc pre cs payload s) := by
  refine endsIn_finish (by decide) fun e he => ?_
  obtain ⟨rfl, _⟩ := cobsEncode_error he
  decide

theorem endsIn_cobsDec (cs : Bool) (stuffed : Bytes) :
    EndsIn s [0x00, 0x81, 0x82, 0x83, 0x84, 0x87] (execCobsDec cs stuffed s) := by
  refine endsIn_finish (by decide) fun e he => ?_
  obtain rfl | rfl | ⟨rfl, _⟩ | ⟨_, rfl | rfl⟩ := cobsDecode_error he
  all_goals decide

theorem endsIn_teaDecBuf (key data : Bytes) : EndsIn s [0x00, 0x87, 0x89] (execTeaDecBuf key data s) := by
  refine endsIn_finish (by decide) fun e he => ?_
  obtain rfl | ⟨rfl, _⟩ := decryptBuffer_error he
  all_goals decide

theorem endsIn_chkPush2 (now : Nat) (f : Bytes) :
    EndsIn s ([0x00, 0x01, 0x02, 0x80, 0x8A] ++ capStatus s.cfg) (execChkPush2 now f s) := by
  obtain ⟨_, h⟩ | ⟨_, _, _, h⟩ | ⟨_, _, hover, h⟩ | ⟨_, _, _, h⟩ | ⟨_, _, _, _, _, _, _, h⟩ | ⟨_, _, _, _, _, _, _, h⟩ :=
    execChkPush2_cases now f s
  · exact h ▸ .failure _ (by decide) (List.mem_append_left _ (by decide))
  · exact h ▸ .failure _ (by decide) (List.mem_append_left _ (by decide))
  · exact h ▸ .failure _ (by decide) (List.mem_append_right _ (capacity_mem_capStatus hover))
  all_goals exact h ▸ .success _ _ _ rfl (List.mem_append_left _ (by decide))

theorem endsIn_chkPushK (now : Nat) (f : Bytes) : EndsIn s [0x00, 0x01, 0x86, 0x87] (execChkPushK now f s) := by
  obtain ⟨_, h⟩ | ⟨_, _, h⟩ | ⟨_, _, _, h⟩ | ⟨_, _, _, _, h⟩ | ⟨_, _, _, _, _, _, h⟩ | ⟨_, _, _, _, _, h⟩ :=
    execChkPushK_cases now f s
  · exact h ▸ .failure _ (by decide) (by decide)
  · exact h ▸ .failure _ (by decide) (by decide)
  · exact h ▸ .failure _ (by decide) (by decide)
  · exact h ▸ .success _ _ _ rfl (by decide)
  · exact h ▸ .failure _ (by decide) (by decide)
  · exact h ▸ .success _ _ _ rfl (by decide)

/-- R204: the cause of ERR_NO_READING is the failure of a stage, or ERR_SHORT for an empty frame. -/
theorem endsIn_qrdDecode (cs decrypt : Bool) (key : Bytes) (fragments : List Bytes) :
    EndsIn s ([0x00, 0x88] ++ capStatus s.cfg) (execQrdDecode cs decrypt key fragments s) := by
  obtain ⟨_, herr, h⟩ | ⟨_, h⟩ | ⟨_, _, _, hover, h⟩ | ⟨_, _, _, _, h⟩ :=
    execQrdDecode_cases cs decrypt key fragments s
  · obtain ⟨hcause, _⟩ := queryFrame_error herr
    exact h ▸ .noReading _ hcause (List.mem_append_left _ (by decide))
  · exact h ▸ .noReading _ rfl (List.mem_append_left _ (by decide))
  · exact h ▸ .failure _ (by decide) (List.mem_append_right _ (capacity_mem_capStatus hover))
  · exact h ▸ .success _ _ _ rfl (List.mem_append_left _ (by decide))

end

/-- R225, R226: every operation ends in one of the three ways, with a STATUS listed for it. -/
theorem exec_endsIn (i : Instr) (s : State) : EndsIn s (possibleStatus s.cfg i) (exec i s) := by
  cases i with
  | cmdGetDev | cmdGetMeta | cmdMove | cmdGenie | cmdDim | cmdHvac | teaEnc | teaDec | chkEvict2 | chkEvictK
  | chkSetTmo | chkReset | chkPeek => exact endsIn_ok ..
  | csum8 | stsRelay | stsDim | stsRgb => exact endsIn_ite (e := .errCapacity) (by decide) _
  | cmdSwitch => exact endsIn_cmdSwitch ..
  | cmdRgb => exact endsIn_cmdRgb ..
  | cobsEnc => exact endsIn_cobsEnc ..
  | cobsDec => exact endsIn_cobsDec ..
  | teaDecBuf => exact endsIn_teaDecBuf ..
  | chkPush2 => exact endsIn_chkPush2 ..
  | chkPushK => exact endsIn_chkPushK ..
  | qrdDecode => exact endsIn_qrdDecode ..

/-! ### What the three ways have in common -/

theorem EndsIn.exists_next {s : State} {codes : List Byte} {r : Host.Outcome State Fault Refusal}
    (h : EndsIn s codes r) : ∃ t, r = .next t ∧ t.status ∈ codes := by
  cases h with
  | success _ _ _ _ hmem => exact ⟨_, rfl, hmem⟩
  | failure _ _ hmem => exact ⟨_, rfl, hmem⟩
  | noReading _ _ hmem => exact ⟨_, rfl, hmem⟩

/-- R14: an end with a failing STATUS is a `fail` from `s`, with the empty OUT or with one cause byte. -/
theorem EndsIn.fail_of_isFailure {s t : State} {codes : List Byte} (h : EndsIn s codes (.next t))
    (hfail : isFailure t.status = true) :
    (∃ e, e ≠ .errNoReading ∧ t = s.fail e) ∨
    ∃ cause, isFailure cause.code = true ∧ t = s.failWithCause .errNoReading cause := by
  cases h with
  | success _ _ _ hok _ => cases hok.symm.trans hfail
  | failure e he _ => exact .inl ⟨e, he, rfl⟩
  | noReading cause hcause _ => exact .inr ⟨cause, hcause, rfl⟩

/-- Settles O12: either failure writes the latches alone, and no operation reads them. -/
theorem failureChangesNothing : Obligations.FailureChangesNothing := by
  intro i s t hexec hfail
  obtain ⟨e, he, rfl⟩ | ⟨cause, hcause, rfl⟩ := (hexec ▸ exec_endsIn i s).fail_of_isFailure hfail
  · exact ⟨rfl, fun _ => rfl, fun hcode => absurd (Status.code_injective e .errNoReading hcode) he,
      fun j => exec_respond j s e emptyOut⟩
  · exact ⟨rfl, fun hne => absurd rfl hne, fun _ => ⟨cause.code, rfl, hcause⟩,
      fun j => exec_respond j s .errNoReading (.bytes [cause.code])⟩

/-- Settles O14: every operation ends in a response with a listed STATUS. -/
theorem everyOperationReturnsAListedStatus : Obligations.EveryOperationReturnsAListedStatus :=
  fun i s => (exec_endsIn i s).exists_next

end Sys2Proof.Machine
end

section
/-!
SUPPORT. The reset event beside CHK.RESET, and the noninterference of the two modes: an operation of one mode commutes with
any write to what the other mode holds, and what it keeps follows from that; and the settled statements about both.
-/

namespace Sys2Proof.Machine

/-! ### Reset (R250, R203) -/

theorem step_of_hardReset {s : State} {rest : List HostAction} (hhost : s.host = .hardReset :: rest) :
    step s = .next (s.setHost rest).hardReset := by
  simp only [step, State.nextAction_cons hhost]

/-- Settles O9: the reset event takes its own entry of the host's list and writes every other field but the
configuration; CHK.RESET writes the same fields except TIMEOUT_MS. -/
theorem hardResetGivesTheResetState : Obligations.HardResetGivesTheResetState := by
  intro s rest hhost
  constructor
  · rw [step_of_hardReset hhost, State.hardReset_eq]
    rfl
  · rw [exec_chkReset]
    rfl

/-! ### Operations that commute with a write (R254) -/

/-- The first outcome is a next state, and the second is the same one after the write `w`. -/
def AgreeThrough (w : State → State) (r₁ r₂ : Host.Outcome State Fault Refusal) : Prop :=
  ∃ t, r₁ = .next t ∧ r₂ = .next (w t)

theorem agreeThrough_next (w : State → State) (t : State) : AgreeThrough w (.next t) (.next (w t)) := ⟨t, rfl, rfl⟩

/-- A test with one result on both sides. -/
theorem agreeThrough_ite {w : State → State} {p : Prop} [Decidable p] {x₁ x₂ y₁ y₂ : Host.Outcome State Fault Refusal}
    (hx : AgreeThrough w x₁ x₂) (hy : AgreeThrough w y₁ y₂) :
    AgreeThrough w (if p then x₁ else y₁) (if p then x₂ else y₂) := by
  split
  · exact hx
  · exact hy

/-- From every state, `w` before the operation and `w` after it lead to the same state. -/
def CommutesWith (w : State → State) (i : Instr) : Prop := ∀ s, AgreeThrough w (exec i s) (exec i (w s))

/-- A write that changes nothing in `s` changes nothing after an operation that commutes with it. -/
theorem CommutesWith.eq_of_next {w : State → State} {i : Instr} (h : CommutesWith w i) {s t : State} (hs : w s = s)
    (hexec : exec i s = .next t) : w t = t := by
  obtain ⟨u, hu, hwu⟩ := h s
  cases hexec.symm.trans hu
  rw [hs, hexec] at hwu
  exact (Host.Outcome.next.inj hwu).symm

/-! ### Fixed mode -/

/-- The operation commutes with every write to KPEND. -/
def IgnoresKpend (i : Instr) : Prop := ∀ m, CommutesWith (·.setKpend m) i

/-- The capacity test of log 16 reads the configuration alone. -/
theorem withinInputCap_setKpend (s : State) (n : Nat) (t : State) (m : PendingMap) :
    (s.setKpend m).withinInputCap n (t.setKpend m) = (s.withinInputCap n t).setKpend m :=
  (apply_ite (fun u : State => u.setKpend m) (overInputCap s.cfg n = true) (s.fail .errCapacity) t).symm

/-- An end of CHK.PUSH2 behind the capacity test. -/
theorem agreeThrough_withinInputCap (s : State) (n : Nat) (t : State) (m : PendingMap) :
    AgreeThrough (·.setKpend m) (.next (s.withinInputCap n t)) (.next ((s.setKpend m).withinInputCap n (t.setKpend m))) :=
  ⟨_, rfl, by rw [withinInputCap_setKpend]⟩

theorem ignoresKpend_chkPush2 (now : Nat) (f : Bytes) : IgnoresKpend (.chkPush2 now f) := by
  intro m s
  show AgreeThrough _ (execChkPush2 now f s) (execChkPush2 now f (s.setKpend m))
  unfold execChkPush2
  rw [State.setKpend_fix, State.setKpend_timeoutMs]
  refine agreeThrough_ite (agreeThrough_next _ _) ?_
  rcases s.fix with _ | held
  · exact agreeThrough_withinInputCap s _ _ m
  · rcases s.timeoutMs with _ | limit
    · exact agreeThrough_next _ _
    · exact agreeThrough_ite (agreeThrough_withinInputCap s _ _ m) (agreeThrough_withinInputCap s _ _ m)

theorem ignoresKpend_chkEvict2 : IgnoresKpend .chkEvict2 := fun _ _ => agreeThrough_next _ _

theorem ignoresKpend_chkSetTmo (d : Nat) : IgnoresKpend (.chkSetTmo d) := fun _ _ => agreeThrough_next _ _

theorem ignoresKpend_chkPeek (key : Byte) : IgnoresKpend (.chkPeek false key) := fun _ _ => agreeThrough_next _ _

/-- An operation that commutes with every write to KPEND leaves KPEND: to write back what it holds changes nothing. -/
theorem IgnoresKpend.exists_next {i : Instr} (h : IgnoresKpend i) (s : State) (m : PendingMap) :
    ∃ t, exec i s = .next t ∧ t.kpend = s.kpend ∧ exec i (s.setKpend m) = .next (t.setKpend m) := by
  obtain ⟨t, hexec, hwrite⟩ := h m s
  have hsame : t.setKpend s.kpend = t := (h s.kpend).eq_of_next rfl hexec
  exact ⟨t, hexec, (congrArg State.kpend hsame).symm, hwrite⟩

/-! ### Keyed mode -/

/-- The operation commutes with every write to FIX and TIMEOUT_MS. -/
def IgnoresFixed (i : Instr) : Prop := ∀ x d, CommutesWith (fun s => (s.setFix x).setTimeout d) i

/-- The tests of CHK.PUSHK read the configuration and KPEND, and each of its ends writes KPEND and the latches at most. -/
theorem ignoresFixed_chkPushK (now : Nat) (f : Bytes) : IgnoresFixed (.chkPushK now f) := by
  intro x d s
  refine agreeThrough_ite (agreeThrough_next _ _) ?withinBufCap
  refine agreeThrough_ite (agreeThrough_next _ _) ?detected
  refine agreeThrough_ite (agreeThrough_next _ _) ?withinKfrags
  refine agreeThrough_ite (agreeThrough_next _ _) ?notFinal
  exact agreeThrough_ite (agreeThrough_next _ _) (agreeThrough_next _ _)

theorem ignoresFixed_chkEvictK (key : Byte) : IgnoresFixed (.chkEvictK key) := fun _ _ _ => agreeThrough_next _ _

theorem ignoresFixed_chkPeek (key : Byte) : IgnoresFixed (.chkPeek true key) := fun _ _ _ => agreeThrough_next _ _

/-- An operation that commutes with every write to FIX and TIMEOUT_MS leaves both. -/
theorem IgnoresFixed.exists_next {i : Instr} (h : IgnoresFixed i) (s : State) (x : Option FixBuffer) (d : Option Nat) :
    ∃ t, exec i s = .next t ∧ t.fix = s.fix ∧ t.timeoutMs = s.timeoutMs ∧
      exec i ((s.setFix x).setTimeout d) = .next ((t.setFix x).setTimeout d) := by
  obtain ⟨t, hexec, hwrite⟩ := h x d s
  have hsame : (t.setFix s.fix).setTimeout s.timeoutMs = t := (h s.fix s.timeoutMs).eq_of_next rfl hexec
  exact ⟨t, hexec, (congrArg State.fix hsame).symm, (congrArg State.timeoutMs hsame).symm, hwrite⟩

/-- Settles O17: each operation of one mode commutes with the writes to what the other mode holds. -/
theorem fixedAndKeyedModesDoNotMeet : Obligations.FixedAndKeyedModesDoNotMeet := by
  constructor
  · rintro i s m (⟨now, f, rfl⟩ | rfl | ⟨d, rfl⟩ | ⟨key, rfl⟩)
    · exact (ignoresKpend_chkPush2 now f).exists_next s m
    · exact ignoresKpend_chkEvict2.exists_next s m
    · exact (ignoresKpend_chkSetTmo d).exists_next s m
    · exact (ignoresKpend_chkPeek key).exists_next s m
  · rintro i s x d (⟨now, f, rfl⟩ | ⟨key, rfl⟩ | ⟨key, rfl⟩)
    · exact (ignoresFixed_chkPushK now f).exists_next s x d
    · exact (ignoresFixed_chkEvictK key).exists_next s x d
    · exact (ignoresFixed_chkPeek key).exists_next s x d

end Sys2Proof.Machine
end
